-- ==== Sys2Proof/Word.lean ====
section
/-! DEFINITION. The plainest word types of the UPC (spec/00_scope.md R11, spec/20_memory.md R59: the byte is 8 bits
everywhere, every quantity is unsigned). -/

namespace Sys2Proof

/-- One byte: a buffer byte, a wire byte, an 8-bit register (R59, R65). -/
abbrev Byte := BitVec 8

/-- One bit: a pin level or a 1-bit register (R26, R43). -/
abbrev Bit := BitVec 1

end Sys2Proof
end

