-- ==== Sys2Proof/Config.lean ====
section
/-! DEFINITION. The constants the spec fixes (spec/00_scope.md R6, R8), the parameters it leaves open as ONE record
(R7), and the free values: opaque constants with no body, of which nothing can be proved. -/

namespace Sys2Proof

/-- The packet ceiling `MAX_PACKET` (R6). -/
def Config.maxPacket : Nat := 200
/-- The bytes of the address header of a fixed or broadcast message, `FIXED_HDR` (R6). -/
def Config.fixedHdr : Nat := 3
/-- The payload ceiling of a fixed or broadcast message, `MAX_FIXED_PAYLOAD` (R6, R162). -/
def Config.maxFixedPayload : Nat := 197
/-- The link speed Configuration mode requires, `CFG_LINK_BAUD` (R6, R136). -/
def Config.cfgLinkBaud : Nat := 9600
/-- The size of each of the two buffers, `TBUF_SIZE` and `RBUF_SIZE` (R8, R34, R35). -/
def Config.bufSize : Nat := 200
/-- `BROADCAST_ADDR`: both address bytes of a broadcast message (R6, R109). -/
def Config.broadcastAddr : Byte := 0xFF#8

/-- The parameters the source leaves open (R7). "The model takes each as an argument (a field of its configuration
record)": this is that record. A state carries one (`State.params`), no step changes it, and a statement about every
state holds for every value of every parameter. -/
structure Params where
  /-- `AUX_WIRED`: the busy/ready line is wired (a strap). -/
  auxWired : Bool
  /-- `T_SETTLE_TIMEOUT`, ticks. -/
  tSettleTimeout : Nat
  /-- `T_SETTLE_DELAY`, ticks. -/
  tSettleDelay : Nat
  /-- `T_RESP_TIMEOUT`, ticks. -/
  tRespTimeout : Nat
  /-- `T_POLL`, ticks, at least 1. -/
  tPoll : Nat
  /-- `T_READ_TIMEOUT`, ticks. -/
  tReadTimeout : Nat
  /-- `T_QUIESCE`, ticks. -/
  tQuiesce : Nat
  /-- `N_UNTIL_MAX`, bytes, 1 to 200. -/
  nUntilMax : Nat
  /-- `RX_DEPTH`, bytes, at least 201; `none` is "unbounded". -/
  rxDepth : Option Nat
  /-- `TW`, the width of `ARGT` and `ARGP` in bits, at least 1. -/
  tw : Nat
  /-- `BAND_BASE`, used by the frequency function of R24 only. -/
  bandBase : Nat
  deriving DecidableEq, Repr

/-- The constraints R7 puts on the parameters. -/
def Params.wf (p : Params) : Bool :=
  decide (1 ≤ p.tPoll) && decide (1 ≤ p.nUntilMax) && decide (p.nUntilMax ≤ 200) && decide (1 ≤ p.tw) &&
    (match p.rxDepth with
     | none => true
     | some d => decide (201 ≤ d))

/-- The parameter values `State.reset` carries: those of the conventions of spec/95_test_vectors.md. DESIGN CHOICE,
unsafe, log entry 2: the source gives no number for any of them; no statement rests on these. -/
def Config.board : Params where
  auxWired := true
  tSettleTimeout := 100
  tSettleDelay := 40
  tRespTimeout := 100
  tPoll := 10
  tReadTimeout := 50
  tQuiesce := 5
  nUntilMax := 200
  rxDepth := some 256
  tw := 16
  bandBase := 850

/-- FREE VALUE. The byte at address `a` of a buffer whose contents became unspecified at draw number `epoch` and which
nothing has written since (R52 and U2: after reset; R201 and U3: `RBUF` after a failure past the operand checks). It has
no body: nothing can be proved of it. Log entry 6. -/
opaque Config.freeByte : Nat → Nat → BitVec 8

end Sys2Proof
end

