-- ==== Sys2Proof/Syntax.lean ====
section
/-! DEFINITION. The instructions: one constructor for each row of spec/opcode_table.json. The 26 host commands and the
reserved opcodes (R85, R86, R112) take all operands from registers, so their constructors have none (a reserved opcode
carries its value). Every other row is bytes or pins at the boundary of the UPC: a frame, a part of a frame, a pin pair. Its
constructor carries the row's fields. Log entry 4 says what such a row means. -/

namespace Sys2Proof

/-- The 15 body fields of a Configuration, each at its field's width (spec/10_state.md R26 registers 19 to 33, R38 to
R41). The same type serves the `CFG_*` registers of the state and the fields of a frame. -/
structure CfgBody where
  addh : Byte
  addl : Byte
  airrate : BitVec 3
  parity : BitVec 2
  baud : BitVec 3
  power : BitVec 2
  rssiNoise : Bit
  subpkt : BitVec 2
  chan : Byte
  wor : BitVec 3
  lbt : Bit
  fixed : Bit
  rssiEn : Bit
  crypth : Byte
  cryptl : Byte
  deriving DecidableEq, Repr

/-- The 8 body bytes as they stand on the wire (R94): what a received frame holds, reserved bits included (R103). -/
structure BodyBytes where
  addh : Byte
  addl : Byte
  sped : Byte
  option : Byte
  chan : Byte
  transmode : Byte
  crypth : Byte
  cryptl : Byte
  deriving DecidableEq, Repr

/-- The save type of a write (R90): 0xC0 or 0xC2. -/
inductive SaveType where
  | persistent
  | volatile
  deriving DecidableEq, Repr

/-- The program commands a caller may issue (R19, R90): 0xC0, 0xC1, 0xC2. -/
inductive ProgCmd where
  | writePersistent
  | readConfiguration
  | writeVolatile
  deriving DecidableEq, Repr

/-- The five register windows the window commands accept (R89 codes 1 to 5). -/
inductive Window where
  | speed
  | option
  | channel
  | crypt
  | transmode
  deriving DecidableEq, Repr

/-- The instructions, in the order of spec/opcode_table.json. -/
inductive Instr where
  -- codec commands (spec/40_codec.md)
  | enccfg
  | deccfg
  | encreg
  | decreg
  | decinfo
  -- mode commands (spec/41_mode.md)
  | setmode
  | getmode
  -- transport commands (spec/42_transport.md)
  | sendstruct
  | recvstruct
  | waitcomplete
  | drain
  -- messaging commands (spec/43_messaging.md)
  | sendmsg
  | sendfixed
  | sendbcast
  | recvmsg
  | recvmsgrssi
  | recvcomplete
  | recvuntil
  | available
  -- configuration commands (spec/44_config.md)
  | getcfg
  | setcfg
  | getinfo
  | resetmod
  | sendcfgmsg
  | readreg
  | writereg
  /-- Every other 8-bit value written to `CMD` (R112). -/
  | reserved (op : Byte)
  -- parts of configuration frames (spec/30_encoding.md R92, R100 to R102, R94)
  | wfHeader (c a n : Byte)
  | sped (b : BitVec 3) (p : BitVec 2) (a : BitVec 3)
  | option (sub : BitVec 2) (n : Bit) (w : BitVec 2)
  | transmode (r f t : Bit) (k : BitVec 3)
  | cfgBody (c : CfgBody)
  -- whole configuration frames (R93, R96, R104, R105)
  | cfgReadReq
  | cfgWriteReq (v : SaveType) (c : CfgBody)
  | cfgResp (a n : Byte) (bs : BodyBytes)
  | infoReadReq
  | infoResp (a n m v f : Byte)
  -- window frames (R99, R105)
  | regReadReqSpeed
  | regWriteReqSpeed (v : SaveType) (b : BitVec 3) (p : BitVec 2) (a : BitVec 3)
  | regRespSpeed (a n x : Byte)
  | regReadReqOption
  | regWriteReqOption (v : SaveType) (sub : BitVec 2) (n : Bit) (w : BitVec 2)
  | regRespOption (a n x : Byte)
  | regReadReqChannel
  | regWriteReqChannel (v : SaveType) (c : Byte)
  | regRespChannel (a n x : Byte)
  | regReadReqCrypt
  | regWriteReqCrypt (v : SaveType) (x y : Byte)
  | regRespCrypt (a n x y : Byte)
  | regReadReqTransmode
  | regWriteReqTransmode (v : SaveType) (r f t : Bit) (k : BitVec 3)
  | regRespTransmode (a n x : Byte)
  -- message frames (R107 to R111)
  | msgTransparent (payload : List Byte)
  | msgFixed (h l c : Byte) (payload : List Byte)
  | msgBcast (c : Byte) (payload : List Byte)
  | msgRemoteCfg (h l c : Byte) (q : ProgCmd) (body : CfgBody)
  | msgReceived (payload : List Byte) (trailer : Option Byte)
  -- mode-select pin pairs (R106)
  | modeNormal
  | modeWorTx
  | modeWorRx
  | modeConfiguration
  -- wire command codes, byte 0 of a frame (R95)
  | cmdWritePersistent
  | cmdRead
  | cmdWriteVolatile
  | cmdWrongFormat
  | cmdSpecialExtended
  deriving DecidableEq, Repr

end Sys2Proof
end

