-- ==== Sys2Proof/WellFormed.lean ====
section
/-! DEFINITION. Which instructions the encodings admit: the checks a constructor's type does not make. -/

namespace Sys2Proof

/-- The 26 assigned opcodes (spec/30_encoding.md R86). -/
def assignedOpcodes : List Byte :=
  [0x10#8, 0x11#8, 0x12#8, 0x13#8, 0x14#8, 0x20#8, 0x21#8, 0x30#8, 0x31#8, 0x32#8, 0x33#8] ++
  [0x40#8, 0x41#8, 0x42#8, 0x43#8, 0x44#8, 0x45#8, 0x46#8, 0x47#8] ++
  [0x50#8, 0x51#8, 0x52#8, 0x53#8, 0x54#8, 0x55#8, 0x56#8]

/-- A reserved opcode is an unassigned one (R112); a header's command code is one of R95 (R92); a message
payload keeps to its format's length (R107, R108, R109, R111). Every other constructor is well formed by its type. -/
def Instr.wf (i : Instr) : Bool :=
  match i with
  | .reserved op => !assignedOpcodes.contains op
  | .wfHeader c _ _ => c == 0xC0#8 || c == 0xC1#8 || c == 0xC2#8 || c == 0xFF#8 || c == 0xCF#8
  | .msgTransparent payload => decide (payload.length ≤ 200)
  | .msgFixed _ _ _ payload => decide (payload.length ≤ 197)
  | .msgBcast _ payload => decide (payload.length ≤ 197)
  | .msgReceived payload _ => decide (payload.length ≤ 200)
  | .enccfg | .deccfg | .encreg | .decreg | .decinfo | .setmode | .getmode | .sendstruct | .recvstruct
  | .waitcomplete | .drain | .sendmsg | .sendfixed | .sendbcast | .recvmsg | .recvmsgrssi | .recvcomplete
  | .recvuntil | .available | .getcfg | .setcfg | .getinfo | .resetmod | .sendcfgmsg | .readreg | .writereg => true
  | .sped _ _ _ | .option _ _ _ | .transmode _ _ _ _ | .cfgBody _ | .cfgReadReq | .cfgWriteReq _ _
  | .cfgResp _ _ _ | .infoReadReq | .infoResp _ _ _ _ _ => true
  | .regReadReqSpeed | .regWriteReqSpeed _ _ _ _ | .regRespSpeed _ _ _ | .regReadReqOption
  | .regWriteReqOption _ _ _ _ | .regRespOption _ _ _ | .regReadReqChannel | .regWriteReqChannel _ _
  | .regRespChannel _ _ _ | .regReadReqCrypt | .regWriteReqCrypt _ _ _ | .regRespCrypt _ _ _ _
  | .regReadReqTransmode | .regWriteReqTransmode _ _ _ _ _ | .regRespTransmode _ _ _ => true
  | .msgRemoteCfg _ _ _ _ _ | .modeNormal | .modeWorTx | .modeWorRx | .modeConfiguration => true
  | .cmdWritePersistent | .cmdRead | .cmdWriteVolatile | .cmdWrongFormat | .cmdSpecialExtended => true

end Sys2Proof
end

