-- ==== Sys2Proof/Decode.lean ====
section
/-! DEFINITION. The encodings of spec/30_encoding.md: the packing of the three bit-packed bytes, the decoder (total on any
bytes, rejecting by name) and, after it, the encoder. What the same bits mean depends on where the UPC meets them (0xC1
written to `CMD` is a reserved opcode, as byte 0 of a frame it is the read code), so the decoder is told the port. -/

namespace Sys2Proof

/-! ## The three packed bytes (R100 to R102, R120 to R122) -/

/-- `PackSped` of R120: `(CFG_BAUD << 5) | (CFG_PARITY << 3) | CFG_AIRRATE`. -/
def packSped (baud : BitVec 3) (parity : BitVec 2) (air : BitVec 3) : Byte :=
  (baud.setWidth 8 <<< 5) ||| (parity.setWidth 8 <<< 3) ||| air.setWidth 8

/-- `PackOption` of R121: `(CFG_SUBPKT << 6) | (CFG_RSSI_NOISE << 5) | CFG_POWER`; bits 4:2 are 0. -/
def packOption (subpkt : BitVec 2) (noise : Bit) (power : BitVec 2) : Byte :=
  (subpkt.setWidth 8 <<< 6) ||| (noise.setWidth 8 <<< 5) ||| power.setWidth 8

/-- `PackTransmode` of R122: `(CFG_RSSI_EN << 7) | (CFG_FIXED << 6) | (CFG_LBT << 4) | CFG_WOR`; bits 5 and 3 are 0. -/
def packTransmode (rssiEn fixed lbt : Bit) (wor : BitVec 3) : Byte :=
  (rssiEn.setWidth 8 <<< 7) ||| (fixed.setWidth 8 <<< 6) ||| (lbt.setWidth 8 <<< 4) ||| wor.setWidth 8

/-- `CFG_BAUD`: SPED bits 7:5 (R100). -/
def spedBaud (x : Byte) : BitVec 3 := x.extractLsb' 5 3
/-- `CFG_PARITY`: SPED bits 4:3 (R100). -/
def spedParity (x : Byte) : BitVec 2 := x.extractLsb' 3 2
/-- `CFG_AIRRATE`: SPED bits 2:0 (R100). -/
def spedAirrate (x : Byte) : BitVec 3 := x.extractLsb' 0 3
/-- `CFG_SUBPKT`: OPTION bits 7:6 (R101). -/
def optionSubpkt (x : Byte) : BitVec 2 := x.extractLsb' 6 2
/-- `CFG_RSSI_NOISE`: OPTION bit 5 (R101). -/
def optionNoise (x : Byte) : Bit := x.extractLsb' 5 1
/-- `CFG_POWER`: OPTION bits 1:0 (R101). -/
def optionPower (x : Byte) : BitVec 2 := x.extractLsb' 0 2
/-- `CFG_RSSI_EN`: TRANSMODE bit 7 (R102). -/
def transmodeRssiEn (x : Byte) : Bit := x.extractLsb' 7 1
/-- `CFG_FIXED`: TRANSMODE bit 6 (R102). -/
def transmodeFixed (x : Byte) : Bit := x.extractLsb' 6 1
/-- `CFG_LBT`: TRANSMODE bit 4 (R102). -/
def transmodeLbt (x : Byte) : Bit := x.extractLsb' 4 1
/-- `CFG_WOR`: TRANSMODE bits 2:0 (R102). -/
def transmodeWor (x : Byte) : BitVec 3 := x.extractLsb' 0 3

/-- The defined bits of OPTION (R103). -/
def optionMask : Byte := 0xE3#8
/-- The defined bits of TRANSMODE (R103). -/
def transmodeMask : Byte := 0xD7#8

/-- `EncodeBody` of R123, as named bytes: reserved bits 0. -/
def packBody (c : CfgBody) : BodyBytes where
  addh := c.addh
  addl := c.addl
  sped := packSped c.baud c.parity c.airrate
  option := packOption c.subpkt c.rssiNoise c.power
  chan := c.chan
  transmode := packTransmode c.rssiEn c.fixed c.lbt c.wor
  crypth := c.crypth
  cryptl := c.cryptl

/-- `DecodeBody` of R124: reserved bits are dropped. -/
def unpackBody (b : BodyBytes) : CfgBody where
  addh := b.addh
  addl := b.addl
  airrate := spedAirrate b.sped
  parity := spedParity b.sped
  baud := spedBaud b.sped
  power := optionPower b.option
  rssiNoise := optionNoise b.option
  subpkt := optionSubpkt b.option
  chan := b.chan
  wor := transmodeWor b.transmode
  lbt := transmodeLbt b.transmode
  fixed := transmodeFixed b.transmode
  rssiEn := transmodeRssiEn b.transmode
  crypth := b.crypth
  cryptl := b.cryptl

/-- The 8 body bytes in wire order (R94, R77: index 0 is first on the wire). -/
def BodyBytes.toList (b : BodyBytes) : List Byte :=
  [b.addh, b.addl, b.sped, b.option, b.chan, b.transmode, b.crypth, b.cryptl]

/-- The body bytes of a list of exactly 8 bytes. -/
def bodyOfList (bs : List Byte) : Option BodyBytes :=
  match bs with
  | [h, l, s, o, c, t, x, y] => some ⟨h, l, s, o, c, t, x, y⟩
  | _ => none

/-! ## Wire codes and windows (R90, R95, R97, R98) -/

/-- Write-persistent, 0xC0 (R95). -/
def codeWritePersistent : Byte := 0xC0#8
/-- Read, 0xC1; also the acknowledgment code of every response (R95, R105). -/
def codeRead : Byte := 0xC1#8
/-- Write-volatile, 0xC2 (R95). -/
def codeWriteVolatile : Byte := 0xC2#8
/-- The wrong-format sentinel, 0xFF (R95, R113). -/
def codeWrongFormat : Byte := 0xFF#8
/-- The special extended-configuration code, 0xCF (R95, R113). -/
def codeSpecialExtended : Byte := 0xCF#8

/-- The wire code of a save type (R90). -/
def SaveType.code : SaveType → Byte
  | .persistent => codeWritePersistent
  | .volatile => codeWriteVolatile

/-- The save type a byte names: 0xC0 and 0xC2 only (R90). -/
def saveTypeOf (b : Byte) : Option SaveType :=
  if b = codeWritePersistent then some .persistent
  else if b = codeWriteVolatile then some .volatile
  else none

/-- The wire code of a program command (R90). -/
def ProgCmd.code : ProgCmd → Byte
  | .writePersistent => codeWritePersistent
  | .readConfiguration => codeRead
  | .writeVolatile => codeWriteVolatile

/-- The program command a byte names: 0xC0, 0xC1 and 0xC2 only (R90). -/
def progCmdOf (b : Byte) : Option ProgCmd :=
  if b = codeWritePersistent then some .writePersistent
  else if b = codeRead then some .readConfiguration
  else if b = codeWriteVolatile then some .writeVolatile
  else none

/-- `WinAddr`: the startAddr literal of a window (R97, R98; the window's name, not the address, picks the payload). -/
def Window.addr : Window → Byte
  | .speed => 0x02#8
  | .option => 0x05#8
  | .channel => 0x04#8
  | .crypt => 0x06#8
  | .transmode => 0x03#8

/-- `WinLen`: the payload length of a window (R98). -/
def Window.len : Window → Nat
  | .speed => 1
  | .option => 1
  | .channel => 1
  | .crypt => 2
  | .transmode => 1

/-- The length byte of a window (R98). -/
def Window.lenByte (w : Window) : Byte := BitVec.ofNat 8 w.len

/-- A window frame (R99): `[command][startAddr][n] ++ payload`. -/
def windowFrame (c : Byte) (w : Window) (payload : List Byte) : List Byte :=
  [c, w.addr, w.lenByte] ++ payload

/-- A full-block frame's header with `startAddr` 0x00 and length 0x08 (R93). -/
def fullHeader (c : Byte) : List Byte := [c, 0x00#8, 0x08#8]

/-! ## The decoder -/

/-- Where the UPC meets a group of bits. The table's `format` column and the frame's direction and place together name
it. A response's window is that of the request in progress (R105: bytes 1 and 2 are unchecked, so the bytes alone do not
say). -/
inductive Port where
  /-- the value written to `CMD` (format HC, R85) -/
  | cmd
  /-- the first three bytes of a configuration frame (format WF, R92) -/
  | header
  /-- the SPED byte (format BYTE, R100) -/
  | sped
  /-- the OPTION byte (format BYTE, R101) -/
  | option
  /-- the TRANSMODE byte (format BYTE, R102) -/
  | transmode
  /-- the 8 body bytes (format WB8, R94) -/
  | body
  /-- byte 0 of a configuration frame (format BYTE, R95) -/
  | code
  /-- a whole configuration frame to the device (formats WF3, WF11, WFn) -/
  | request
  /-- a response to a full-block request (format WF11, R105) -/
  | respFull
  /-- a response to the identity request (format WF6, R104) -/
  | respInfo
  /-- a response to a window request (format WFn, R105) -/
  | respWindow (w : Window)
  /-- a transparent message to the device (format MT, R107) -/
  | transparent
  /-- a fixed message to the device (format MF, R108) -/
  | fixedMsg
  /-- a broadcast message to the device (format MF, R109) -/
  | broadcast
  /-- a remote configuration message to the device (format MF, R110) -/
  | remote
  /-- a message from the device of `n` payload bytes, with a trailing RSSI byte when `rssi` (R111) -/
  | received (n : Nat) (rssi : Bool)
  /-- the pin pair, as the two-bit number whose high digit is M0 (format PINS, R106) -/
  | pins
  deriving DecidableEq, Repr

/-- Why bytes are no instruction at a port. -/
inductive DecodeError where
  /-- the number of bytes is not the format's -/
  | wrongLength
  /-- byte 0 is no command code of the format (R95, R105) -/
  | unknownCode
  /-- no request has this startAddr and length (R97, R98) -/
  | unknownRequest
  /-- a reserved bit is 1 in a frame the UPC writes (R103) -/
  | reservedBits
  /-- the payload exceeds the format's limit (R107, R108) -/
  | tooLong
  /-- a broadcast frame not addressed to 255/255 (R109) -/
  | notBroadcast
  /-- no two-bit pin code -/
  | badPins
  /-- a row that is met inside a command only, scheduled as an item: commands start by a host write of `CMD` only (R27),
  and the UPC acts by running commands only (R45, R60, R140) -/
  | notAnItem
  deriving DecidableEq, Repr

/-- The opcode map (R86): each opcode with its command. -/
def opcodeTable : List (Byte × Instr) :=
  [(0x10#8, .enccfg), (0x11#8, .deccfg), (0x12#8, .encreg), (0x13#8, .decreg), (0x14#8, .decinfo)] ++
  [(0x20#8, .setmode), (0x21#8, .getmode)] ++
  [(0x30#8, .sendstruct), (0x31#8, .recvstruct), (0x32#8, .waitcomplete), (0x33#8, .drain)] ++
  [(0x40#8, .sendmsg), (0x41#8, .sendfixed), (0x42#8, .sendbcast), (0x43#8, .recvmsg)] ++
  [(0x44#8, .recvmsgrssi), (0x45#8, .recvcomplete), (0x46#8, .recvuntil), (0x47#8, .available)] ++
  [(0x50#8, .getcfg), (0x51#8, .setcfg), (0x52#8, .getinfo), (0x53#8, .resetmod)] ++
  [(0x54#8, .sendcfgmsg), (0x55#8, .readreg), (0x56#8, .writereg)]

/-- The command an opcode starts: every value outside the map is reserved (R86, R112). -/
def decodeOpcode (op : Byte) : Instr :=
  match opcodeTable.find? (fun row => row.1 == op) with
  | some row => row.2
  | none => .reserved op

/-- A 3-byte request frame: reads only (R96, R97, R98, R104). -/
def decodeReadRequest (c a n : Byte) : Except DecodeError Instr :=
  if c ≠ codeRead then .error .unknownCode
  else if a = 0x00#8 ∧ n = 0x08#8 then .ok .cfgReadReq
  else if a = 0x08#8 ∧ n = 0x03#8 then .ok .infoReadReq
  else if a = Window.speed.addr ∧ n = 0x01#8 then .ok .regReadReqSpeed
  else if a = Window.option.addr ∧ n = 0x01#8 then .ok .regReadReqOption
  else if a = Window.channel.addr ∧ n = 0x01#8 then .ok .regReadReqChannel
  else if a = Window.crypt.addr ∧ n = 0x02#8 then .ok .regReadReqCrypt
  else if a = Window.transmode.addr ∧ n = 0x01#8 then .ok .regReadReqTransmode
  else .error .unknownRequest

/-- A 4-byte request frame: the write of a one-byte window (R99). -/
def decodeWriteRequest1 (c a n x : Byte) : Except DecodeError Instr :=
  match saveTypeOf c with
  | none => .error .unknownCode
  | some v =>
    if n ≠ 0x01#8 then .error .unknownRequest
    else if a = Window.speed.addr then .ok (.regWriteReqSpeed v (spedBaud x) (spedParity x) (spedAirrate x))
    else if a = Window.option.addr then
      if x &&& optionMask = x then .ok (.regWriteReqOption v (optionSubpkt x) (optionNoise x) (optionPower x))
      else .error .reservedBits
    else if a = Window.channel.addr then .ok (.regWriteReqChannel v x)
    else if a = Window.transmode.addr then
      if x &&& transmodeMask = x then
        .ok (.regWriteReqTransmode v (transmodeRssiEn x) (transmodeFixed x) (transmodeLbt x) (transmodeWor x))
      else .error .reservedBits
    else .error .unknownRequest

/-- A 5-byte request frame: the write of the crypt window (R99). -/
def decodeWriteRequest2 (c a n x y : Byte) : Except DecodeError Instr :=
  match saveTypeOf c with
  | none => .error .unknownCode
  | some v => if a = Window.crypt.addr ∧ n = 0x02#8 then .ok (.regWriteReqCrypt v x y) else .error .unknownRequest

/-- The fields of a body the UPC wrote: its reserved bits are 0 (R103). -/
def decodeWrittenBody (b : BodyBytes) : Except DecodeError CfgBody :=
  if b.option &&& optionMask = b.option ∧ b.transmode &&& transmodeMask = b.transmode then .ok (unpackBody b)
  else .error .reservedBits

/-- An 11-byte request frame: the write of the full block (R93). -/
def decodeFullWrite (c a n : Byte) (b : BodyBytes) : Except DecodeError Instr :=
  match saveTypeOf c with
  | none => .error .unknownCode
  | some v =>
    if a = 0x00#8 ∧ n = 0x08#8 then
      match decodeWrittenBody b with
      | .ok body => .ok (.cfgWriteReq v body)
      | .error e => .error e
    else .error .unknownRequest

/-- Any configuration frame to the device, by its length (R115). -/
def decodeRequest (bs : List Byte) : Except DecodeError Instr :=
  match bs with
  | [c, a, n] => decodeReadRequest c a n
  | [c, a, n, x] => decodeWriteRequest1 c a n x
  | [c, a, n, x, y] => decodeWriteRequest2 c a n x y
  | [c, a, n, h, l, s, o, ch, t, x, y] => decodeFullWrite c a n ⟨h, l, s, o, ch, t, x, y⟩
  | _ => .error .wrongLength

/-- A response to a window request: byte 0 must be 0xC1, bytes 1 and 2 are unchecked (R105). -/
def decodeWindowResponse (w : Window) (bs : List Byte) : Except DecodeError Instr :=
  match w, bs with
  | .crypt, [c, a, n, x, y] => if c = codeRead then .ok (.regRespCrypt a n x y) else .error .unknownCode
  | .speed, [c, a, n, x] => if c = codeRead then .ok (.regRespSpeed a n x) else .error .unknownCode
  | .option, [c, a, n, x] => if c = codeRead then .ok (.regRespOption a n x) else .error .unknownCode
  | .channel, [c, a, n, x] => if c = codeRead then .ok (.regRespChannel a n x) else .error .unknownCode
  | .transmode, [c, a, n, x] => if c = codeRead then .ok (.regRespTransmode a n x) else .error .unknownCode
  | _, _ => .error .wrongLength

/-- Byte 0 of a frame as a wire command code (R95). -/
def decodeCode (b : Byte) : Except DecodeError Instr :=
  if b = codeWritePersistent then .ok .cmdWritePersistent
  else if b = codeRead then .ok .cmdRead
  else if b = codeWriteVolatile then .ok .cmdWriteVolatile
  else if b = codeWrongFormat then .ok .cmdWrongFormat
  else if b = codeSpecialExtended then .ok .cmdSpecialExtended
  else .error .unknownCode

/-- A pin pair, left digit M0 (R106). -/
def decodePins (b : Byte) : Except DecodeError Instr :=
  if b = 0b00#8 then .ok .modeNormal
  else if b = 0b10#8 then .ok .modeWorTx
  else if b = 0b01#8 then .ok .modeWorRx
  else if b = 0b11#8 then .ok .modeConfiguration
  else .error .badPins

/-- A header's byte 0 is a command code of R95 (R92): the three the UPC emits, and the two of R113. -/
def decodeHeader (c a n : Byte) : Except DecodeError Instr :=
  if c = codeWritePersistent ∨ c = codeRead ∨ c = codeWriteVolatile ∨ c = codeWrongFormat ∨ c = codeSpecialExtended then
    .ok (.wfHeader c a n)
  else .error .unknownCode

/-- A fixed or broadcast frame: three address bytes, then at most 197 payload bytes (R108, R109). -/
def decodeFixed (bs : List Byte) : Except DecodeError Instr :=
  match bs with
  | h :: l :: c :: payload => if payload.length ≤ 197 then .ok (.msgFixed h l c payload) else .error .tooLong
  | _ => .error .wrongLength

/-- A broadcast frame is a fixed frame to 255/255 (R109). -/
def decodeBroadcast (bs : List Byte) : Except DecodeError Instr :=
  match bs with
  | h :: l :: c :: payload =>
    if h = Config.broadcastAddr ∧ l = Config.broadcastAddr then
      if payload.length ≤ 197 then .ok (.msgBcast c payload) else .error .tooLong
    else .error .notBroadcast
  | _ => .error .wrongLength

/-- A remote configuration frame: 14 bytes (R110). -/
def decodeRemote (bs : List Byte) : Except DecodeError Instr :=
  match bs with
  | [h, l, c, q, a, n, b0, b1, b2, b3, b4, b5, b6, b7] =>
    match progCmdOf q with
    | none => .error .unknownCode
    | some pc =>
      if a = 0x00#8 ∧ n = 0x08#8 then
        match decodeWrittenBody ⟨b0, b1, b2, b3, b4, b5, b6, b7⟩ with
        | .ok body => .ok (.msgRemoteCfg h l c pc body)
        | .error e => .error e
      else .error .unknownRequest
  | _ => .error .wrongLength

/-- A received message: `n` payload bytes and, when `rssi`, one trailing byte (R111). -/
def decodeReceived (n : Nat) (rssi : Bool) (bs : List Byte) : Except DecodeError Instr :=
  if n ≤ 200 then
    if rssi then
      if bs.length = n + 1 then .ok (.msgReceived (bs.take n) (some (bs.getD n 0#8))) else .error .wrongLength
    else
      if bs.length = n then .ok (.msgReceived bs none) else .error .wrongLength
  else .error .tooLong

/-- The decoder, total: the instruction the bytes are at a port, or why they are none. -/
def decode (p : Port) (bs : List Byte) : Except DecodeError Instr :=
  match p with
  | .cmd => match bs with
    | [op] => .ok (decodeOpcode op)
    | _ => .error .wrongLength
  | .header => match bs with
    | [c, a, n] => decodeHeader c a n
    | _ => .error .wrongLength
  | .sped => match bs with
    | [x] => .ok (.sped (spedBaud x) (spedParity x) (spedAirrate x))
    | _ => .error .wrongLength
  | .option => match bs with
    | [x] => .ok (.option (optionSubpkt x) (optionNoise x) (optionPower x))
    | _ => .error .wrongLength
  | .transmode => match bs with
    | [x] => .ok (.transmode (transmodeRssiEn x) (transmodeFixed x) (transmodeLbt x) (transmodeWor x))
    | _ => .error .wrongLength
  | .body => match bodyOfList bs with
    | some b => .ok (.cfgBody (unpackBody b))
    | none => .error .wrongLength
  | .code => match bs with
    | [x] => decodeCode x
    | _ => .error .wrongLength
  | .request => decodeRequest bs
  | .respFull => match bs with
    | [c, a, n, h, l, s, o, ch, t, x, y] =>
      if c = codeRead then .ok (.cfgResp a n ⟨h, l, s, o, ch, t, x, y⟩) else .error .unknownCode
    | _ => .error .wrongLength
  | .respInfo => match bs with
    | [c, a, n, m, v, f] => if c = codeRead then .ok (.infoResp a n m v f) else .error .unknownCode
    | _ => .error .wrongLength
  | .respWindow w => decodeWindowResponse w bs
  | .transparent => if bs.length ≤ 200 then .ok (.msgTransparent bs) else .error .tooLong
  | .fixedMsg => decodeFixed bs
  | .broadcast => decodeBroadcast bs
  | .remote => decodeRemote bs
  | .received n rssi => decodeReceived n rssi bs
  | .pins => match bs with
    | [x] => decodePins x
    | _ => .error .wrongLength

/-! ## The encoder -/

/-- The port at which an instruction is met. -/
def Instr.port (i : Instr) : Port :=
  match i with
  | .enccfg | .deccfg | .encreg | .decreg | .decinfo | .setmode | .getmode | .sendstruct | .recvstruct
  | .waitcomplete | .drain | .sendmsg | .sendfixed | .sendbcast | .recvmsg | .recvmsgrssi | .recvcomplete
  | .recvuntil | .available | .getcfg | .setcfg | .getinfo | .resetmod | .sendcfgmsg | .readreg | .writereg => .cmd
  | .reserved _ => .cmd
  | .wfHeader _ _ _ => .header
  | .sped _ _ _ => .sped
  | .option _ _ _ => .option
  | .transmode _ _ _ _ => .transmode
  | .cfgBody _ => .body
  | .cfgReadReq | .cfgWriteReq _ _ | .infoReadReq => .request
  | .cfgResp _ _ _ => .respFull
  | .infoResp _ _ _ _ _ => .respInfo
  | .regReadReqSpeed | .regReadReqOption | .regReadReqChannel | .regReadReqCrypt | .regReadReqTransmode => .request
  | .regWriteReqSpeed _ _ _ _ | .regWriteReqOption _ _ _ _ | .regWriteReqChannel _ _ | .regWriteReqCrypt _ _ _
  | .regWriteReqTransmode _ _ _ _ _ => .request
  | .regRespSpeed _ _ _ => .respWindow .speed
  | .regRespOption _ _ _ => .respWindow .option
  | .regRespChannel _ _ _ => .respWindow .channel
  | .regRespCrypt _ _ _ _ => .respWindow .crypt
  | .regRespTransmode _ _ _ => .respWindow .transmode
  | .msgTransparent _ => .transparent
  | .msgFixed _ _ _ _ => .fixedMsg
  | .msgBcast _ _ => .broadcast
  | .msgRemoteCfg _ _ _ _ _ => .remote
  | .msgReceived payload trailer => .received payload.length trailer.isSome
  | .modeNormal | .modeWorTx | .modeWorRx | .modeConfiguration => .pins
  | .cmdWritePersistent | .cmdRead | .cmdWriteVolatile | .cmdWrongFormat | .cmdSpecialExtended => .code

/-- The bytes of an instruction, first on the wire first (R77). -/
def encode (i : Instr) : List Byte :=
  match i with
  | .enccfg => [0x10#8]
  | .deccfg => [0x11#8]
  | .encreg => [0x12#8]
  | .decreg => [0x13#8]
  | .decinfo => [0x14#8]
  | .setmode => [0x20#8]
  | .getmode => [0x21#8]
  | .sendstruct => [0x30#8]
  | .recvstruct => [0x31#8]
  | .waitcomplete => [0x32#8]
  | .drain => [0x33#8]
  | .sendmsg => [0x40#8]
  | .sendfixed => [0x41#8]
  | .sendbcast => [0x42#8]
  | .recvmsg => [0x43#8]
  | .recvmsgrssi => [0x44#8]
  | .recvcomplete => [0x45#8]
  | .recvuntil => [0x46#8]
  | .available => [0x47#8]
  | .getcfg => [0x50#8]
  | .setcfg => [0x51#8]
  | .getinfo => [0x52#8]
  | .resetmod => [0x53#8]
  | .sendcfgmsg => [0x54#8]
  | .readreg => [0x55#8]
  | .writereg => [0x56#8]
  | .reserved op => [op]
  | .wfHeader c a n => [c, a, n]
  | .sped b p a => [packSped b p a]
  | .option sub n w => [packOption sub n w]
  | .transmode r f t k => [packTransmode r f t k]
  | .cfgBody c => (packBody c).toList
  | .cfgReadReq => fullHeader codeRead
  | .cfgWriteReq v c => fullHeader v.code ++ (packBody c).toList
  | .cfgResp a n bs => [codeRead, a, n] ++ bs.toList
  | .infoReadReq => [codeRead, 0x08#8, 0x03#8]
  | .infoResp a n m v f => [codeRead, a, n, m, v, f]
  | .regReadReqSpeed => windowFrame codeRead .speed []
  | .regWriteReqSpeed v b p a => windowFrame v.code .speed [packSped b p a]
  | .regRespSpeed a n x => [codeRead, a, n, x]
  | .regReadReqOption => windowFrame codeRead .option []
  | .regWriteReqOption v sub n w => windowFrame v.code .option [packOption sub n w]
  | .regRespOption a n x => [codeRead, a, n, x]
  | .regReadReqChannel => windowFrame codeRead .channel []
  | .regWriteReqChannel v c => windowFrame v.code .channel [c]
  | .regRespChannel a n x => [codeRead, a, n, x]
  | .regReadReqCrypt => windowFrame codeRead .crypt []
  | .regWriteReqCrypt v x y => windowFrame v.code .crypt [x, y]
  | .regRespCrypt a n x y => [codeRead, a, n, x, y]
  | .regReadReqTransmode => windowFrame codeRead .transmode []
  | .regWriteReqTransmode v r f t k => windowFrame v.code .transmode [packTransmode r f t k]
  | .regRespTransmode a n x => [codeRead, a, n, x]
  | .msgTransparent payload => payload
  | .msgFixed h l c payload => [h, l, c] ++ payload
  | .msgBcast c payload => [Config.broadcastAddr, Config.broadcastAddr, c] ++ payload
  | .msgRemoteCfg h l c q body => [h, l, c] ++ fullHeader q.code ++ (packBody body).toList
  | .msgReceived payload trailer => payload ++ trailer.toList
  | .modeNormal => [0b00#8]
  | .modeWorTx => [0b10#8]
  | .modeWorRx => [0b01#8]
  | .modeConfiguration => [0b11#8]
  | .cmdWritePersistent => [codeWritePersistent]
  | .cmdRead => [codeRead]
  | .cmdWriteVolatile => [codeWriteVolatile]
  | .cmdWrongFormat => [codeWrongFormat]
  | .cmdSpecialExtended => [codeSpecialExtended]

/-! ## Words as the opcode table numbers them -/

/-- The `k` bytes of a table row's word. The table writes a row as one number whose leftmost (most significant) 8 bits
are byte 0, "first on the wire" (the `byte_order` of its rows); log entry 5. -/
def tableBytes (k w : Nat) : List Byte :=
  (List.range k).map (fun j => BitVec.ofNat 8 (w >>> (8 * (k - 1 - j))))

/-- The window a response's startAddr byte names, `speed` where it names none: a convention of the table reading only
(DESIGN CHOICE, log entry 5), since in a run the request in progress says the window (R105). -/
def windowOfAddr (a : Byte) : Window :=
  if a = Window.option.addr then .option
  else if a = Window.channel.addr then .channel
  else if a = Window.crypt.addr then .crypt
  else if a = Window.transmode.addr then .transmode
  else .speed

/-- The port of an 8-bit table word. Of the rows whose word it may be, the one that spells all its bits out: a command
(R86), else a wire command code (R95), else a pin pair (R106, two bits in a byte), else a reserved opcode (R112). In a run
a value written to `CMD` is always decoded as an opcode. DESIGN CHOICE, log entry 5. -/
def tableBytePort (x : Byte) : Port :=
  match decodeOpcode x with
  | .reserved _ =>
    match decodeCode x, decodePins x with
    | .ok _, _ => .code
    | .error _, .ok _ => .pins
    | .error _, .error _ => .cmd
  | _ => .cmd

/-- The port of a table row's word, by its width: 8 bits are an opcode, a wire command code or a pin pair; the wider rows
are frames and parts of frames, told apart by their lengths and byte 0. -/
def tablePort (nbits w : Nat) : Port :=
  match nbits with
  | 8 => tableBytePort (BitVec.ofNat 8 w)
  | 24 =>
    match decodeRequest (tableBytes 3 w) with
    | .ok _ => .request
    | .error _ => .header
  | 32 =>
    match tableBytes 4 w with
    | c :: a :: _ => if c = codeRead then .respWindow (windowOfAddr a) else .request
    | _ => .request
  | 40 =>
    match tableBytes 5 w with
    | c :: _ => if c = codeRead then .respWindow .crypt else .request
    | _ => .request
  | 48 => .respInfo
  | 64 => .body
  | 88 =>
    match tableBytes 11 w with
    | c :: _ => if c = codeRead then .respFull else .request
    | _ => .request
  | 112 => .remote
  | _ => .cmd

/-- The instruction the decoder reads from a table word. -/
def decodeTableWord (nbits w : Nat) : Option Instr :=
  match decode (tablePort nbits w) (tableBytes (nbits / 8) w) with
  | .ok i => some i
  | .error _ => none

end Sys2Proof
end

