-- ==== Sys2Proof/Machine/State.lean ====
section
/-! DEFINITION. The state of the UPC as plain data (spec/10_state.md R25), the environment it is stepped with as plain
data beside it (spec/00_scope.md R9, R16, R17), the reasons a step can stop, and reset (R52, R228). -/

namespace Sys2Proof.Machine

/-- OperatingMode (R30). The code is the value of the `MODE` register; 5, 6 and 7 do not occur (U13). -/
inductive Mode where
  | normal
  | worTransmitter
  | worReceiver
  | configuration
  | uninitialized
  deriving DecidableEq, Repr

/-- The closed status taxonomy (R197), `none` being the reset value of `STATUS`. -/
inductive Status where
  | none
  | success
  | unknown
  | notSupported
  | notImplemented
  | notInitialized
  | invalidParameter
  | dataSizeMismatch
  | bufferTooSmall
  | timeout
  | hardwareError
  | headNotRecognized
  | noResponseFromDevice
  | wrongUartConfig
  | wrongFormat
  | packetTooBig
  deriving DecidableEq, Repr

/-- `SEQ`, the sequencer phase (R45). -/
inductive Phase where
  | idle
  | run
  deriving DecidableEq, Repr

/-- A frame header: command, startAddr, length (R37, R42, R92). -/
structure Header where
  command : Byte
  startAddr : Byte
  length : Byte
  deriving DecidableEq, Repr

/-- The ModuleInformation registers, numbers 40 to 45 (R42). -/
structure ModuleInfo where
  hdr : Header
  model : Byte
  version : Byte
  features : Byte
  deriving DecidableEq, Repr

/-- One of the two 200-byte buffers: the bytes something has written, and the draw number at which the rest became
unspecified. `cells` is the memory: address and byte, addresses strictly rising. An address that is not listed holds no
value of the model's choosing: reading it gives the free value `Config.freeByte epoch address` (R52, R201; U2, U3). -/
structure Memory where
  cells : List Host.Cell
  epoch : Nat
  deriving DecidableEq, Repr

/-- The canonical form, as a Bool: addresses strictly rise and lie inside the buffer (R59: 0 to 199). -/
def Memory.wf (m : Memory) : Bool :=
  (m.cells.map Prod.fst).Pairwise (· < ·) && m.cells.all (fun c => decide (c.1 < Config.bufSize))

/-- A buffer all of whose bytes are unspecified since draw `epoch`. -/
def Memory.unspecified (epoch : Nat) : Memory := ⟨[], epoch⟩

/-- One act of the attached device (R9 agent 3): a byte arrives (R71), or the level of `AUX` changes (R44, R72). -/
inductive DevAct where
  | arrive (b : Byte)
  | aux (level : Bool)
  deriving DecidableEq, Repr

/-- One entry of the observable history (R22): a byte emitted, a pin write, an AUX sample, a byte consumed; and
`rxClear`, the discard of every buffered byte (R70), which R81 and vector V50 order against the others. -/
inductive Obs where
  | tx (b : Byte)
  | pinM0 (v : Bit)
  | pinM1 (v : Bit)
  | auxSample (level : Bool)
  | rx (b : Byte)
  | rxClear
  deriving DecidableEq, Repr

/-- Everything the stream primitives of R15 act on: the receive FIFO, the pins, the wait timer, and the environment on
the other side. `aux`, `dev`, `hist` and `ticks` are the model's own (log entries 1 and 3): the environment as data and
the record of what happened; the UPC reads `aux` only by `AuxSample`. -/
structure Link where
  /-- `RXFIFO`, oldest byte first (R47). -/
  rxfifo : List Byte
  /-- The output latch `M0` (R43). -/
  m0 : Bit
  /-- The output latch `M1` (R43). -/
  m1 : Bit
  /-- `ELAPSED`, ticks (R46). -/
  elapsed : Nat
  /-- The level now on the `AUX` input (R44), `true` for 1. -/
  aux : Bool
  /-- What the device will do: one list of acts for each coming point where the environment may act (R16). Past its end
  the device does nothing. -/
  dev : List (List DevAct)
  /-- The observable history, oldest first (R22). -/
  hist : List Obs
  /-- The ticks slept so far (R73). -/
  ticks : Nat
  deriving DecidableEq, Repr

/-- A place the host can access: a register by its number (R26), a byte of `TBUF` or `RBUF` by its index (R34, R35). -/
inductive HostLoc where
  | reg (r : Nat)
  | tbuf (i : Nat)
  | rbuf (i : Nat)
  deriving DecidableEq, Repr

/-- A host access. -/
inductive HostAct where
  | read (l : HostLoc)
  | write (l : HostLoc) (v : Nat)
  deriving DecidableEq, Repr

/-- One scheduled move of an agent other than the sequencer (R9), with what the step fetches for it. -/
inductive Move where
  /-- An access by a host that waits for `BUSY = 0` first (R236). -/
  | host (a : HostAct)
  /-- An access the host makes at once, whether or not a command runs (R50). -/
  | hostNow (a : HostAct)
  /-- The external transport is re-initialised at another speed (R230, R246). -/
  | linkBaud (n : Nat)
  /-- A frame from the device arrives: its bytes at their port (R71, log entry 4). -/
  | wire (p : Port) (bs : List Byte)
  deriving DecidableEq, Repr

/-- The state. -/
structure State where
  /-- Register 0 `CMD`: the opcode last written (R27); it has no readable value. -/
  cmd : Byte
  /-- Register 1 `STATUS` (R28). -/
  status : Status
  /-- Register 2 `BUSY` (R29). -/
  busy : Bit
  /-- Register 3 `MODE` (R30). -/
  mode : Mode
  /-- Register 4 `RESULT` (R31). -/
  result : BitVec 16
  /-- Register 5 `ARG0` (R32). -/
  arg0 : Byte
  /-- Register 6 `ARG1` (R32). -/
  arg1 : Byte
  /-- Register 7 `ARG2` (R32). -/
  arg2 : Byte
  /-- Register 8 `ARG3` (R32). -/
  arg3 : Byte
  /-- Register 9 `ARGT`, a number of ticks below `2^TW` (R33). -/
  argt : Nat
  /-- Register 10 `ARGP`, a number of ticks below `2^TW` (R33). -/
  argp : Nat
  /-- Register 11 `DLEN` (R34). -/
  dlen : BitVec 16
  /-- Register 12 `RLEN` (R35). -/
  rlen : Byte
  /-- Register 13 `RSSI` (R36). -/
  rssi : Byte
  /-- Register 14 `RSSI_VALID` (R36). -/
  rssiValid : Bit
  /-- Registers 16 to 18 `CFG_COMMAND`, `CFG_STARTADDR`, `CFG_LENGTH` (R37). -/
  cfgHdr : Header
  /-- Registers 19 to 33, the other `CFG_*` registers (R38 to R41). -/
  cfg : CfgBody
  /-- Registers 40 to 45 `INFO_*` (R42). -/
  info : ModuleInfo
  /-- `TBUF` (R34). -/
  tbuf : Memory
  /-- `RBUF` (R35). -/
  rbuf : Memory
  /-- `SEQ` (R45). -/
  seq : Phase
  /-- `RXFIFO`, `M0`, `M1`, `ELAPSED`, and the environment on the link. -/
  link : Link
  /-- `LINKBAUD`, an input (R44). -/
  linkBaud : Nat
  /-- The parameters of R7, an argument of the model. -/
  params : Params
  /-- What the other agents do next (model's own, log entry 1). -/
  sched : List Move
  /-- What the host has read, oldest first (model's own). -/
  reads : List (HostLoc × Nat)
  /-- The number of draws made so far: the next free `epoch` (model's own, log entry 6). -/
  draws : Nat
  deriving DecidableEq, Repr

/-- Why the machine stops with a fault. -/
inductive Fault where
  /-- A host access to an index of `TBUF` or `RBUF` that does not exist (R34, R35: indices 0 to 199). Raised by the host
  access operations. Safe: the model stops where the spec gives no byte. -/
  | noSuchIndex (l : HostLoc)
  deriving DecidableEq, Repr

/-- Why a step has no meaning. -/
inductive Refusal where
  /-- An instruction that has no meaning yet: raised by a refused arm of `exec` only. Safe. -/
  | notModelled (mnemonic : String)
  /-- A host access other than a read of `BUSY` while a command runs (R50, R236; U1: "refuse: a run in which it happens
  is outside the model"). Raised by `step`. Safe. -/
  | hostAccessWhileBusy (a : HostAct)
  /-- The 0xCF path (R113; U9: "refuse: no command emits or expects 0xCF; a model has no such path"). Raised by the
  meaning of CMD.SPECIAL_EXTENDED. Safe. -/
  | specialExtendedPath
  /-- The bytes of a scheduled item are no instruction at its port, or a row other than a frame from the device, which is no
  item (R45, R60, log entry 4). Raised by `step`. Safe. -/
  | undecodable (e : DecodeError)
  deriving DecidableEq, Repr

/-- A step's or a meaning's answer. -/
abbrev Answer := Host.Outcome State Fault Refusal

/-- The configuration fields all 0. -/
def zeroCfg : CfgBody := ⟨0#8, 0#8, 0#3, 0#2, 0#3, 0#2, 0#1, 0#2, 0#8, 0#3, 0#1, 0#1, 0#1, 0#8, 0#8⟩

/-- A header all 0. -/
def zeroHeader : Header := ⟨0#8, 0#8, 0#8⟩

/-- The state right after reset (R52, R228) of a UPC with parameters `p`. `MODE`, `STATUS`, `BUSY`, `SEQ`, `RSSI_VALID`,
`RLEN`, `DLEN` and `RXFIFO` are the spec's. Every register R52 leaves unspecified is 0 here (DESIGN CHOICE, unsafe, log
entry 7); the two buffers' bytes are free values (log entry 6); `LINKBAUD` and the level of `AUX` are those of the
conventions of spec/95_test_vectors.md (DESIGN CHOICE, log entry 2). The device's script and the other agents' moves
are empty: nothing is scheduled. -/
def State.resetWith (p : Params) : State where
  cmd := 0#8
  status := .none
  busy := 0#1
  mode := .uninitialized
  result := 0#16
  arg0 := 0#8
  arg1 := 0#8
  arg2 := 0#8
  arg3 := 0#8
  argt := 0
  argp := 0
  dlen := 0#16
  rlen := 0#8
  rssi := 0#8
  rssiValid := 0#1
  cfgHdr := zeroHeader
  cfg := zeroCfg
  info := ⟨zeroHeader, 0#8, 0#8, 0#8⟩
  tbuf := Memory.unspecified 0
  rbuf := Memory.unspecified 1
  seq := .idle
  link := ⟨[], 0#1, 0#1, 0, true, [], [], 0⟩
  linkBaud := 9600
  params := p
  sched := []
  reads := []
  draws := 2

/-- The machine right after reset. -/
def State.reset : State := State.resetWith Config.board

end Sys2Proof.Machine
end

