-- ==== Sys2Proof/Machine/Ops.lean ====
section
/-! DEFINITION. The named operations over the buffers, the streams, the pins and time (spec/20_memory.md,
spec/42_transport.md section 1), and command completion, which is this hardware's exception entry (spec/60_exceptions.md
R199). Operations on the link take and give a `Link`, so that what they cannot touch is visible in their type. -/

namespace Sys2Proof.Machine

/-! ## Buffers (R13, R34, R35, R59) -/

/-- The byte listed at an address, if any. -/
def cellAt (cells : List Host.Cell) (a : Nat) : Option Byte :=
  match cells with
  | [] => none
  | (k, b) :: rest => if k = a then some b else cellAt rest a

/-- `B[a]`: the byte at an address. What an unlisted address reads as stands here and nowhere else. -/
def Memory.read (m : Memory) (a : Nat) : Byte :=
  match cellAt m.cells a with
  | some b => b
  | none => Config.freeByte m.epoch a

/-- The cells with `b` at address `a`, in rising order. -/
def putCell (a : Nat) (b : Byte) (cells : List Host.Cell) : List Host.Cell :=
  match cells with
  | [] => [(a, b)]
  | (k, c) :: rest =>
    if a < k then (a, b) :: (k, c) :: rest
    else if a = k then (a, b) :: rest
    else (k, c) :: putCell a b rest

/-- `B[a] <- b`. No rule writes outside the buffer (R13); an address outside it is left alone, so that the canonical form
holds whatever the arguments. -/
def Memory.write (m : Memory) (a : Nat) (b : Byte) : Memory :=
  if a < Config.bufSize then { m with cells := putCell a b m.cells } else m

/-- `MemRead(B+off, n)` (R13). -/
def Memory.readBytes (m : Memory) (off : Nat) : Nat → List Byte
  | 0 => []
  | n + 1 => m.read off :: m.readBytes (off + 1) n

/-- `MemWrite(B+off, |bs|, bs)` (R13). -/
def Memory.writeBytes (m : Memory) (off : Nat) : List Byte → Memory
  | [] => m
  | b :: bs => (m.write off b).writeBytes (off + 1) bs

/-! ## The environment (R9, R16, R71) -/

/-- There is room in a receive FIFO of `n` bytes (R71). -/
def Params.hasRoom (p : Params) (n : Nat) : Bool :=
  match p.rxDepth with
  | none => true
  | some d => decide (n < d)

/-- A byte arrives: appended at the tail, lost without a flag when the FIFO is full (R71). -/
def Link.arrive (p : Params) (l : Link) (b : Byte) : Link :=
  if Params.hasRoom p l.rxfifo.length then { l with rxfifo := l.rxfifo ++ [b] } else l

/-- One act of the device. -/
def Link.act (p : Params) (l : Link) (a : DevAct) : Link :=
  match a with
  | .arrive b => l.arrive p b
  | .aux v => { l with aux := v }

/-- Several acts of the device, in order. -/
def Link.acts (p : Params) (l : Link) (as : List DevAct) : Link := as.foldl (Link.act p) l

/-- A point where the environment may act (R16): the device does the next entry of its script. Every primitive below
begins with one, and a sleep has one a tick; log entry 3 says why these points suffice. -/
def Link.point (p : Params) (l : Link) : Link :=
  match l.dev with
  | [] => l
  | as :: rest => Link.acts p { l with dev := rest } as

/-! ## Stream, pin and time primitives (R15) -/

/-- An entry of the history. -/
def Link.log (l : Link) (o : Obs) : Link := { l with hist := l.hist ++ [o] }

/-- One byte of a `TxWrite`. -/
def Link.txByte (p : Params) (l : Link) (b : Byte) : Link := (l.point p).log (.tx b)

/-- `TxWrite(bs)` (R66): the bytes in order, the environment acting between them; it cannot fail. -/
def Link.txWrite (p : Params) (bs : List Byte) (l : Link) : Link := bs.foldl (Link.txByte p) l

/-- `RxAvail()` (R68). -/
def Link.rxAvail (p : Params) (l : Link) : Nat × Link :=
  let l1 := l.point p
  (l1.rxfifo.length, l1)

/-- `RxPop()` (R69): the head of the FIFO, consumed; `none` when there is none, which every rule rules out first. -/
def Link.rxPop (p : Params) (l : Link) : Option Byte × Link :=
  let l1 := l.point p
  match l1.rxfifo with
  | [] => (none, l1)
  | b :: rest => (some b, { l1 with rxfifo := rest }.log (.rx b))

/-- `RxAvail()` and, when it is above 0, `RxPop()`: the two lines every receive loop has. -/
def Link.rxTake (p : Params) (l : Link) : Option Byte × Link :=
  if (l.rxAvail p).1 = 0 then (none, (l.rxAvail p).2) else (l.rxAvail p).2.rxPop p

/-- `RxClear()` (R70). -/
def Link.rxClear (p : Params) (l : Link) : Link := { l.point p with rxfifo := [] }.log .rxClear

/-- `AuxSample()` (R72): 1 (true) is ready. -/
def Link.auxSample (p : Params) (l : Link) : Bool × Link :=
  let l1 := l.point p
  (l1.aux, l1.log (.auxSample l1.aux))

/-- `Sleep(n)` (R73): the environment may act in every tick. -/
def Link.sleep (p : Params) : Nat → Link → Link
  | 0, l => l
  | n + 1, l => Link.sleep p n { l.point p with ticks := l.ticks + 1 }

/-- `Sleep(d)` and `ELAPSED <- ELAPSED + d`. -/
def Link.wait (p : Params) (d : Nat) (l : Link) : Link :=
  let l1 := l.sleep p d
  { l1 with elapsed := l1.elapsed + d }

/-- `ELAPSED <- 0` (R46: on entry to each wait). -/
def Link.startTimer (l : Link) : Link := { l with elapsed := 0 }

/-- `SetPins(t)` (R135): M0, then M1, the environment acting before each (R74). -/
def Link.setPins (p : Params) (v0 v1 : Bit) (l : Link) : Link :=
  let l1 := { l.point p with m0 := v0 }.log (.pinM0 v0)
  { l1.point p with m1 := v1 }.log (.pinM1 v1)

/-! ## Micro-sequences (spec/42_transport.md R145 to R151) -/

/-- `ShortRead(got, n)` (R145). -/
def shortRead (got : List Byte) (n : Nat) : Status :=
  if got.length = n then .success
  else if got.length = 0 then .noResponseFromDevice
  else .dataSizeMismatch

/-- The loop of `WaitComplete` (R146). `fuel` only bounds the recursion: with `P >= 1` the timer reaches `T` within `T`
rounds, so `fuel = T` is never exhausted first. -/
def waitLoop (p : Params) (T P : Nat) : Nat → Link → Status × Link
  | 0, l =>
    let (ready, l1) := l.auxSample p
    if ready then (.success, l1) else (.timeout, l1)
  | fuel + 1, l =>
    let (ready, l1) := l.auxSample p
    if ready then (.success, l1)
    else if T ≤ l1.elapsed then (.timeout, l1)
    else waitLoop p T P fuel (l1.wait p (min P (T - l1.elapsed)))

/-- `WaitComplete(T, P)` (R146). -/
def waitComplete (p : Params) (T P : Nat) (l : Link) : Status × Link :=
  if p.auxWired then waitLoop p T P T l.startTimer else (.success, l.sleep p T)

/-- The loop of `ReadExactly` (R147). `fuel` only bounds the recursion: a round takes a byte (at most `n`), or sleeps a
tick (at most `T`), or ends. -/
def readLoop (p : Params) (n T : Nat) : Nat → List Byte → Link → List Byte × Link
  | 0, got, l => (got, l)
  | fuel + 1, got, l =>
    if n ≤ got.length then (got, l)
    else
      match l.rxTake p with
      | (some b, l1) => readLoop p n T fuel (got ++ [b]) l1
      | (none, l1) => if T ≤ l1.elapsed then (got, l1) else readLoop p n T fuel got (l1.wait p 1)

/-- `ReadExactly(n, T)` (R147). -/
def readExactly (p : Params) (n T : Nat) (l : Link) : List Byte × Link :=
  readLoop p n T (n + T + 1) [] l.startTimer

/-- `SendStruct(bs)` (R148). -/
def sendStruct (p : Params) (bs : List Byte) (l : Link) : Status × Link :=
  waitComplete p p.tRespTimeout p.tPoll (l.txWrite p bs)

/-- `ReceiveStruct(n, h, m)` (R149): the length is checked before the head. -/
def receiveStruct (p : Params) (n : Nat) (h : Byte) (m : Status) (l : Link) : Status × List Byte × Link :=
  let (got, l1) := readExactly p n p.tReadTimeout l
  let s := shortRead got n
  if s ≠ .success then (s, got, l1)
  else if got.head? = some h then (.success, got, l1)
  else (m, got, l1)

/-- `Drain()` (R150). -/
def drainOp (p : Params) (l : Link) : Link := l.rxClear p

/-- `Exchange(req, n, m)` (R151): clear, transmit, wait, read; after a Timeout of the wait nothing is read. -/
def exchange (p : Params) (req : List Byte) (n : Nat) (m : Status) (l : Link) : Status × List Byte × Link :=
  let (s, l1) := sendStruct p req (drainOp p l)
  if s ≠ .success then (s, [], l1) else receiveStruct p n codeRead m l1

/-- The quiescence wait of RECVCOMPLETE (R172): until a byte is there or `T` ticks have passed. `fuel` only bounds the
recursion: a round that does not end sleeps one tick. -/
def quietLoop (p : Params) (T : Nat) : Nat → Link → Link
  | 0, l => l
  | fuel + 1, l =>
    if (l.rxAvail p).1 = 0 ∧ (l.rxAvail p).2.elapsed < T then quietLoop p T fuel ((l.rxAvail p).2.wait p 1)
    else (l.rxAvail p).2

/-- The byte loop of RECVCOMPLETE (R172): at most `limit` bytes, each preceded by a quiescence wait; it ends at the first
wait that no byte ends. -/
def completeLoop (p : Params) : Nat → List Byte → Link → List Byte × Link
  | 0, got, l => (got, l)
  | limit + 1, got, l =>
    match (quietLoop p p.tQuiesce (p.tQuiesce + 1) l.startTimer).rxTake p with
    | (none, l1) => (got, l1)
    | (some b, l1) => completeLoop p limit (got ++ [b]) l1

/-- The loop of RECVUNTIL (R174): `room` is how many bytes may still be stored before `N_UNTIL_MAX` is reached. -/
def untilLoop (p : Params) (d : Byte) : Nat → List Byte → Link → Status × List Byte × Link
  | 0, got, l => (.success, got, l)
  | room + 1, got, l =>
    match readExactly p 1 p.tReadTimeout l with
    | ([], l1) => (.timeout, got, l1)
    | (b :: _, l1) => if b = d then (.success, got, l1) else untilLoop p d room (got ++ [b]) l1

/-! ## Completion (R14, R199) -/

/-- `raise s`: `STATUS <- code(s); BUSY <- 0; SEQ <- IDLE`, and nothing else. This is taking an exception on this
hardware, for Success and every failure alike (R199); there is nothing to return from (R207). -/
def State.completed (st : Status) (s : State) : State := { s with status := st, busy := 0#1, seq := .idle }

/-- `raise s` as a meaning's answer. -/
def raise (st : Status) (s : State) : Answer := .next (s.completed st)

/-- The state with another link. -/
def State.withLink (s : State) (l : Link) : State := { s with link := l }

/-- Delivery of received bytes: `MemWrite(RBUF+0, |bs|, bs); RLEN <- |bs|` (R35). -/
def State.deliver (bs : List Byte) (s : State) : State :=
  { s with rbuf := s.rbuf.writeBytes 0 bs, rlen := BitVec.ofNat 8 bs.length }

/-- A receive that failed past its operand checks: `RLEN <- 0` and the contents of `RBUF` are unspecified, which is a
fresh draw of all its bytes (R201, U3). -/
def State.failReceive (s : State) : State :=
  { s with rbuf := Memory.unspecified s.draws, rlen := 0#8, draws := s.draws + 1 }

/-- A command starts: `BUSY <- 1; SEQ <- RUN` with its opcode held (R27). -/
def State.start (op : Byte) (s : State) : State := { s with cmd := op, busy := 1#1, seq := .run }

end Sys2Proof.Machine
end

