-- ==== Sys2Proof/Machine/Operands.lean ====
section
/-! DEFINITION. Every operand form of spec/30_encoding.md section 2 (R87 to R91), the codec's reads and stores of the
field registers (spec/40_codec.md R123, R124, R127), the frames the commands transmit (R92 to R110), and the informative
frequency function (spec/00_scope.md R24). -/

namespace Sys2Proof.Machine

/-! ## Operand registers -/

/-- The header flag `ARG0[0]` of ENCCFG and DECCFG; bits 7:1 are ignored (R91, U20). -/
def State.headerFlag (s : State) : Bool := s.arg0.getLsbD 0

/-- The `enableRssi` flag `ARG1[0]` of RECVCOMPLETE (R91). -/
def State.rssiFlag (s : State) : Bool := s.arg1.getLsbD 0

/-- The mode a mode code requests: 0 to 3 only (R88, R136). -/
def requestableMode (t : Byte) : Option Mode :=
  if t = 0#8 then some .normal
  else if t = 1#8 then some .worTransmitter
  else if t = 2#8 then some .worReceiver
  else if t = 3#8 then some .configuration
  else none

/-- The window a window code names: 1 to 5 only (R89). -/
def windowOf (w : Byte) : Option Window :=
  if w = 1#8 then some .speed
  else if w = 2#8 then some .option
  else if w = 3#8 then some .channel
  else if w = 4#8 then some .crypt
  else if w = 5#8 then some .transmode
  else none

/-- `M0 = code[0]` (R106, R135). -/
def pinM0Of (t : Byte) : Bit := t.extractLsb' 0 1
/-- `M1 = code[1]` (R106, R135). -/
def pinM1Of (t : Byte) : Bit := t.extractLsb' 1 1

/-- `TBUF[0..DLEN)` (R34, R61). -/
def State.txPayload (s : State) : List Byte := s.tbuf.readBytes 0 s.dlen.toNat

/-! ## The codec's view of the registers -/

/-- `EncodeBody()` (R123). -/
def encodeBody (c : CfgBody) : List Byte := (packBody c).toList

/-- `UnpackSped(b)` (R120). -/
def unpackSped (x : Byte) (c : CfgBody) : CfgBody :=
  { c with baud := spedBaud x, parity := spedParity x, airrate := spedAirrate x }

/-- `UnpackOption(b)` (R121): bits 4:2 are ignored. -/
def unpackOption (x : Byte) (c : CfgBody) : CfgBody :=
  { c with subpkt := optionSubpkt x, rssiNoise := optionNoise x, power := optionPower x }

/-- `UnpackTransmode(b)` (R122): bits 5 and 3 are ignored. -/
def unpackTransmode (x : Byte) (c : CfgBody) : CfgBody :=
  { c with rssiEn := transmodeRssiEn x, fixed := transmodeFixed x, lbt := transmodeLbt x, wor := transmodeWor x }

/-- `DecodeBody(bs)` of an 8-byte sequence (R124); another length, which no rule gives it, changes nothing. -/
def decodeBody (bs : List Byte) (c : CfgBody) : CfgBody :=
  match bodyOfList bs with
  | some b => unpackBody b
  | none => c

/-- `WindowPayload(w)` (R127). -/
def windowPayload (w : Window) (c : CfgBody) : List Byte :=
  match w with
  | .speed => [packSped c.baud c.parity c.airrate]
  | .option => [packOption c.subpkt c.rssiNoise c.power]
  | .channel => [c.chan]
  | .crypt => [c.crypth, c.cryptl]
  | .transmode => [packTransmode c.rssiEn c.fixed c.lbt c.wor]

/-- `WindowStore(w, bs)` of a sequence of exactly the window's length (R127); another length changes nothing. -/
def windowStore (w : Window) (bs : List Byte) (c : CfgBody) : CfgBody :=
  match w, bs with
  | .speed, [x] => unpackSped x c
  | .option, [x] => unpackOption x c
  | .channel, [x] => { c with chan := x }
  | .crypt, [x, y] => { c with crypth := x, cryptl := y }
  | .transmode, [x] => unpackTransmode x c
  | _, _ => c

/-- The header of the first three bytes of a sequence (R92); the old one where there are fewer. -/
def headerOf (bs : List Byte) (old : Header) : Header :=
  match bs with
  | c :: a :: n :: _ => ⟨c, a, n⟩
  | _ => old

/-- The header registers as bytes (R125). -/
def Header.toList (h : Header) : List Byte := [h.command, h.startAddr, h.length]

/-- The ModuleInformation of a 6-byte sequence (R130, R183); another length changes nothing. -/
def infoOf (bs : List Byte) (old : ModuleInfo) : ModuleInfo :=
  match bs with
  | [c, a, n, m, v, f] => ⟨⟨c, a, n⟩, m, v, f⟩
  | _ => old

/-! ## Frames -/

/-- The fixed message frame (R108). -/
def fixedFrame (h l c : Byte) (payload : List Byte) : List Byte := [h, l, c] ++ payload

/-- The full-block write request of SETCFG (R93, R182). -/
def fullWriteFrame (c : Byte) (body : CfgBody) : List Byte := fullHeader c ++ encodeBody body

/-- The number of bytes of a window response: header and payload (R105). -/
def windowFrameLen (w : Window) : Nat := 3 + w.len

/-! ## Informative -/

/-- `Freq(CHAN) = BAND_BASE + CHAN` as natural numbers (R24); no command evaluates it. -/
def freq (p : Params) (chan : Byte) : Nat := p.bandBase + chan.toNat

end Sys2Proof.Machine
end

