-- ==== Sys2Proof/Machine/Flags.lean ====
section
/-! DEFINITION. The status flags (spec/10_state.md R49): the codes of `STATUS` and `MODE`, `RSSI_VALID` and `RSSI`, and
the operand checks that decide a status before anything is done (spec/60_exceptions.md R205). There are no arithmetic
condition codes. -/

namespace Sys2Proof.Machine

/-- The code of a status (R197). -/
def Status.code : Status → BitVec 4
  | .none => 0#4
  | .success => 1#4
  | .unknown => 2#4
  | .notSupported => 3#4
  | .notImplemented => 4#4
  | .notInitialized => 5#4
  | .invalidParameter => 6#4
  | .dataSizeMismatch => 7#4
  | .bufferTooSmall => 8#4
  | .timeout => 9#4
  | .hardwareError => 10#4
  | .headNotRecognized => 11#4
  | .noResponseFromDevice => 12#4
  | .wrongUartConfig => 13#4
  | .wrongFormat => 14#4
  | .packetTooBig => 15#4

/-- The code of an operating mode (R30, R88). -/
def Mode.code : Mode → BitVec 3
  | .normal => 0#3
  | .worTransmitter => 1#3
  | .worReceiver => 2#3
  | .configuration => 3#3
  | .uninitialized => 4#3

/-- `RSSI_VALID <- 0` (R168, R169, R172, R174). -/
def State.clearRssi (s : State) : State := { s with rssiValid := 0#1 }

/-- `RSSI <- b; RSSI_VALID <- 1` (R169, R172). -/
def State.setRssi (b : Byte) (s : State) : State := { s with rssi := b, rssiValid := 1#1 }

/-- `DLEN` is above a send's limit (R162: an unsigned comparison of the 16-bit `DLEN`). -/
def State.tooBig (s : State) (limit : Nat) : Bool := decide (limit < s.dlen.toNat)

/-- A receive size is above the buffer (R167). -/
def sizeTooLarge (n : Byte) : Bool := decide (Config.bufSize < n.toNat)

/-- The status of a read of `n` bytes, a read of none being a success (R168). -/
def readStatus (got : List Byte) (n : Nat) : Status := if n = 0 then .success else shortRead got n

end Sys2Proof.Machine
end

