-- ==== Sys2Proof/Machine/Codec.lean ====
section
/-! DEFINITION. The Frame Codec commands (spec/40_codec.md section 2). None touches the link (R119). -/

namespace Sys2Proof.Machine

/-- `MemWrite(TBUF+0, |bs|, bs); DLEN <- |bs|`: how both encoders deliver. -/
def State.load (bs : List Byte) (s : State) : State :=
  { s with tbuf := s.tbuf.writeBytes 0 bs, dlen := BitVec.ofNat 16 bs.length }

/-- ENCCFG (R125). -/
def execEnccfg (s : State) : Answer :=
  if s.headerFlag then raise .success (s.load (s.cfgHdr.toList ++ encodeBody s.cfg))
  else raise .success (s.load (encodeBody s.cfg))

/-- DECCFG (R126). -/
def execDeccfg (s : State) : Answer :=
  if s.headerFlag then
    if s.rlen = 11#8 then
      raise .success { s with
        cfgHdr := headerOf (s.rbuf.readBytes 0 3) s.cfgHdr
        cfg := decodeBody (s.rbuf.readBytes 3 8) s.cfg }
    else raise .dataSizeMismatch s
  else
    if s.rlen = 8#8 then raise .success { s with cfg := decodeBody (s.rbuf.readBytes 0 8) s.cfg }
    else raise .dataSizeMismatch s

/-- ENCREG (R128). -/
def execEncreg (s : State) : Answer :=
  match windowOf s.arg0 with
  | none => raise .invalidParameter s
  | some w => raise .success (s.load (windowPayload w s.cfg))

/-- DECREG (R129): the window code is checked before the length. -/
def execDecreg (s : State) : Answer :=
  match windowOf s.arg0 with
  | none => raise .invalidParameter s
  | some w =>
    if s.rlen = w.lenByte then raise .success { s with cfg := windowStore w (s.rbuf.readBytes 0 w.len) s.cfg }
    else raise .dataSizeMismatch s

/-- DECINFO (R130). -/
def execDecinfo (s : State) : Answer :=
  if s.rlen = 6#8 then raise .success { s with info := infoOf (s.rbuf.readBytes 0 6) s.info }
  else raise .dataSizeMismatch s

end Sys2Proof.Machine
end

