-- ==== Sys2Proof/Machine/Transport.lean ====
section
/-! DEFINITION. The Transport Protocol commands (spec/42_transport.md section 2) and the two shared ends of the commands
that send and of those that receive. -/

namespace Sys2Proof.Machine

/-- `raise SendStruct(bs)` (R148, R152, R163 to R165). -/
def sendFrame (bs : List Byte) (s : State) : Answer :=
  let (st, l) := sendStruct s.params bs s.link
  raise st (s.withLink l)

/-- The end of a receive or an exchange (R35, R201): on Success the bytes are delivered, else `RLEN <- 0` and `RBUF` is
unspecified. -/
def State.received (st : Status) (bs : List Byte) (s : State) : State :=
  if st = .success then s.deliver bs else s.failReceive

/-- SENDSTRUCT (R152). -/
def execSendstruct (s : State) : Answer :=
  if s.tooBig Config.maxPacket then raise .packetTooBig s else sendFrame s.txPayload s

/-- RECVSTRUCT (R153): length 0, then a length above the buffer, then the read. -/
def execRecvstruct (s : State) : Answer :=
  if s.arg0 = 0#8 then raise .invalidParameter s
  else if sizeTooLarge s.arg0 then raise .bufferTooSmall s
  else
    let (st, got, l) := receiveStruct s.params s.arg0.toNat s.arg1 .headNotRecognized s.link
    raise st ((s.withLink l).received st got)

/-- WAITCOMPLETE (R154). -/
def execWaitcomplete (s : State) : Answer :=
  if s.argp = 0 then raise .invalidParameter s
  else
    let (st, l) := waitComplete s.params s.argt s.argp s.link
    raise st (s.withLink l)

/-- DRAIN (R155). -/
def execDrain (s : State) : Answer := raise .success (s.withLink (drainOp s.params s.link))

end Sys2Proof.Machine
end

