-- ==== Sys2Proof/Machine/ConfigMgr.lean ====
section
/-! DEFINITION. The Configuration Manager commands (spec/44_config.md). The order of checks is R188: operand legality,
the mode precondition (R180), the exchange; only then is a field or information register written. -/

namespace Sys2Proof.Machine

/-- The mode precondition and the exchange of a local configuration command, with what Success adds to the delivered
state (R180, R188). -/
def localExchange (req : List Byte) (n : Nat) (m : Status) (store : List Byte → State → State) (s : State) : Answer :=
  if s.mode ≠ .configuration then raise .notInitialized s
  else
    let (st, resp, l) := exchange s.params req n m s.link
    let s1 := (s.withLink l).received st resp
    raise st (if st = .success then store resp s1 else s1)

/-- GETCFG's stores (R181): the header registers and the body fields. -/
def storeFull (resp : List Byte) (s : State) : State :=
  { s with cfgHdr := headerOf resp s.cfgHdr, cfg := decodeBody (resp.drop 3) s.cfg }

/-- GETCFG (R181). -/
def execGetcfg (s : State) : Answer := localExchange (encode .cfgReadReq) 11 .headNotRecognized storeFull s

/-- SETCFG (R182): no `CFG_*` register changes. -/
def execSetcfg (s : State) : Answer :=
  match saveTypeOf s.arg0 with
  | none => raise .invalidParameter s
  | some v => localExchange (fullWriteFrame v.code s.cfg) 11 .wrongFormat (fun _ t => t) s

/-- GETINFO's stores (R183). -/
def storeInfo (resp : List Byte) (s : State) : State := { s with info := infoOf resp s.info }

/-- GETINFO (R183). -/
def execGetinfo (s : State) : Answer := localExchange (encode .infoReadReq) 6 .headNotRecognized storeInfo s

/-- RESETMOD (R184): NotImplemented, with no activity. -/
def execResetmod (s : State) : Answer := raise .notImplemented s

/-- SENDCFGMSG (R185): one `TxWrite`, no wait, nothing read. -/
def execSendcfgmsg (s : State) : Answer :=
  match progCmdOf s.arg3 with
  | none => raise .invalidParameter s
  | some pc =>
    raise .success (s.withLink (s.link.txWrite s.params
      (fixedFrame s.arg0 s.arg1 s.arg2 (fullWriteFrame pc.code s.cfg))))

/-- READREG's stores (R186): the window's fields. -/
def storeWindow (w : Window) (resp : List Byte) (s : State) : State :=
  { s with cfg := windowStore w (resp.drop 3) s.cfg }

/-- READREG (R186). -/
def execReadreg (s : State) : Answer :=
  match windowOf s.arg0 with
  | none => raise .invalidParameter s
  | some w => localExchange (windowFrame codeRead w []) (windowFrameLen w) .headNotRecognized (storeWindow w) s

/-- WRITEREG (R187): the window code is checked before the save type. -/
def execWritereg (s : State) : Answer :=
  match windowOf s.arg0 with
  | none => raise .invalidParameter s
  | some w =>
    match saveTypeOf s.arg1 with
    | none => raise .invalidParameter s
    | some v =>
      localExchange (windowFrame v.code w (windowPayload w s.cfg)) (windowFrameLen w) .wrongFormat (fun _ t => t) s

end Sys2Proof.Machine
end

