-- ==== Sys2Proof/Machine/Messaging.lean ====
section
/-! DEFINITION. The Messaging Layer commands (spec/43_messaging.md sections 2 and 3). None reads `MODE` (R176). -/

namespace Sys2Proof.Machine

/-- SENDMSG (R163). -/
def execSendmsg (s : State) : Answer :=
  if s.tooBig Config.maxPacket then raise .packetTooBig s else sendFrame s.txPayload s

/-- SENDFIXED (R164). -/
def execSendfixed (s : State) : Answer :=
  if s.tooBig Config.maxFixedPayload then raise .packetTooBig s
  else sendFrame (fixedFrame s.arg0 s.arg1 s.arg2 s.txPayload) s

/-- SENDBCAST (R165): both address bytes 255 whatever the registers hold. -/
def execSendbcast (s : State) : Answer :=
  if s.tooBig Config.maxFixedPayload then raise .packetTooBig s
  else sendFrame (fixedFrame Config.broadcastAddr Config.broadcastAddr s.arg2 s.txPayload) s

/-- RECVMSG (R168). -/
def execRecvmsg (s : State) : Answer :=
  if sizeTooLarge s.arg0 then raise .bufferTooSmall s
  else
    let n := s.arg0.toNat
    let (got, l) := readExactly s.params n s.params.tReadTimeout s.link
    let st := readStatus got n
    raise st ((s.clearRssi.withLink l).received st got)

/-- The delivery of `k` bytes of which the last is the RSSI byte (R169, R172). -/
def State.receivedRssi (st : Status) (got : List Byte) (s : State) : State :=
  if st = .success then (s.deliver got.dropLast).setRssi (got.getLastD 0#8) else s.failReceive

/-- RECVMSGRSSI (R169). -/
def execRecvmsgrssi (s : State) : Answer :=
  if sizeTooLarge s.arg0 then raise .bufferTooSmall s
  else
    let n := s.arg0.toNat
    let (got, l) := readExactly s.params (n + 1) s.params.tReadTimeout s.link
    let st := shortRead got (n + 1)
    raise st ((s.clearRssi.withLink l).receivedRssi st got)

/-- RECVCOMPLETE (R172). -/
def execRecvcomplete (s : State) : Answer :=
  if sizeTooLarge s.arg0 then raise .bufferTooSmall s
  else
    let limit := s.arg0.toNat + s.rssiFlag.toNat
    let (got, l) := completeLoop s.params limit [] s.link
    let s1 := s.clearRssi.withLink l
    if got.length = 0 ∧ 0 < limit then raise .noResponseFromDevice s1.failReceive
    else if s.rssiFlag ∧ 1 ≤ got.length then
      raise .success ((s1.deliver got.dropLast).setRssi (got.getLastD 0#8))
    else raise .success (s1.deliver got)

/-- RECVUNTIL (R174): on Timeout too the bytes so far are delivered with their true length (R201). -/
def execRecvuntil (s : State) : Answer :=
  let (st, got, l) := untilLoop s.params s.arg0 s.params.nUntilMax [] s.link
  raise st ((s.clearRssi.withLink l).deliver got)

/-- AVAILABLE (R175): the count, saturated at 65535 (R31). -/
def execAvailable (s : State) : Answer :=
  let (n, l) := s.link.rxAvail s.params
  raise .success { s.withLink l with result := BitVec.ofNat 16 (min n 65535) }

end Sys2Proof.Machine
end

