-- ==== Sys2Proof/Machine/ModeCtl.lean ====
section
/-! DEFINITION. The Mode Controller commands (spec/41_mode.md). -/

namespace Sys2Proof.Machine

/-- Step 3 of SETMODE (R136, conflict C8): the bounded wait when `AUX` is wired, the fixed settle delay when not. -/
def settle (p : Params) (l : Link) : Status × Link :=
  if p.auxWired then waitComplete p p.tSettleTimeout p.tPoll l else (.success, l.sleep p p.tSettleDelay)

/-- `MODE <- t` on success only (R136 step 4, R137). -/
def State.recordMode (st : Status) (m : Mode) (s : State) : State :=
  if st = .success then { s with mode := m } else s

/-- The request of mode code `t` (R136): the mode code is checked before the link speed, both before any pin is driven.
The pins and `MODE` are written here and nowhere else (R140). -/
def setModeTo (t : Byte) (s : State) : Answer :=
  match requestableMode t with
  | none => raise .invalidParameter s
  | some m =>
    if m = .configuration ∧ s.linkBaud ≠ Config.cfgLinkBaud then raise .wrongUartConfig s
    else
      let (st, l) := settle s.params (s.link.setPins s.params (pinM0Of t) (pinM1Of t))
      raise st ((s.withLink l).recordMode st m)

/-- SETMODE (R136): the target is `ARG0`. -/
def execSetmode (s : State) : Answer := setModeTo s.arg0 s

/-- GETMODE (R138): the recorded mode, no pin read. -/
def execGetmode (s : State) : Answer := raise .success { s with result := s.mode.code.setWidth 16 }

end Sys2Proof.Machine
end

