-- ==== Sys2Proof/Machine/Reserved.lean ====
section
/-! DEFINITION. The reserved opcodes (spec/30_encoding.md R112). -/

namespace Sys2Proof.Machine

/-- A reserved opcode starts a command that does nothing except complete with NotSupported (R112, U10). -/
def execReserved (_op : Byte) (s : State) : Answer := raise .notSupported s

end Sys2Proof.Machine
end

