-- ==== Sys2Proof/Machine/Wire.lean ====
section
/-! DEFINITION. The rows of spec/opcode_table.json that are no host command: the frames, their parts, the pin pairs and
the wire command codes (log entry 4). A frame from the device arrives in the receive FIFO, a step of the device (R71).
Everything else is met inside a command only, since the pseudocode of the running command is the only control flow (R45):
`TxWrite` is handed a frame (R66, R67), the codec stores a part of one (R60, R120 to R124, R126), SETMODE drives a pin
pair (R135, R140). Such a row is the command that does just this with it, whole, its completion included: a frame is the
SENDSTRUCT or the send of it, a part the DECCFG or DECREG that decodes it, a pin pair the SETMODE of its mode. -/

namespace Sys2Proof.Machine

/-! ## The shared operations -/

/-- The send of a message of at most `limit` payload bytes, as `frame` (R162 to R165, R67). -/
def sendMessage (limit : Nat) (payload frame : List Byte) (s : State) : Answer :=
  if limit < payload.length then raise .packetTooBig s else sendFrame frame s

/-- The arrival of bytes from the device, in order, each lost if the FIFO is full (R71). -/
def arriveAll (bs : List Byte) (s : State) : Answer :=
  .next (s.withLink (bs.foldl (Link.arrive s.params) s.link))

/-- The decode of body fields, to its completion (R120 to R122, R124, R126, R129). -/
def storeFields (f : CfgBody → CfgBody) (s : State) : Answer := raise .success { s with cfg := f s.cfg }

/-- The decode of a header whose byte 0 is `c` and whose other bytes the registers hold already (R37, R126). -/
def storeCommand (c : Byte) (s : State) : Answer :=
  raise .success { s with cfgHdr := { s.cfgHdr with command := c } }

/-! ## Parts of configuration frames -/

/-- WF_HEADER (R92), as DECCFG with header stores it (R37, R126). -/
def execWfHeader (c a n : Byte) (s : State) : Answer := raise .success { s with cfgHdr := ⟨c, a, n⟩ }

/-- SPED (R100, R120), the payload of DECREG of the speed window (R129). -/
def execSped (b : BitVec 3) (p : BitVec 2) (a : BitVec 3) (s : State) : Answer :=
  storeFields (unpackSped (packSped b p a)) s

/-- OPTION (R101, R121), the payload of DECREG of the option window (R129). -/
def execOption (sub : BitVec 2) (n : Bit) (w : BitVec 2) (s : State) : Answer :=
  storeFields (unpackOption (packOption sub n w)) s

/-- TRANSMODE (R102, R122), the payload of DECREG of the transmission-mode window (R129). -/
def execTransmode (r f t : Bit) (k : BitVec 3) (s : State) : Answer :=
  storeFields (unpackTransmode (packTransmode r f t k)) s

/-- CFG_BODY (R94, R124), the input of DECCFG without header (R126). -/
def execCfgBody (c : CfgBody) (s : State) : Answer := storeFields (fun _ => unpackBody (packBody c)) s

/-! ## Whole configuration frames: one to the device is the SENDSTRUCT of it (R148, R152), which the exchange it is the
request of makes after its clear (R151) -/

/-- CFG_READ_REQ (R96), the request of GETCFG (R181). -/
def execCfgReadReq (s : State) : Answer := sendFrame (encode .cfgReadReq) s

/-- CFG_WRITE_REQ (R93), the request of SETCFG (R182). -/
def execCfgWriteReq (v : SaveType) (c : CfgBody) (s : State) : Answer := sendFrame (encode (.cfgWriteReq v c)) s

/-- CFG_RESP (R105), a response to a full-block request. -/
def execCfgResp (a n : Byte) (bs : BodyBytes) (s : State) : Answer := arriveAll (encode (.cfgResp a n bs)) s

/-- INFO_READ_REQ (R104), the request of GETINFO (R183). -/
def execInfoReadReq (s : State) : Answer := sendFrame (encode .infoReadReq) s

/-- INFO_RESP (R104), the response to the identity request. -/
def execInfoResp (a n m v f : Byte) (s : State) : Answer := arriveAll (encode (.infoResp a n m v f)) s

/-- REG_READ_REQ.SPEED (R99), a request of READREG (R186). -/
def execRegReadReqSpeed (s : State) : Answer := sendFrame (encode .regReadReqSpeed) s

/-- REG_WRITE_REQ.SPEED (R99), a request of WRITEREG (R187). -/
def execRegWriteReqSpeed (v : SaveType) (b : BitVec 3) (p : BitVec 2) (a : BitVec 3) (s : State) : Answer :=
  sendFrame (encode (.regWriteReqSpeed v b p a)) s

/-- REG_RESP.SPEED (R105), a response to a window request. -/
def execRegRespSpeed (a n x : Byte) (s : State) : Answer := arriveAll (encode (.regRespSpeed a n x)) s

/-- REG_READ_REQ.OPTION (R99), a request of READREG (R186). -/
def execRegReadReqOption (s : State) : Answer := sendFrame (encode .regReadReqOption) s

/-- REG_WRITE_REQ.OPTION (R99), a request of WRITEREG (R187). -/
def execRegWriteReqOption (v : SaveType) (sub : BitVec 2) (n : Bit) (w : BitVec 2) (s : State) : Answer :=
  sendFrame (encode (.regWriteReqOption v sub n w)) s

/-- REG_RESP.OPTION (R105), a response to a window request. -/
def execRegRespOption (a n x : Byte) (s : State) : Answer := arriveAll (encode (.regRespOption a n x)) s

/-- REG_READ_REQ.CHANNEL (R99), a request of READREG (R186). -/
def execRegReadReqChannel (s : State) : Answer := sendFrame (encode .regReadReqChannel) s

/-- REG_WRITE_REQ.CHANNEL (R99), a request of WRITEREG (R187). -/
def execRegWriteReqChannel (v : SaveType) (c : Byte) (s : State) : Answer := sendFrame (encode (.regWriteReqChannel v c)) s

/-- REG_RESP.CHANNEL (R105), a response to a window request. -/
def execRegRespChannel (a n x : Byte) (s : State) : Answer := arriveAll (encode (.regRespChannel a n x)) s

/-- REG_READ_REQ.CRYPT (R99), a request of READREG (R186). -/
def execRegReadReqCrypt (s : State) : Answer := sendFrame (encode .regReadReqCrypt) s

/-- REG_WRITE_REQ.CRYPT (R99), a request of WRITEREG (R187). -/
def execRegWriteReqCrypt (v : SaveType) (x y : Byte) (s : State) : Answer := sendFrame (encode (.regWriteReqCrypt v x y)) s

/-- REG_RESP.CRYPT (R105), a response to a window request. -/
def execRegRespCrypt (a n x y : Byte) (s : State) : Answer := arriveAll (encode (.regRespCrypt a n x y)) s

/-- REG_READ_REQ.TRANSMODE (R99), a request of READREG (R186). -/
def execRegReadReqTransmode (s : State) : Answer := sendFrame (encode .regReadReqTransmode) s

/-- REG_WRITE_REQ.TRANSMODE (R99), a request of WRITEREG (R187). -/
def execRegWriteReqTransmode (v : SaveType) (r f t : Bit) (k : BitVec 3) (s : State) : Answer :=
  sendFrame (encode (.regWriteReqTransmode v r f t k)) s

/-- REG_RESP.TRANSMODE (R105), a response to a window request. -/
def execRegRespTransmode (a n x : Byte) (s : State) : Answer := arriveAll (encode (.regRespTransmode a n x)) s

/-! ## Message frames -/

/-- MSG_TRANSPARENT (R107): the SENDMSG of its payload (R163). -/
def execMsgTransparent (payload : List Byte) (s : State) : Answer :=
  sendMessage Config.maxPacket payload (encode (.msgTransparent payload)) s

/-- MSG_FIXED (R108): the SENDFIXED of its payload to its address (R164). -/
def execMsgFixed (h l c : Byte) (payload : List Byte) (s : State) : Answer :=
  sendMessage Config.maxFixedPayload payload (encode (.msgFixed h l c payload)) s

/-- MSG_BCAST (R109): the SENDBCAST of its payload (R165). -/
def execMsgBcast (c : Byte) (payload : List Byte) (s : State) : Answer :=
  sendMessage Config.maxFixedPayload payload (encode (.msgBcast c payload)) s

/-- MSG_REMOTE_CFG (R110): the SENDCFGMSG of its body, which does not wait (R185). -/
def execMsgRemoteCfg (h l c : Byte) (q : ProgCmd) (body : CfgBody) (s : State) : Answer :=
  raise .success (s.withLink (s.link.txWrite s.params (encode (.msgRemoteCfg h l c q body))))

/-- MSG_RECEIVED (R111): the payload bytes, then the trailing byte if there is one. -/
def execMsgReceived (payload : List Byte) (trailer : Option Byte) (s : State) : Answer :=
  arriveAll (encode (.msgReceived payload trailer)) s

/-! ## Mode-select pin pairs (R106): each is driven by SETMODE of its mode (R135, R136) and by nothing else (R140) -/

/-- MODE.NORMAL: M0 = 0, M1 = 0. -/
def execModeNormal (s : State) : Answer := setModeTo 0#8 s

/-- MODE.WOR_TX: M0 = 1, M1 = 0. -/
def execModeWorTx (s : State) : Answer := setModeTo 1#8 s

/-- MODE.WOR_RX: M0 = 0, M1 = 1. -/
def execModeWorRx (s : State) : Answer := setModeTo 2#8 s

/-- MODE.CONFIGURATION: M0 = 1, M1 = 1. -/
def execModeConfiguration (s : State) : Answer := setModeTo 3#8 s

/-! ## Wire command codes (R95): byte 0 of a frame, which DECCFG with header keeps in `CFG_COMMAND` (R37, R126) -/

/-- CMD.WRITE_PERSISTENT. -/
def execCmdWritePersistent (s : State) : Answer := storeCommand codeWritePersistent s

/-- CMD.READ. -/
def execCmdRead (s : State) : Answer := storeCommand codeRead s

/-- CMD.WRITE_VOLATILE. -/
def execCmdWriteVolatile (s : State) : Answer := storeCommand codeWriteVolatile s

/-- CMD.WRONG_FORMAT: the sentinel is a byte 0 like any other to the codec (R126: no byte value is validated); only a
head check tells it from 0xC1 (R113). -/
def execCmdWrongFormat (s : State) : Answer := storeCommand codeWrongFormat s

/-- CMD.SPECIAL_EXTENDED: refused. R113: the code belongs to a path with no visible algorithm that "a model must not
invent"; U9 gives the treatment: refuse. -/
def execCmdSpecialExtended (_s : State) : Answer := .refused .specialExtendedPath

end Sys2Proof.Machine
end

