-- ==== Sys2Proof/Machine/Dispatch.lean ====
section
/-! DEFINITION. One arm for each constructor of Instr, each one direct call of its meaning. -/

namespace Sys2Proof.Machine

def exec (i : Instr) (s : State) : Host.Outcome State Fault Refusal :=
  match i with
  | .enccfg => Sys2Proof.Machine.execEnccfg s
  | .deccfg => Sys2Proof.Machine.execDeccfg s
  | .encreg => Sys2Proof.Machine.execEncreg s
  | .decreg => Sys2Proof.Machine.execDecreg s
  | .decinfo => Sys2Proof.Machine.execDecinfo s
  | .setmode => Sys2Proof.Machine.execSetmode s
  | .getmode => Sys2Proof.Machine.execGetmode s
  | .sendstruct => Sys2Proof.Machine.execSendstruct s
  | .recvstruct => Sys2Proof.Machine.execRecvstruct s
  | .waitcomplete => Sys2Proof.Machine.execWaitcomplete s
  | .drain => Sys2Proof.Machine.execDrain s
  | .sendmsg => Sys2Proof.Machine.execSendmsg s
  | .sendfixed => Sys2Proof.Machine.execSendfixed s
  | .sendbcast => Sys2Proof.Machine.execSendbcast s
  | .recvmsg => Sys2Proof.Machine.execRecvmsg s
  | .recvmsgrssi => Sys2Proof.Machine.execRecvmsgrssi s
  | .recvcomplete => Sys2Proof.Machine.execRecvcomplete s
  | .recvuntil => Sys2Proof.Machine.execRecvuntil s
  | .available => Sys2Proof.Machine.execAvailable s
  | .getcfg => Sys2Proof.Machine.execGetcfg s
  | .setcfg => Sys2Proof.Machine.execSetcfg s
  | .getinfo => Sys2Proof.Machine.execGetinfo s
  | .resetmod => Sys2Proof.Machine.execResetmod s
  | .sendcfgmsg => Sys2Proof.Machine.execSendcfgmsg s
  | .readreg => Sys2Proof.Machine.execReadreg s
  | .writereg => Sys2Proof.Machine.execWritereg s
  | .reserved op => Sys2Proof.Machine.execReserved op s
  | .wfHeader c a n => Sys2Proof.Machine.execWfHeader c a n s
  | .sped b p a => Sys2Proof.Machine.execSped b p a s
  | .option sub n w => Sys2Proof.Machine.execOption sub n w s
  | .transmode r f t k => Sys2Proof.Machine.execTransmode r f t k s
  | .cfgBody c => Sys2Proof.Machine.execCfgBody c s
  | .cfgReadReq => Sys2Proof.Machine.execCfgReadReq s
  | .cfgWriteReq v c => Sys2Proof.Machine.execCfgWriteReq v c s
  | .cfgResp a n bs => Sys2Proof.Machine.execCfgResp a n bs s
  | .infoReadReq => Sys2Proof.Machine.execInfoReadReq s
  | .infoResp a n m v f => Sys2Proof.Machine.execInfoResp a n m v f s
  | .regReadReqSpeed => Sys2Proof.Machine.execRegReadReqSpeed s
  | .regWriteReqSpeed v b p a => Sys2Proof.Machine.execRegWriteReqSpeed v b p a s
  | .regRespSpeed a n x => Sys2Proof.Machine.execRegRespSpeed a n x s
  | .regReadReqOption => Sys2Proof.Machine.execRegReadReqOption s
  | .regWriteReqOption v sub n w => Sys2Proof.Machine.execRegWriteReqOption v sub n w s
  | .regRespOption a n x => Sys2Proof.Machine.execRegRespOption a n x s
  | .regReadReqChannel => Sys2Proof.Machine.execRegReadReqChannel s
  | .regWriteReqChannel v c => Sys2Proof.Machine.execRegWriteReqChannel v c s
  | .regRespChannel a n x => Sys2Proof.Machine.execRegRespChannel a n x s
  | .regReadReqCrypt => Sys2Proof.Machine.execRegReadReqCrypt s
  | .regWriteReqCrypt v x y => Sys2Proof.Machine.execRegWriteReqCrypt v x y s
  | .regRespCrypt a n x y => Sys2Proof.Machine.execRegRespCrypt a n x y s
  | .regReadReqTransmode => Sys2Proof.Machine.execRegReadReqTransmode s
  | .regWriteReqTransmode v r f t k => Sys2Proof.Machine.execRegWriteReqTransmode v r f t k s
  | .regRespTransmode a n x => Sys2Proof.Machine.execRegRespTransmode a n x s
  | .msgTransparent payload => Sys2Proof.Machine.execMsgTransparent payload s
  | .msgFixed h l c payload => Sys2Proof.Machine.execMsgFixed h l c payload s
  | .msgBcast c payload => Sys2Proof.Machine.execMsgBcast c payload s
  | .msgRemoteCfg h l c q body => Sys2Proof.Machine.execMsgRemoteCfg h l c q body s
  | .msgReceived payload trailer => Sys2Proof.Machine.execMsgReceived payload trailer s
  | .modeNormal => Sys2Proof.Machine.execModeNormal s
  | .modeWorTx => Sys2Proof.Machine.execModeWorTx s
  | .modeWorRx => Sys2Proof.Machine.execModeWorRx s
  | .modeConfiguration => Sys2Proof.Machine.execModeConfiguration s
  | .cmdWritePersistent => Sys2Proof.Machine.execCmdWritePersistent s
  | .cmdRead => Sys2Proof.Machine.execCmdRead s
  | .cmdWriteVolatile => Sys2Proof.Machine.execCmdWriteVolatile s
  | .cmdWrongFormat => Sys2Proof.Machine.execCmdWrongFormat s
  | .cmdSpecialExtended => Sys2Proof.Machine.execCmdSpecialExtended s

end Sys2Proof.Machine
end

