-- ==== Sys2Proof/Machine/HostPort.lean ====
section
/-! DEFINITION. The host register map (spec/10_state.md R26) and the host's accesses while no command runs (R27, R50). -/

namespace Sys2Proof.Machine

/-- A one-bit number from its least significant bit. -/
def bitOf (v : Nat) : Bit := BitVec.ofNat 1 v
/-- A byte from its low 8 bits. -/
def byteOf (v : Nat) : Byte := BitVec.ofNat 8 v

/-- The value a host read of a register gives, zero-extended (R26); `CMD` reads 0 (R27), an unassigned number reads 0
(U12). -/
def State.readReg (s : State) (r : Nat) : Nat :=
  match r with
  | 1 => s.status.code.toNat
  | 2 => s.busy.toNat
  | 3 => s.mode.code.toNat
  | 4 => s.result.toNat
  | 5 => s.arg0.toNat
  | 6 => s.arg1.toNat
  | 7 => s.arg2.toNat
  | 8 => s.arg3.toNat
  | 9 => s.argt
  | 10 => s.argp
  | 11 => s.dlen.toNat
  | 12 => s.rlen.toNat
  | 13 => s.rssi.toNat
  | 14 => s.rssiValid.toNat
  | 16 => s.cfgHdr.command.toNat
  | 17 => s.cfgHdr.startAddr.toNat
  | 18 => s.cfgHdr.length.toNat
  | 19 => s.cfg.addh.toNat
  | 20 => s.cfg.addl.toNat
  | 21 => s.cfg.airrate.toNat
  | 22 => s.cfg.parity.toNat
  | 23 => s.cfg.baud.toNat
  | 24 => s.cfg.power.toNat
  | 25 => s.cfg.rssiNoise.toNat
  | 26 => s.cfg.subpkt.toNat
  | 27 => s.cfg.chan.toNat
  | 28 => s.cfg.wor.toNat
  | 29 => s.cfg.lbt.toNat
  | 30 => s.cfg.fixed.toNat
  | 31 => s.cfg.rssiEn.toNat
  | 32 => s.cfg.crypth.toNat
  | 33 => s.cfg.cryptl.toNat
  | 40 => s.info.hdr.command.toNat
  | 41 => s.info.hdr.startAddr.toNat
  | 42 => s.info.hdr.length.toNat
  | 43 => s.info.model.toNat
  | 44 => s.info.version.toNat
  | 45 => s.info.features.toNat
  | _ => 0

/-- A host write of a register: the low `width` bits are stored (R26). A write of `CMD` starts a command (R27). A write of
a read-only register (DEDUCED, log entry 9) or of an unassigned number (U12) has no effect. -/
def State.writeReg (s : State) (r v : Nat) : State :=
  match r with
  | 0 => s.start (byteOf v)
  | 5 => { s with arg0 := byteOf v }
  | 6 => { s with arg1 := byteOf v }
  | 7 => { s with arg2 := byteOf v }
  | 8 => { s with arg3 := byteOf v }
  | 9 => { s with argt := v % 2 ^ s.params.tw }
  | 10 => { s with argp := v % 2 ^ s.params.tw }
  | 11 => { s with dlen := BitVec.ofNat 16 v }
  | 16 => { s with cfgHdr := { s.cfgHdr with command := byteOf v } }
  | 17 => { s with cfgHdr := { s.cfgHdr with startAddr := byteOf v } }
  | 18 => { s with cfgHdr := { s.cfgHdr with length := byteOf v } }
  | 19 => { s with cfg := { s.cfg with addh := byteOf v } }
  | 20 => { s with cfg := { s.cfg with addl := byteOf v } }
  | 21 => { s with cfg := { s.cfg with airrate := BitVec.ofNat 3 v } }
  | 22 => { s with cfg := { s.cfg with parity := BitVec.ofNat 2 v } }
  | 23 => { s with cfg := { s.cfg with baud := BitVec.ofNat 3 v } }
  | 24 => { s with cfg := { s.cfg with power := BitVec.ofNat 2 v } }
  | 25 => { s with cfg := { s.cfg with rssiNoise := bitOf v } }
  | 26 => { s with cfg := { s.cfg with subpkt := BitVec.ofNat 2 v } }
  | 27 => { s with cfg := { s.cfg with chan := byteOf v } }
  | 28 => { s with cfg := { s.cfg with wor := BitVec.ofNat 3 v } }
  | 29 => { s with cfg := { s.cfg with lbt := bitOf v } }
  | 30 => { s with cfg := { s.cfg with fixed := bitOf v } }
  | 31 => { s with cfg := { s.cfg with rssiEn := bitOf v } }
  | 32 => { s with cfg := { s.cfg with crypth := byteOf v } }
  | 33 => { s with cfg := { s.cfg with cryptl := byteOf v } }
  | _ => s

/-- What a host read gives, recorded: the value and nothing else changes (R50, R79). -/
def State.noteRead (s : State) (l : HostLoc) (v : Nat) : State := { s with reads := s.reads ++ [(l, v)] }

/-- A host read while `BUSY = 0` (R50). -/
def hostRead (l : HostLoc) (s : State) : Answer :=
  match l with
  | .reg r => .next (s.noteRead l (s.readReg r))
  | .tbuf i => if i < Config.bufSize then .next (s.noteRead l (s.tbuf.read i).toNat) else .fault (.noSuchIndex l)
  | .rbuf i => if i < Config.bufSize then .next (s.noteRead l (s.rbuf.read i).toNat) else .fault (.noSuchIndex l)

/-- A host write while `BUSY = 0` (R50); `RBUF` is read-only to the host (R35). -/
def hostWrite (l : HostLoc) (v : Nat) (s : State) : Answer :=
  match l with
  | .reg r => .next (s.writeReg r v)
  | .tbuf i => if i < Config.bufSize then .next { s with tbuf := s.tbuf.write i (byteOf v) } else .fault (.noSuchIndex l)
  | .rbuf i => if i < Config.bufSize then .next s else .fault (.noSuchIndex l)

/-- A host access while `BUSY = 0`: it takes effect at once (R50). -/
def hostAccess (a : HostAct) (s : State) : Answer :=
  match a with
  | .read l => hostRead l s
  | .write l v => hostWrite l v s

/-- A host access while a command runs: only a read of `BUSY` is defined (R29, R50; U1). -/
def hostDuring (a : HostAct) (s : State) : Answer :=
  match a with
  | .read (.reg 2) => .next (s.noteRead (.reg 2) s.busy.toNat)
  | a => .refused (.hostAccessWhileBusy a)

end Sys2Proof.Machine
end

