-- ==== Sys2Proof/Machine/Agents.lean ====
section
/-! DEFINITION. Who moves next, and with what: the sequencer runs the command held in `CMD` when `SEQ` is RUN (R27, R45,
R83); otherwise the next scheduled move of another agent is taken, or the UPC waits in IDLE (R228). Log entries 1 and 5
say how a program comes to run. -/

namespace Sys2Proof.Machine

/-- The fetch of a command: the opcode held since the `CMD` write (R83, R85). -/
def fetchCommand (s : State) : Except DecodeError Instr := decode .cmd [s.cmd]

/-- The running command, to its completion: one step (R9: "it executes one command at a time, start to finish"). -/
def runCommand (s : State) : Answer :=
  match fetchCommand s with
  | .ok i => exec i s
  | .error e => .refused (.undecodable e)

/-- A step while `SEQ` is RUN. A host that does not wait acts before the command's own actions are seen. -/
def stepRun (s : State) : Answer :=
  match s.sched with
  | .hostNow a :: rest => hostDuring a { s with sched := rest }
  | [] => runCommand s
  | .host _ :: _ => runCommand s
  | .linkBaud _ :: _ => runCommand s
  | .wire _ _ :: _ => runCommand s

/-- A port at which bytes come from the device (R105, R111). -/
def portFromDevice (p : Port) : Bool :=
  match p with
  | .respFull | .respInfo | .respWindow _ | .received _ _ => true
  | .cmd | .header | .sped | .option | .transmode | .body | .code | .request | .transparent | .fixedMsg | .broadcast
  | .remote | .pins => false

/-- The rows an item may be: a frame from the device, which is the device's own act (R9, R71), and the 0xCF code, which
is refused wherever it stands (R113). Every other row is met inside a command only (R45, log entry 4). -/
def isItem (i : Instr) : Bool :=
  match i with
  | .cmdSpecialExtended => true
  | i => portFromDevice i.port

/-- A scheduled item: bytes at a port. What is no item is refused. -/
def runItem (p : Port) (bs : List Byte) (s : State) : Answer :=
  match decode p bs with
  | .ok i => if isItem i then exec i s else .refused (.undecodable .notAnItem)
  | .error e => .refused (.undecodable e)

/-- A step while `SEQ` is IDLE: the device may act (R71), then the next scheduled move is taken. -/
def stepIdle (s : State) : Answer :=
  match s.sched with
  | [] => .next (s.withLink (s.link.point s.params))
  | .host a :: rest => hostAccess a ({ s with sched := rest }.withLink (s.link.point s.params))
  | .hostNow a :: rest => hostAccess a ({ s with sched := rest }.withLink (s.link.point s.params))
  | .linkBaud n :: rest => .next { s with sched := rest, linkBaud := n }
  | .wire p bs :: rest => runItem p bs { s with sched := rest }

/-- One step. -/
def stepOnce (s : State) : Answer :=
  match s.seq with
  | .run => stepRun s
  | .idle => stepIdle s

/-- A move the host makes whether or not a command runs. -/
def Move.isNow : Move → Bool
  | .hostNow _ => true
  | _ => false

/-- A command whose opcode was just written to `CMD` (R27), with no host access waiting to come first. -/
def State.startAlone (op : Byte) (s : State) : State := { s.start op with sched := s.sched.dropWhile Move.isNow }

/-- SENDSTRUCT of `bs`, about to run (R152). -/
def State.startSend (bs : List Byte) (s : State) : State := (s.load bs).startAlone 0x30#8

/-- SETMODE of mode code `t`, about to run (R136). -/
def State.startMode (t : Byte) (s : State) : State := { s with arg0 := t }.startAlone 0x20#8

/-- DECREG of the window with code `w` and payload `bs`, about to run (R129). -/
def State.startDecreg (w : Byte) (bs : List Byte) (s : State) : State :=
  { s.deliver bs with arg0 := w }.startAlone 0x13#8

/-- DECCFG of `bs`, with header when `flag` is 1, about to run (R126). -/
def State.startDeccfg (flag : Byte) (bs : List Byte) (s : State) : State :=
  { s.deliver bs with arg0 := flag }.startAlone 0x11#8

/-- DECCFG of a header and of the body the registers hold, about to run: it stores the header (R126, R131). -/
def State.startHeader (h : Header) (s : State) : State := s.startDeccfg 1#8 (h.toList ++ encodeBody s.cfg)

/-- A frame from the device about to arrive: the next scheduled item, with no command running. -/
def State.startItem (p : Port) (bs : List Byte) (s : State) : State :=
  { s with busy := 0#1, seq := .idle, sched := .wire p bs :: s.sched }

/-- `s` about to run the row `i`: a command in `CMD` as its start leaves it (R27); a row that is met inside a command only
as that command, started with the operands that make it `i` (log entries 4 and 5); a frame from the device, and the 0xCF
code, as the next item. -/
def State.startRow (i : Instr) (s : State) : State :=
  match i with
  | .wfHeader c a n => s.startHeader ⟨c, a, n⟩
  | .sped _ _ _ => s.startDecreg 1#8 (encode i)
  | .option _ _ _ => s.startDecreg 2#8 (encode i)
  | .transmode _ _ _ _ => s.startDecreg 5#8 (encode i)
  | .cfgBody _ => s.startDeccfg 0#8 (encode i)
  | .cfgReadReq | .cfgWriteReq _ _ | .infoReadReq | .regReadReqSpeed | .regWriteReqSpeed _ _ _ _ | .regReadReqOption
  | .regWriteReqOption _ _ _ _ | .regReadReqChannel | .regWriteReqChannel _ _ | .regReadReqCrypt
  | .regWriteReqCrypt _ _ _ | .regReadReqTransmode | .regWriteReqTransmode _ _ _ _ _ => s.startSend (encode i)
  | .msgTransparent payload => (s.load payload).startAlone 0x40#8
  | .msgFixed h l c payload => { s.load payload with arg0 := h, arg1 := l, arg2 := c }.startAlone 0x41#8
  | .msgBcast c payload => { s.load payload with arg2 := c }.startAlone 0x42#8
  | .msgRemoteCfg h l c q body =>
    { s with arg0 := h, arg1 := l, arg2 := c, arg3 := q.code, cfg := body }.startAlone 0x54#8
  | .modeNormal => s.startMode 0#8
  | .modeWorTx => s.startMode 1#8
  | .modeWorRx => s.startMode 2#8
  | .modeConfiguration => s.startMode 3#8
  | .cmdWritePersistent => s.startHeader { s.cfgHdr with command := codeWritePersistent }
  | .cmdRead => s.startHeader { s.cfgHdr with command := codeRead }
  | .cmdWriteVolatile => s.startHeader { s.cfgHdr with command := codeWriteVolatile }
  | .cmdWrongFormat => s.startHeader { s.cfgHdr with command := codeWrongFormat }
  | .cmdSpecialExtended => s.startItem .code (encode i)
  | .cfgResp _ _ _ | .infoResp _ _ _ _ _ | .regRespSpeed _ _ _ | .regRespOption _ _ _ | .regRespChannel _ _ _
  | .regRespCrypt _ _ _ _ | .regRespTransmode _ _ _ | .msgReceived _ _ => s.startItem i.port (encode i)
  | .reserved op => s.startAlone op
  | .enccfg | .deccfg | .encreg | .decreg | .decinfo | .setmode | .getmode | .sendstruct | .recvstruct
  | .waitcomplete | .drain | .sendmsg | .sendfixed | .sendbcast | .recvmsg | .recvmsgrssi | .recvcomplete
  | .recvuntil | .available | .getcfg | .setcfg | .getinfo | .resetmod | .sendcfgmsg | .readreg | .writereg =>
    s.startAlone ((encode i).headD 0#8)

/-- The row of a table word placed where the next step fetches. A word that is no row stands as an item, which is
refused. -/
def State.place (s : State) (nbits w : Nat) : State :=
  match decodeTableWord nbits w with
  | some i => s.startRow i
  | none => s.startItem (tablePort nbits w) (tableBytes (nbits / 8) w)

end Sys2Proof.Machine
end

