-- ==== Sys2Proof/Safety.lean ====
section
/-! DEFINITION. The terms in which statements are made: the invariant of the machine, the moves the host contract allows
(spec/70_reset_and_hazards.md R236), what a history holds, what a device script does, and the spec's own tables of
requests and of tick bounds (spec/44_config.md R181 to R187, spec/70_reset_and_hazards.md R249). -/

namespace Sys2Proof

/-! ## Of parameters and instructions -/

/-- A FIFO of `n` bytes is within its capacity (R47, R71). -/
def Params.fits (p : Params) (n : Nat) : Bool :=
  match p.rxDepth with
  | none => true
  | some d => decide (n ≤ d)

/-- A row that is a whole frame from the device. -/
def Instr.fromDevice : Instr → Bool
  | .cfgResp _ _ _ | .infoResp _ _ _ _ _ | .regRespSpeed _ _ _ | .regRespOption _ _ _ | .regRespChannel _ _ _
  | .regRespCrypt _ _ _ _ | .regRespTransmode _ _ _ | .msgReceived _ _ => true
  | _ => false

/-- A row that is a whole frame to the device. -/
def Instr.toDevice : Instr → Bool
  | .cfgReadReq | .cfgWriteReq _ _ | .infoReadReq | .regReadReqSpeed | .regWriteReqSpeed _ _ _ _ | .regReadReqOption
  | .regWriteReqOption _ _ _ _ | .regReadReqChannel | .regWriteReqChannel _ _ | .regReadReqCrypt
  | .regWriteReqCrypt _ _ _ | .regReadReqTransmode | .regWriteReqTransmode _ _ _ _ _ | .msgTransparent _
  | .msgFixed _ _ _ _ | .msgBcast _ _ | .msgRemoteCfg _ _ _ _ _ => true
  | _ => false

/-- A host command or a reserved opcode: what a write of `CMD` starts (R85, R112). -/
def Instr.isCommand (i : Instr) : Bool := i.port == .cmd

/-! ## The layouts of spec/30_encoding.md once more, written for statements: fields side by side (R11: `{a, b}`) one way,
division the other way. The decoder and the codec use shifts and bit slices instead. -/

/-- `SPED = {CFG_BAUD, CFG_PARITY, CFG_AIRRATE}` (R100). -/
def CfgBody.speedByte (c : CfgBody) : Byte := c.baud ++ c.parity ++ c.airrate

/-- OPTION with its reserved bits 0 (R101, R103). -/
def CfgBody.optionByte (c : CfgBody) : Byte := c.subpkt ++ c.rssiNoise ++ (0#3 : BitVec 3) ++ c.power

/-- TRANSMODE with its reserved bits 0 (R102, R103). -/
def CfgBody.transmodeByte (c : CfgBody) : Byte :=
  c.rssiEn ++ c.fixed ++ (0#1 : BitVec 1) ++ c.lbt ++ (0#1 : BitVec 1) ++ c.wor

/-- The 8 body bytes in the order of R94. -/
def CfgBody.wire (c : CfgBody) : List Byte :=
  [c.addh, c.addl, c.speedByte, c.optionByte, c.chan, c.transmodeByte, c.crypth, c.cryptl]

/-- The payload of window `w`, 1 to 5 (R99, R127). -/
def CfgBody.window (c : CfgBody) (w : Nat) : List Byte :=
  match w with
  | 1 => [c.speedByte]
  | 2 => [c.optionByte]
  | 3 => [c.chan]
  | 4 => [c.crypth, c.cryptl]
  | 5 => [c.transmodeByte]
  | _ => []

/-- The body whose fields have the values of the bytes `f 0` to `f 7` at the places of R100 to R102 (R124): `b[7:5]` is
`b / 32`, and so on; a number is cut to its field's width. -/
def CfgBody.ofWire (f : Nat → Byte) : CfgBody where
  addh := f 0
  addl := f 1
  baud := BitVec.ofNat 3 ((f 2).toNat / 32)
  parity := BitVec.ofNat 2 ((f 2).toNat / 8)
  airrate := BitVec.ofNat 3 (f 2).toNat
  subpkt := BitVec.ofNat 2 ((f 3).toNat / 64)
  rssiNoise := BitVec.ofNat 1 ((f 3).toNat / 32)
  power := BitVec.ofNat 2 (f 3).toNat
  chan := f 4
  rssiEn := BitVec.ofNat 1 ((f 5).toNat / 128)
  fixed := BitVec.ofNat 1 ((f 5).toNat / 64)
  lbt := BitVec.ofNat 1 ((f 5).toNat / 16)
  wor := BitVec.ofNat 3 (f 5).toNat
  crypth := f 6
  cryptl := f 7

/-- The body after window `w`'s fields took the values of the bytes `f 0` (and `f 1`), every other field as it was
(R127). -/
def CfgBody.withWindow (c : CfgBody) (w : Nat) (f : Nat → Byte) : CfgBody :=
  match w with
  | 1 => { c with
      baud := BitVec.ofNat 3 ((f 0).toNat / 32)
      parity := BitVec.ofNat 2 ((f 0).toNat / 8)
      airrate := BitVec.ofNat 3 (f 0).toNat }
  | 2 => { c with
      subpkt := BitVec.ofNat 2 ((f 0).toNat / 64)
      rssiNoise := BitVec.ofNat 1 ((f 0).toNat / 32)
      power := BitVec.ofNat 2 (f 0).toNat }
  | 3 => { c with chan := f 0 }
  | 4 => { c with crypth := f 0, cryptl := f 1 }
  | 5 => { c with
      rssiEn := BitVec.ofNat 1 ((f 0).toNat / 128)
      fixed := BitVec.ofNat 1 ((f 0).toNat / 64)
      lbt := BitVec.ofNat 1 ((f 0).toNat / 16)
      wor := BitVec.ofNat 3 (f 0).toNat }
  | _ => c

/-- The payload length of window `w`, 1 to 5 (R98). -/
def windowCount (w : Nat) : Nat := if w = 4 then 2 else 1

end Sys2Proof

namespace Sys2Proof.Machine

/-! ## The invariant -/

/-- The statuses no rule raises (R202). -/
def Status.uncaused : Status → Bool
  | .unknown | .hardwareError => true
  | _ => false

/-- What every state a run reaches has: parameters within their constraints (R7), both buffers in canonical form,
`RLEN` at most 200 (R35, R62), `ARGT` and `ARGP` within `TW` bits (R33), the FIFO within its capacity (R47), `BUSY` 1
exactly in RUN (R45), and a status some rule raises (R202). -/
structure State.Inv (s : State) : Prop where
  params : s.params.wf = true
  tbuf : s.tbuf.wf = true
  rbuf : s.rbuf.wf = true
  rlen : s.rlen.toNat ≤ 200
  argt : s.argt < 2 ^ s.params.tw
  argp : s.argp < 2 ^ s.params.tw
  fifo : s.params.fits s.link.rxfifo.length = true
  busy : s.busy = 1#1 ↔ s.seq = .run
  status : s.status.uncaused = false

/-! ## The host contract and the device -/

/-- A place that exists (R26: every register number may be accessed; R34, R35: indices 0 to 199). -/
def HostLoc.present : HostLoc → Bool
  | .reg _ => true
  | .tbuf i => decide (i < Config.bufSize)
  | .rbuf i => decide (i < Config.bufSize)

/-- The place a host access is to. -/
def HostAct.loc : HostAct → HostLoc
  | .read l => l
  | .write l _ => l

/-- Bytes that are a frame from the device at a port. -/
def arrivalItem (p : Port) (bs : List Byte) : Bool :=
  match decode p bs with
  | .ok i => i.fromDevice
  | .error _ => false

/-- A move the spec's other agents make on their own (R9, R236): the host accesses places that exist, and while it does
not wait it only reads `BUSY` (clauses a and b of R236); the device sends; the transport is re-initialised. -/
def Move.lawful : Move → Bool
  | .host a => a.loc.present
  | .hostNow a => a == .read (.reg 2)
  | .linkBaud _ => true
  | .wire p bs => arrivalItem p bs

/-- Every scheduled move is lawful. -/
def State.lawful (s : State) : Bool := s.sched.all Move.lawful

/-- No host access is waiting to come before the running command's step. -/
def State.undisturbed (s : State) : Bool :=
  match s.sched with
  | .hostNow _ :: _ => false
  | _ => true

/-- The `AUX` level is `v` now and the device's script never changes it. -/
def Link.auxHolds (v : Bool) (l : Link) : Bool :=
  l.aux == v && l.dev.all (fun as => as.all (fun a => match a with | .aux w => w == v | .arrive _ => true))

/-- The device's script holds no arrival: no byte comes any more. -/
def Link.noArrivals (l : Link) : Bool :=
  l.dev.all (fun as => as.all (fun a => match a with | .aux _ => true | .arrive _ => false))

/-- The bytes that arrive in a list of acts, in order. -/
def arrivals (as : List DevAct) : List Byte :=
  as.filterMap (fun a => match a with | .arrive b => some b | .aux _ => none)

/-- A device script in which exactly the bytes `resp` arrive in the `within` points after a command's first one (for an
exchange: after the clear of R151), spread over those points in any way and mixed with changes of AUX, whatever the device
does at the first point (`before`: it may send stale bytes) and later. Points are those of log entry 3. -/
def Link.answers (l : Link) (within : Nat) (resp : List Byte) : Prop :=
  ∃ (before : List DevAct) (mid later : List (List DevAct)), l.dev = before :: (mid ++ later) ∧ mid.length ≤ within ∧
    arrivals mid.flatten = resp

/-- The script of a device that sends bytes one at a time: before each, so many points at which it does nothing. -/
def spaced (gaps : List (Nat × Byte)) : List (List DevAct) :=
  gaps.flatMap (fun g => List.replicate g.1 [] ++ [[DevAct.arrive g.2]])

/-- The device sends the bytes `bs` and no more, each at most `2 * Q` points after the one before it, and the FIFO has
room for all. A UPC that waits for a byte meets two points a tick (log entry 3), so each byte comes within `Q` ticks. -/
def Link.sendsWithin (p : Params) (Q : Nat) (l : Link) (bs : List Byte) : Prop :=
  ∃ gaps : List (Nat × Byte), l.dev = spaced gaps ∧ gaps.map Prod.snd = bs ∧ (∀ g ∈ gaps, g.1 ≤ 2 * Q) ∧
    p.fits (l.rxfifo.length + bs.length) = true

/-! ## Histories (R22) -/

/-- The bytes a history says were consumed. -/
def taken (h : List Obs) : List Byte :=
  h.filterMap (fun o => match o with | .rx b => some b | _ => none)

/-- The bytes a history says were emitted. -/
def sent (h : List Obs) : List Byte :=
  h.filterMap (fun o => match o with | .tx b => some b | _ => none)

/-- The AUX samples a history says were taken. -/
def samples (h : List Obs) : List Bool :=
  h.filterMap (fun o => match o with | .auxSample v => some v | _ => none)

/-! ## The register map (R26) -/

/-- The registers the host may write, but `CMD`, with their widths. -/
def writableRegisters (tw : Nat) : List (Nat × Nat) :=
  [(5, 8), (6, 8), (7, 8), (8, 8), (9, tw), (10, tw), (11, 16), (16, 8), (17, 8), (18, 8), (19, 8), (20, 8), (21, 3)] ++
  [(22, 2), (23, 3), (24, 2), (25, 1), (26, 2), (27, 8), (28, 3), (29, 1), (30, 1), (31, 1), (32, 8), (33, 8)]

/-- The registers the host may only read. -/
def readOnlyRegisters : List Nat := [1, 2, 3, 4, 12, 13, 14, 40, 41, 42, 43, 44, 45]

/-- An unassigned register number: "15, 34 to 39 and 46 upward". -/
def unassignedRegister (r : Nat) : Bool := r == 15 || (decide (34 ≤ r) && decide (r ≤ 39)) || decide (46 ≤ r)

/-- The commands that write register `r`: the column "written by" of R26. `STATUS` and `BUSY` (1 and 2) are written by
every command and stand for themselves in the statements. -/
def commandsWriting (r : Nat) : List Instr :=
  if r = 3 then [.setmode]
  else if r = 4 then [.getmode, .available]
  else if r = 11 then [.enccfg, .encreg]
  else if r = 12 then
    [.recvstruct, .recvmsg, .recvmsgrssi, .recvcomplete, .recvuntil, .getcfg, .setcfg, .getinfo, .readreg, .writereg]
  else if r = 13 then [.recvmsgrssi, .recvcomplete]
  else if r = 14 then [.recvmsg, .recvmsgrssi, .recvcomplete, .recvuntil]
  else if 16 ≤ r ∧ r ≤ 20 then [.deccfg, .getcfg]
  else if 21 ≤ r ∧ r ≤ 33 then [.deccfg, .decreg, .getcfg, .readreg]
  else if 40 ≤ r ∧ r ≤ 45 then [.decinfo, .getinfo]
  else []

/-! ## The commands' tables -/

/-- The request bytes, the response length and the mismatch status of each local configuration command whose operands are
legal (R181, R182, R183, R186, R187), written from those rules with literal bytes. `none` for
every other instruction and for illegal operands. -/
def localRequest (i : Instr) (s : State) : Option (List Byte × Nat × Status) :=
  match i with
  | .getcfg => some ([0xC1#8, 0x00#8, 0x08#8], 11, .headNotRecognized)
  | .setcfg =>
    if s.arg0 = 0xC0#8 ∨ s.arg0 = 0xC2#8 then
      some ([s.arg0, 0x00#8, 0x08#8] ++ s.cfg.wire, 11, .wrongFormat)
    else none
  | .getinfo => some ([0xC1#8, 0x08#8, 0x03#8], 6, .headNotRecognized)
  | .readreg =>
    if s.arg0 = 1#8 then some ([0xC1#8, 0x02#8, 0x01#8], 4, .headNotRecognized)
    else if s.arg0 = 2#8 then some ([0xC1#8, 0x05#8, 0x01#8], 4, .headNotRecognized)
    else if s.arg0 = 3#8 then some ([0xC1#8, 0x04#8, 0x01#8], 4, .headNotRecognized)
    else if s.arg0 = 4#8 then some ([0xC1#8, 0x06#8, 0x02#8], 5, .headNotRecognized)
    else if s.arg0 = 5#8 then some ([0xC1#8, 0x03#8, 0x01#8], 4, .headNotRecognized)
    else none
  | .writereg =>
    if s.arg1 = 0xC0#8 ∨ s.arg1 = 0xC2#8 then
      if s.arg0 = 1#8 then some ([s.arg1, 0x02#8, 0x01#8, s.cfg.speedByte], 4, .wrongFormat)
      else if s.arg0 = 2#8 then some ([s.arg1, 0x05#8, 0x01#8, s.cfg.optionByte], 4, .wrongFormat)
      else if s.arg0 = 3#8 then some ([s.arg1, 0x04#8, 0x01#8, s.cfg.chan], 4, .wrongFormat)
      else if s.arg0 = 4#8 then some ([s.arg1, 0x06#8, 0x02#8, s.cfg.crypth, s.cfg.cryptl], 5, .wrongFormat)
      else if s.arg0 = 5#8 then some ([s.arg1, 0x03#8, 0x01#8, s.cfg.transmodeByte], 4, .wrongFormat)
      else none
    else none
  | _ => none

/-- The limit on `DLEN` and the frame of each command that sends `TBUF[0..DLEN)` (R152, R163, R164, R165). -/
def sendTable (i : Instr) (s : State) : Option (Nat × List Byte) :=
  let payload := (List.range s.dlen.toNat).map s.tbuf.read
  match i with
  | .sendstruct => some (200, payload)
  | .sendmsg => some (200, payload)
  | .sendfixed => some (197, s.arg0 :: s.arg1 :: s.arg2 :: payload)
  | .sendbcast => some (197, 0xFF#8 :: 0xFF#8 :: s.arg2 :: payload)
  | _ => none

/-- What a local configuration command stores on Success besides the response itself, as the header, body and information
registers (R181, R183, R186; SETCFG and WRITEREG store nothing, R182, R187). `f` gives the response's bytes. -/
def localStores (i : Instr) (s : State) (f : Nat → Byte) : Header × CfgBody × ModuleInfo :=
  match i with
  | .getcfg => (⟨f 0, f 1, f 2⟩, CfgBody.ofWire (fun k => f (3 + k)), s.info)
  | .getinfo => (s.cfgHdr, s.cfg, ⟨⟨f 0, f 1, f 2⟩, f 3, f 4, f 5⟩)
  | .readreg => (s.cfgHdr, s.cfg.withWindow s.arg0.toNat (fun k => f (3 + k)), s.info)
  | _ => (s.cfgHdr, s.cfg, s.info)

/-- The statuses each command can complete with: the table of R198, read by command. -/
def statusTable (i : Instr) : List Status :=
  match i with
  | .reserved _ => [.notSupported]
  | .resetmod => [.notImplemented]
  | .enccfg | .getmode | .drain | .available => [.success]
  | .deccfg | .decinfo => [.success, .dataSizeMismatch]
  | .encreg | .sendcfgmsg => [.success, .invalidParameter]
  | .decreg => [.success, .invalidParameter, .dataSizeMismatch]
  | .setmode => [.success, .invalidParameter, .timeout, .wrongUartConfig]
  | .waitcomplete => [.success, .invalidParameter, .timeout]
  | .sendstruct | .sendmsg | .sendfixed | .sendbcast => [.success, .timeout, .packetTooBig]
  | .recvstruct =>
    [.success, .invalidParameter, .dataSizeMismatch, .bufferTooSmall, .headNotRecognized, .noResponseFromDevice]
  | .recvmsg | .recvmsgrssi => [.success, .dataSizeMismatch, .bufferTooSmall, .noResponseFromDevice]
  | .recvcomplete => [.success, .bufferTooSmall, .noResponseFromDevice]
  | .recvuntil => [.success, .timeout]
  | .getcfg | .getinfo =>
    [.success, .notInitialized, .dataSizeMismatch, .timeout, .headNotRecognized, .noResponseFromDevice]
  | .readreg =>
    [.success, .notInitialized, .invalidParameter, .dataSizeMismatch, .timeout, .headNotRecognized,
      .noResponseFromDevice]
  | .setcfg | .writereg =>
    [.success, .notInitialized, .invalidParameter, .dataSizeMismatch, .timeout, .noResponseFromDevice, .wrongFormat]
  | _ => []

/-! ## What a wait and a read can do -/

/-- The outcome `st` of a completion wait of `T` ticks polled every `P` (R146), from link `l` to link `l'`, after the
actions `before`; `vs` are the samples taken. Unwired: it sleeps `T` ticks, samples nothing and succeeds. Wired: every
sample but the last read busy; it succeeds if the last read ready, else it ends in Timeout after the whole schedule of
`ceil(T/P) + 1` samples; the `n`-th further sample is taken after `n * P` ticks, the last at `T`. A level that holds decides
it. Nothing is consumed, and no pin is written. -/
def WaitOutcome (p : Params) (T P : Nat) (l l' : Link) (before : List Obs) (vs : List Bool) (st : Status) : Prop :=
  l'.hist = l.hist ++ before ++ vs.map .auxSample ∧
  (∃ extra, l'.rxfifo = l.rxfifo ++ extra ∧ (l.noArrivals = true → extra = [])) ∧
  l'.m0 = l.m0 ∧ l'.m1 = l.m1 ∧
  (∀ v, l.auxHolds v = true → l'.auxHolds v = true) ∧ (l.noArrivals = true → l'.noArrivals = true) ∧
  (p.auxWired = false → vs = [] ∧ st = .success ∧ l'.ticks = l.ticks + T) ∧
  (p.auxWired = true →
    vs ≠ [] ∧ (∀ v ∈ vs.dropLast, v = false) ∧
    st = (if vs.getLast? = some true then .success else .timeout) ∧
    l'.ticks = l.ticks + min ((vs.length - 1) * P) T ∧
    (st = .timeout → vs.length = (T + P - 1) / P + 1) ∧
    (l.auxHolds true = true → vs = [true]) ∧
    (l.auxHolds false = true → st = .timeout))

/-- The outcome `got` of a read of `n` bytes within `T` ticks (R147), from link `l` to link `l'`: the bytes consumed are
the oldest, in order; what is already buffered is taken at once; fewer than `n` are taken only after `T` ticks of waiting,
with nothing left to take. -/
def ReadOutcome (n T : Nat) (l l' : Link) (got : List Byte) : Prop :=
  got.length ≤ n ∧ l'.hist = l.hist ++ got.map .rx ∧ l'.m0 = l.m0 ∧ l'.m1 = l.m1 ∧
  (∃ extra, got ++ l'.rxfifo = l.rxfifo ++ extra ∧ (l.noArrivals = true → extra = [])) ∧
  (n ≤ l.rxfifo.length → got = l.rxfifo.take n ∧ l'.ticks = l.ticks) ∧
  (got.length < n → l'.rxfifo = [] ∧ l'.ticks = l.ticks + T) ∧
  l.ticks ≤ l'.ticks ∧ l'.ticks ≤ l.ticks + T

/-- The outcome `got` of a drain of at most `limit` bytes whose every wait is bounded by `Q` ticks (R172, R173), from link
`l` to link `l'`: the bytes consumed are the oldest, in order; what is already buffered is taken at once; fewer than `limit`
are taken only when a wait of `Q` ticks brought nothing. The wait restarts after every byte: from a device each of whose bytes
comes within `Q` ticks of the one before, all are taken, however long that takes in all (V44). -/
def DrainOutcome (p : Params) (limit Q : Nat) (l l' : Link) (got : List Byte) : Prop :=
  got.length ≤ limit ∧ l'.hist = l.hist ++ got.map .rx ∧ l'.m0 = l.m0 ∧ l'.m1 = l.m1 ∧
  (∃ extra, got ++ l'.rxfifo = l.rxfifo ++ extra ∧ (l.noArrivals = true → extra = [])) ∧
  (limit ≤ l.rxfifo.length → got = l.rxfifo.take limit ∧ l'.ticks = l.ticks) ∧
  (got.length < limit → l'.rxfifo = [] ∧ l.ticks + Q ≤ l'.ticks) ∧
  (l.noArrivals = true → l'.ticks ≤ l.ticks + Q) ∧
  (∀ bs, l.sendsWithin p Q bs → got = (l.rxfifo ++ bs).take limit) ∧
  l.ticks ≤ l'.ticks ∧ l'.ticks ≤ l.ticks + limit * Q

/-- The outcome of a delimited receive (R174), from link `l` to link `l'`: `got` is stored, `tail` is the delimiter `d`
when it was seen, consumed and not stored. It ends at the delimiter, at the bound `N`, or when `Q` ticks brought no byte.
The timeout applies to each byte separately:
from a device each of whose bytes comes within `Q` ticks of the one before, it ends in Timeout only once all are stored,
however long that takes in all. -/
def UntilOutcome (p : Params) (d : Byte) (N Q : Nat) (l l' : Link) (got tail : List Byte) (st : Status) : Prop :=
  d ∉ got ∧ l'.hist = l.hist ++ (got ++ tail).map .rx ∧ l'.m0 = l.m0 ∧ l'.m1 = l.m1 ∧
  (∃ extra, got ++ tail ++ l'.rxfifo = l.rxfifo ++ extra ∧ (l.noArrivals = true → extra = [])) ∧
  ((st = .success ∧ tail = [d] ∧ got.length < N) ∨ (st = .success ∧ tail = [] ∧ got.length = N) ∨
    (st = .timeout ∧ tail = [] ∧ got.length < N ∧ l'.rxfifo = [] ∧ l.ticks + Q ≤ l'.ticks)) ∧
  (l.noArrivals = true → l'.ticks ≤ l.ticks + Q) ∧
  (∀ bs, l.sendsWithin p Q bs → ∃ rest, got ++ tail ++ rest = l.rxfifo ++ bs ∧ (st = .timeout → rest = [])) ∧
  l.ticks ≤ l'.ticks ∧ l'.ticks ≤ l.ticks + N * Q

/-- The status of a framed read of `n` bytes that obtained `got`, `head` being the expected first byte and `m` the
mismatch status (R145, R149). -/
def framedStatus (got : List Byte) (n : Nat) (head : Byte) (m : Status) : Status :=
  if got.length = 0 then .noResponseFromDevice
  else if got.length < n then .dataSizeMismatch
  else if got.head? = some head then .success
  else m

/-- The most ticks a command can take (R249). -/
def tickBound (i : Instr) (s : State) : Nat :=
  let p := s.params
  match i with
  | .setmode => if p.auxWired then p.tSettleTimeout else p.tSettleDelay
  | .waitcomplete => s.argt
  | .sendstruct | .sendmsg | .sendfixed | .sendbcast => p.tRespTimeout
  | .recvstruct | .recvmsg | .recvmsgrssi => p.tReadTimeout
  | .recvcomplete => (s.arg0.toNat + s.arg1.toNat % 2) * p.tQuiesce
  | .recvuntil => p.nUntilMax * p.tReadTimeout
  | .getcfg | .setcfg | .getinfo | .readreg | .writereg => p.tRespTimeout + p.tReadTimeout
  | _ => 0

/-- The statuses of a refusal: of operands, of a precondition, of an opcode (R200). -/
def Status.isRefusal : Status → Bool
  | .invalidParameter | .packetTooBig | .bufferTooSmall | .wrongUartConfig | .notInitialized | .notSupported
  | .notImplemented => true
  | _ => false

end Sys2Proof.Machine
end

