-- ==== Sys2Proof/Certificates/Slice0/Obligations.lean ====
section
/-! DEFINITION. The statements for the provers, one `def Obligations.<Name> : Prop` each, in the order of OBLIGATIONS.json.
A statement about an instruction quantifies over every state; what it leaves unconstrained (`RBUF` after a failed receive, the
link's timer) the spec leaves unspecified or unobservable. Outcomes of waits and reads are the predicates of
Sys2Proof/Safety.lean. -/

section

open Sys2Proof Sys2Proof.Machine

/-- R52, R228: the reset values the spec gives. What it leaves unspecified is not spoken of. -/
def Obligations.ResetLeavesTheSpecsValues : Prop :=
  ∀ p : Params,
    (State.resetWith p).mode = .uninitialized ∧ (State.resetWith p).readReg 3 = 4 ∧
    (State.resetWith p).status = .none ∧ (State.resetWith p).readReg 1 = 0 ∧
    (State.resetWith p).busy = 0#1 ∧ (State.resetWith p).seq = .idle ∧ (State.resetWith p).rssiValid = 0#1 ∧
    (State.resetWith p).rlen = 0#8 ∧ (State.resetWith p).dlen = 0#16 ∧
    (State.resetWith p).link.rxfifo = [] ∧ (State.resetWith p).link.hist = [] ∧ (State.resetWith p).link.ticks = 0

/-- R52 with R7, R25, R59: the invariant holds at reset. The values of ARGT, ARGP and of the parameters are the model's choice
(log entries 7 and 2). -/
def Obligations.InvariantHoldsAfterReset : Prop :=
  (∀ p : Params, p.wf = true → (State.resetWith p).Inv) ∧ State.reset.Inv

/-- R13, R59, R62 (buffers), R33 (ARGT, ARGP), R35 (RLEN), R45 (BUSY and SEQ), R47 and R71 (RXFIFO), R202 (statuses): every step
keeps them. -/
def Obligations.EveryStepKeepsTheInvariant : Prop :=
  ∀ s t : State, s.Inv → step s = .next t → t.Inv

/-- R23 (every command terminates; no halt state) under the contract of R236: a lawful run never stops. -/
def Obligations.LawfulStepsNeverStop : Prop :=
  ∀ s : State, s.Inv → s.lawful = true → ∃ t, step s = .next t ∧ t.Inv ∧ t.lawful = true

/-- R27, R83, R85: the running command is the one whose opcode was written to CMD. -/
def Obligations.StepRunsTheCommandInCmd : Prop :=
  ∀ (s : State) (i : Instr), s.seq = .run → s.undisturbed = true → decode .cmd [s.cmd] = .ok i →
    i.wf = true ∧ step s = exec i s

/-- R9, R45, R60, R71, R140: of all rows only a frame from the device happens outside a command. The schedule is the model's
(log entry 4). -/
def Obligations.StepRunsTheScheduledItem : Prop :=
  ∀ (s : State) (p : Port) (bs : List Byte) (rest : List Move), s.seq = .idle → s.sched = .wire p bs :: rest →
    (∀ i, decode p bs = .ok i → i.wf = true ∧
      (i.fromDevice = true → step s = exec i { s with sched := rest }) ∧
      (i = .cmdSpecialExtended → step s = .refused .specialExtendedPath) ∧
      (i.fromDevice = false → i ≠ .cmdSpecialExtended → step s = .refused (.undecodable .notAnItem))) ∧
    (∀ e, decode p bs = .error e → step s = .refused (.undecodable e))

/-- R27: `BUSY <- 1`, `SEQ <- RUN`, and the command's rule executes with the operand registers as they stand. -/
def Obligations.WriteOfCmdStartsItsCommand : Prop :=
  ∀ (s : State) (v : Nat) (rest : List Move), s.seq = .idle → s.sched = .host (.write (.reg 0) v) :: rest →
    ∃ t, step s = .next t ∧
      t = { s with sched := rest, link := s.link.point s.params, cmd := BitVec.ofNat 8 v, busy := 1#1, seq := .run } ∧
      (t.undisturbed = true → step t = exec (decodeOpcode (BitVec.ofNat 8 v)) t)

/-- R29, R50: "While `BUSY = 1` the host may read only `BUSY`"; the rest is U1: refuse. -/
def Obligations.WhileRunningTheHostReadsBusyOnly : Prop :=
  ∀ (s : State) (a : HostAct) (rest : List Move), s.seq = .run → s.sched = .hostNow a :: rest →
    (a = .read (.reg 2) →
      step s = .next { s with sched := rest, reads := s.reads ++ [(.reg 2, s.busy.toNat)] }) ∧
    (a ≠ .read (.reg 2) → step s = .refused (.hostAccessWhileBusy a))

/-- R9, R16, R44, R50, R228: who moves while no command runs. The schedule as data is the model's (log entry 1). -/
def Obligations.IdleStepsAreTheOtherAgents : Prop :=
  ∀ s : State, s.seq = .idle →
    (s.sched = [] → step s = .next { s with link := s.link.point s.params }) ∧
    (∀ a rest, s.sched = .host a :: rest ∨ s.sched = .hostNow a :: rest →
      step s = hostAccess a { s with sched := rest, link := s.link.point s.params }) ∧
    (∀ n rest, s.sched = .linkBaud n :: rest → step s = .next { s with sched := rest, linkBaud := n })

/-- R23: "Every command terminates"; R199: completion clears BUSY and returns to IDLE. -/
def Obligations.EveryCommandCompletes : Prop :=
  ∀ s : State, s.seq = .run → s.undisturbed = true →
    ∃ t, step s = .next t ∧ t.busy = 0#1 ∧ t.seq = .idle ∧ t.status ≠ .none

/-- R26: the host register map, number by number. -/
def Obligations.RegisterNumbersNameTheirRegisters : Prop :=
  ∀ (s : State) (v : Nat),
    (s.writeReg 5 v = { s with arg0 := BitVec.ofNat 8 v } ∧ s.writeReg 6 v = { s with arg1 := BitVec.ofNat 8 v } ∧
      s.writeReg 7 v = { s with arg2 := BitVec.ofNat 8 v } ∧ s.writeReg 8 v = { s with arg3 := BitVec.ofNat 8 v } ∧
      s.writeReg 9 v = { s with argt := v % 2 ^ s.params.tw } ∧
      s.writeReg 10 v = { s with argp := v % 2 ^ s.params.tw } ∧
      s.writeReg 11 v = { s with dlen := BitVec.ofNat 16 v }) ∧
    (s.writeReg 16 v = { s with cfgHdr := { s.cfgHdr with command := BitVec.ofNat 8 v } } ∧
      s.writeReg 17 v = { s with cfgHdr := { s.cfgHdr with startAddr := BitVec.ofNat 8 v } } ∧
      s.writeReg 18 v = { s with cfgHdr := { s.cfgHdr with length := BitVec.ofNat 8 v } } ∧
      s.writeReg 19 v = { s with cfg := { s.cfg with addh := BitVec.ofNat 8 v } } ∧
      s.writeReg 20 v = { s with cfg := { s.cfg with addl := BitVec.ofNat 8 v } } ∧
      s.writeReg 21 v = { s with cfg := { s.cfg with airrate := BitVec.ofNat 3 v } } ∧
      s.writeReg 22 v = { s with cfg := { s.cfg with parity := BitVec.ofNat 2 v } } ∧
      s.writeReg 23 v = { s with cfg := { s.cfg with baud := BitVec.ofNat 3 v } } ∧
      s.writeReg 24 v = { s with cfg := { s.cfg with power := BitVec.ofNat 2 v } } ∧
      s.writeReg 25 v = { s with cfg := { s.cfg with rssiNoise := BitVec.ofNat 1 v } } ∧
      s.writeReg 26 v = { s with cfg := { s.cfg with subpkt := BitVec.ofNat 2 v } } ∧
      s.writeReg 27 v = { s with cfg := { s.cfg with chan := BitVec.ofNat 8 v } } ∧
      s.writeReg 28 v = { s with cfg := { s.cfg with wor := BitVec.ofNat 3 v } } ∧
      s.writeReg 29 v = { s with cfg := { s.cfg with lbt := BitVec.ofNat 1 v } } ∧
      s.writeReg 30 v = { s with cfg := { s.cfg with fixed := BitVec.ofNat 1 v } } ∧
      s.writeReg 31 v = { s with cfg := { s.cfg with rssiEn := BitVec.ofNat 1 v } } ∧
      s.writeReg 32 v = { s with cfg := { s.cfg with crypth := BitVec.ofNat 8 v } } ∧
      s.writeReg 33 v = { s with cfg := { s.cfg with cryptl := BitVec.ofNat 8 v } }) ∧
    ([1, 2, 3, 4, 12, 13, 14].map s.readReg =
      [s.status.code.toNat, s.busy.toNat, s.mode.code.toNat, s.result.toNat, s.rlen.toNat, s.rssi.toNat,
        s.rssiValid.toNat]) ∧
    ([40, 41, 42, 43, 44, 45].map s.readReg =
      [s.info.hdr.command.toNat, s.info.hdr.startAddr.toNat, s.info.hdr.length.toNat, s.info.model.toNat,
        s.info.version.toNat, s.info.features.toNat]) ∧
    s.readReg 0 = 0 ∧ (∀ r, unassignedRegister r = true → s.readReg r = 0)

/-- R26: "A host write stores the low `width` bits of the written value; a host read returns the register zero-extended"; R50: an
access with BUSY 0 takes effect at once and has no side effect; R51: no two registers share storage. -/
def Obligations.HostWriteReadsBackAtItsWidth : Prop :=
  ∀ (s : State) (r : Nat),
    hostAccess (.read (.reg r)) s = .next { s with reads := s.reads ++ [(.reg r, s.readReg r)] } ∧
    ∀ w v : Nat, (r, w) ∈ writableRegisters s.params.tw → ∃ t, hostAccess (.write (.reg r) v) s = .next t ∧ t.readReg r = v % 2 ^ w ∧
      (∀ q, q ≠ r → t.readReg q = s.readReg q) ∧ t.tbuf = s.tbuf ∧ t.rbuf = s.rbuf ∧ t.link = s.link ∧
      t.seq = s.seq ∧ t.cmd = s.cmd ∧ t.linkBaud = s.linkBaud ∧ t.reads = s.reads

/-- R26: "a host write there has no effect and a read returns 0" for the unassigned numbers; for the read-only registers the
model's choice (log entry 9). -/
def Obligations.ReadOnlyAndUnassignedNumbersIgnoreWrites : Prop :=
  ∀ (s : State) (r v : Nat), unassignedRegister r = true ∨ r ∈ readOnlyRegisters →
    hostAccess (.write (.reg r) v) s = .next s

/-- R34, R35, R50, R59: the buffers, indices 0 to 199. The write of RBUF is the model's choice (log entry 9), and so is the fault
at an index of 200 or above (log entry 10). -/
def Obligations.HostReachesBothBuffersByIndex : Prop :=
  ∀ (s : State) (i v : Nat),
    (i < 200 →
      (∃ t, hostAccess (.write (.tbuf i) v) s = .next t ∧ t = { s with tbuf := t.tbuf } ∧
        t.tbuf.read i = BitVec.ofNat 8 v ∧ ∀ a, a ≠ i → t.tbuf.read a = s.tbuf.read a) ∧
      hostAccess (.read (.tbuf i)) s = .next { s with reads := s.reads ++ [(.tbuf i, (s.tbuf.read i).toNat)] } ∧
      hostAccess (.read (.rbuf i)) s = .next { s with reads := s.reads ++ [(.rbuf i, (s.rbuf.read i).toNat)] } ∧
      hostAccess (.write (.rbuf i) v) s = .next s) ∧
    (200 ≤ i → ∀ a : HostAct, a.loc = .tbuf i ∨ a.loc = .rbuf i → hostAccess a s = .fault (.noSuchIndex a.loc))

/-- R85, R92 to R111: no bit of an encoding is dropped. -/
def Obligations.DecodeOfEncodeIsTheInstruction : Prop :=
  ∀ i : Instr, i.wf = true → decode i.port (encode i) = .ok i

/-- R85, R92 to R115: the decoder accepts nothing else. R103: reserved bits are ignored on read. -/
def Obligations.DecodedInstructionsAreWellFormed : Prop :=
  ∀ (p : Port) (bs : List Byte) (i : Instr), decode p bs = .ok i →
    i.wf = true ∧ i.port = p ∧
    encode i = (match p with
      | .option => bs.map (· &&& 0xE3#8)
      | .transmode => bs.map (· &&& 0xD7#8)
      | .body => List.zipWith (· &&& ·) bs [0xFF#8, 0xFF#8, 0xFF#8, 0xE3#8, 0xFF#8, 0xD7#8, 0xFF#8, 0xFF#8]
      | _ => bs)

/-- R93 to R111: the frames, written out. -/
def Obligations.FramesAreTheBytesTheSpecWrites : Prop :=
  ∀ (c : CfgBody) (a n h l ch m v f x y : Byte) (bs : BodyBytes) (payload : List Byte),
    encode .cfgReadReq = [0xC1#8, 0x00#8, 0x08#8] ∧ encode .infoReadReq = [0xC1#8, 0x08#8, 0x03#8] ∧
    encode (.cfgBody c) = c.wire ∧
    encode (.cfgResp a n bs) =
      [0xC1#8, a, n, bs.addh, bs.addl, bs.sped, bs.option, bs.chan, bs.transmode, bs.crypth, bs.cryptl] ∧
    encode (.infoResp a n m v f) = [0xC1#8, a, n, m, v, f] ∧
    encode .regReadReqSpeed = [0xC1#8, 0x02#8, 0x01#8] ∧ encode .regReadReqOption = [0xC1#8, 0x05#8, 0x01#8] ∧
    encode .regReadReqChannel = [0xC1#8, 0x04#8, 0x01#8] ∧ encode .regReadReqCrypt = [0xC1#8, 0x06#8, 0x02#8] ∧
    encode .regReadReqTransmode = [0xC1#8, 0x03#8, 0x01#8] ∧
    (∀ (v : SaveType) (k : Byte), (v, k) ∈ [(SaveType.persistent, 0xC0#8), (SaveType.volatile, 0xC2#8)] →
      encode (.cfgWriteReq v c) = [k, 0x00#8, 0x08#8] ++ c.wire ∧
      encode (.regWriteReqSpeed v c.baud c.parity c.airrate) = [k, 0x02#8, 0x01#8, c.speedByte] ∧
      encode (.regWriteReqOption v c.subpkt c.rssiNoise c.power) = [k, 0x05#8, 0x01#8, c.optionByte] ∧
      encode (.regWriteReqChannel v ch) = [k, 0x04#8, 0x01#8, ch] ∧
      encode (.regWriteReqCrypt v x y) = [k, 0x06#8, 0x02#8, x, y] ∧
      encode (.regWriteReqTransmode v c.rssiEn c.fixed c.lbt c.wor) = [k, 0x03#8, 0x01#8, c.transmodeByte]) ∧
    encode (.regRespSpeed a n x) = [0xC1#8, a, n, x] ∧ encode (.regRespOption a n x) = [0xC1#8, a, n, x] ∧
    encode (.regRespChannel a n x) = [0xC1#8, a, n, x] ∧ encode (.regRespCrypt a n x y) = [0xC1#8, a, n, x, y] ∧
    encode (.regRespTransmode a n x) = [0xC1#8, a, n, x] ∧
    encode (.msgTransparent payload) = payload ∧ encode (.msgFixed h l ch payload) = h :: l :: ch :: payload ∧
    encode (.msgBcast ch payload) = 0xFF#8 :: 0xFF#8 :: ch :: payload ∧
    (∀ (q : ProgCmd) (k : Byte),
      (q, k) ∈ [(ProgCmd.writePersistent, 0xC0#8), (ProgCmd.readConfiguration, 0xC1#8), (ProgCmd.writeVolatile, 0xC2#8)] →
      encode (.msgRemoteCfg h l ch q c) = [h, l, ch, k, 0x00#8, 0x08#8] ++ c.wire) ∧
    encode (.msgReceived payload (some x)) = payload ++ [x] ∧ encode (.msgReceived payload none) = payload

/-- R86, R95, R96, R100, R106, R112, and the example frames of R182 and R187. -/
def Obligations.SpecWordsDecode : Prop :=
  decodeOpcode 0x10#8 = .enccfg ∧ decodeOpcode 0x20#8 = .setmode ∧ decodeOpcode 0x33#8 = .drain ∧
    decodeOpcode 0x47#8 = .available ∧ decodeOpcode 0x56#8 = .writereg ∧ decodeOpcode 0x57#8 = .reserved 0x57#8 ∧
    decode .request [0xC1#8, 0x00#8, 0x08#8] = .ok .cfgReadReq ∧
    decode .request [0xC2#8, 0x06#8, 0x02#8, 0x12#8, 0x34#8] = .ok (.regWriteReqCrypt .volatile 0x12#8 0x34#8) ∧
    decode .sped [0xE5#8] = .ok (.sped 7#3 0#2 5#3) ∧ decode .option [0xFF#8] = .ok (.option 3#2 1#1 3#2) ∧
    decode .option [0x40#8] = .ok (.option 1#2 0#1 0#2) ∧ decode .transmode [0x2B#8] = .ok (.transmode 0#1 0#1 0#1 3#3) ∧
    decode .transmode [0x51#8] = .ok (.transmode 0#1 1#1 1#1 1#3) ∧
    decode .header [0xC0#8, 0x00#8, 0x08#8] = .ok (.wfHeader 0xC0#8 0x00#8 0x08#8) ∧
    decode .header [0xFF#8, 0x02#8, 0x01#8] = .ok (.wfHeader 0xFF#8 0x02#8 0x01#8) ∧
    decode .header [0xCF#8, 0xCF#8, 0x00#8] = .ok (.wfHeader 0xCF#8 0xCF#8 0x00#8) ∧
    decode .header [0x00#8, 0x00#8, 0x08#8] = .error .unknownCode ∧
    decode .body [0x00#8, 0x01#8, 0x62#8, 0x1C#8, 0x17#8, 0x2B#8, 0x00#8, 0x00#8] = .ok (.cfgBody
      { addh := 0#8, addl := 1#8, airrate := 2#3, parity := 0#2, baud := 3#3, power := 0#2, rssiNoise := 0#1,
        subpkt := 0#2, chan := 0x17#8, wor := 3#3, lbt := 0#1, fixed := 0#1, rssiEn := 0#1, crypth := 0#8,
        cryptl := 0#8 }) ∧
    decode .respFull [0xC1#8, 0x00#8, 0x08#8, 0x00#8, 0x01#8, 0x62#8, 0x00#8, 0x17#8, 0x03#8, 0x00#8, 0x00#8] =
      .ok (.cfgResp 0x00#8 0x08#8 ⟨0x00#8, 0x01#8, 0x62#8, 0x00#8, 0x17#8, 0x03#8, 0x00#8, 0x00#8⟩) ∧
    decode .respInfo [0xC1#8, 0x08#8, 0x03#8, 0x20#8, 0x0A#8, 0x16#8] =
      .ok (.infoResp 0x08#8 0x03#8 0x20#8 0x0A#8 0x16#8) ∧
    decode (.respWindow .channel) [0xC1#8, 0x04#8, 0x01#8, 0x17#8] = .ok (.regRespChannel 0x04#8 0x01#8 0x17#8) ∧
    decode .transparent [0x48#8, 0x69#8] = .ok (.msgTransparent [0x48#8, 0x69#8]) ∧
    decode .fixedMsg [0x00#8, 0x03#8, 0x17#8, 0x48#8] = .ok (.msgFixed 0x00#8 0x03#8 0x17#8 [0x48#8]) ∧
    decode .broadcast [0xFF#8, 0xFF#8, 0x17#8, 0x48#8] = .ok (.msgBcast 0x17#8 [0x48#8]) ∧
    decode .remote [0x00#8, 0x03#8, 0x17#8, 0xC2#8, 0x00#8, 0x08#8, 0x00#8, 0x01#8, 0x62#8, 0x00#8, 0x17#8, 0x03#8,
        0x00#8, 0x00#8] = .ok (.msgRemoteCfg 0x00#8 0x03#8 0x17#8 .writeVolatile
      { addh := 0#8, addl := 1#8, airrate := 2#3, parity := 0#2, baud := 3#3, power := 0#2, rssiNoise := 0#1,
        subpkt := 0#2, chan := 0x17#8, wor := 3#3, lbt := 0#1, fixed := 0#1, rssiEn := 0#1, crypth := 0#8,
        cryptl := 0#8 }) ∧
    decode (.received 2 true) [0x48#8, 0x69#8, 0xB0#8] = .ok (.msgReceived [0x48#8, 0x69#8] (some 0xB0#8)) ∧
    decode .request [0xC0#8, 0x00#8, 0x08#8, 0x00#8, 0x01#8, 0x62#8, 0x00#8, 0x17#8, 0x03#8, 0x00#8, 0x00#8] =
      .ok (.cfgWriteReq .persistent
        { addh := 0#8, addl := 1#8, airrate := 2#3, parity := 0#2, baud := 3#3, power := 0#2, rssiNoise := 0#1,
          subpkt := 0#2, chan := 0x17#8, wor := 3#3, lbt := 0#1, fixed := 0#1, rssiEn := 0#1, crypth := 0#8,
          cryptl := 0#8 }) ∧
    decode .pins [0b10#8] = .ok .modeWorTx ∧ decode .code [0xCF#8] = .ok .cmdSpecialExtended ∧
    decodeTableWord 24 0xC10803 = some .infoReadReq

/-- R100 to R103, R120 to R122: the bit places, as sums. -/
def Obligations.PackedBytesHaveTheSpecsBitPlaces : Prop :=
  (∀ (b : BitVec 3) (p : BitVec 2) (a : BitVec 3),
      (packSped b p a).toNat = b.toNat * 32 + p.toNat * 8 + a.toNat) ∧
    (∀ (u : BitVec 2) (n : BitVec 1) (w : BitVec 2),
      (packOption u n w).toNat = u.toNat * 64 + n.toNat * 32 + w.toNat) ∧
    (∀ (r f t : BitVec 1) (k : BitVec 3),
      (packTransmode r f t k).toNat = r.toNat * 128 + f.toNat * 64 + t.toNat * 16 + k.toNat)

/-- R131: the round trip, both ways, body, windows and 11-byte form. -/
def Obligations.CodecRoundTripIsLossless : Prop :=
  (∀ c old : CfgBody, decodeBody (encodeBody c) old = c) ∧
    (∀ (b0 b1 b2 b3 b4 b5 b6 b7 : Byte) (c : CfgBody), encodeBody (decodeBody [b0, b1, b2, b3, b4, b5, b6, b7] c) =
      [b0, b1, b2, b3 &&& 0xE3#8, b4, b5 &&& 0xD7#8, b6, b7]) ∧
    (∀ (w : Window) (c : CfgBody), windowStore w (windowPayload w c) c = c ∧
      ∀ old : CfgBody, windowPayload w (windowStore w (windowPayload w c) old) = windowPayload w c) ∧
    (∀ (c : CfgBody) (x y : Byte), windowPayload .speed (windowStore .speed [x] c) = [x] ∧
      windowPayload .option (windowStore .option [x] c) = [x &&& 0xE3#8] ∧
      windowPayload .channel (windowStore .channel [x] c) = [x] ∧
      windowPayload .crypt (windowStore .crypt [x, y] c) = [x, y] ∧
      windowPayload .transmode (windowStore .transmode [x] c) = [x &&& 0xD7#8]) ∧
    (∀ (h old : Header) (c cold : CfgBody), headerOf (h.toList ++ encodeBody c) old = h ∧
      decodeBody ((h.toList ++ encodeBody c).drop 3) cold = c) ∧
    (∀ (x y z b0 b1 b2 b3 b4 b5 b6 b7 : Byte) (old : Header) (c : CfgBody),
      (headerOf [x, y, z, b0, b1, b2, b3, b4, b5, b6, b7] old).toList ++
          encodeBody (decodeBody ([x, y, z, b0, b1, b2, b3, b4, b5, b6, b7].drop 3) c) =
        [x, y, z, b0, b1, b2, b3 &&& 0xE3#8, b4, b5 &&& 0xD7#8, b6, b7])

/-- R125: ENCCFG. -/
def Obligations.EnccfgEncodesTheFields : Prop :=
  ∀ s : State, ∃ t, exec .enccfg s = .next t ∧
    t = { s with tbuf := t.tbuf, dlen := if s.arg0.toNat % 2 = 1 then 11#16 else 8#16, status := .success,
                 busy := 0#1, seq := .idle } ∧
    ∀ a, t.tbuf.read a =
      (if s.arg0.toNat % 2 = 1 then [s.cfgHdr.command, s.cfgHdr.startAddr, s.cfgHdr.length] ++ s.cfg.wire
        else s.cfg.wire).getD a (s.tbuf.read a)

/-- R126: DECCFG. -/
def Obligations.DeccfgDecodesTheBuffer : Prop :=
  ∀ s : State,
    (s.arg0.toNat % 2 = 0 → s.rlen.toNat = 8 → exec .deccfg s = .next { s with
      cfg := CfgBody.ofWire s.rbuf.read, status := .success, busy := 0#1, seq := .idle }) ∧
    (s.arg0.toNat % 2 = 1 → s.rlen.toNat = 11 → exec .deccfg s = .next { s with
      cfgHdr := ⟨s.rbuf.read 0, s.rbuf.read 1, s.rbuf.read 2⟩, cfg := CfgBody.ofWire (fun k => s.rbuf.read (3 + k)),
      status := .success, busy := 0#1, seq := .idle }) ∧
    (s.rlen.toNat ≠ (if s.arg0.toNat % 2 = 1 then 11 else 8) → exec .deccfg s = .next { s with
      status := .dataSizeMismatch, busy := 0#1, seq := .idle })

/-- R128: ENCREG. -/
def Obligations.EncregEncodesOneWindow : Prop :=
  ∀ s : State,
    (1 ≤ s.arg0.toNat → s.arg0.toNat ≤ 5 → ∃ t, exec .encreg s = .next t ∧
      t = { s with tbuf := t.tbuf, dlen := BitVec.ofNat 16 (windowCount s.arg0.toNat), status := .success,
                   busy := 0#1, seq := .idle } ∧
      (s.cfg.window s.arg0.toNat).length = windowCount s.arg0.toNat ∧
      ∀ a, t.tbuf.read a = (s.cfg.window s.arg0.toNat).getD a (s.tbuf.read a)) ∧
    (s.arg0.toNat = 0 ∨ 6 ≤ s.arg0.toNat → exec .encreg s = .next { s with
      status := .invalidParameter, busy := 0#1, seq := .idle })

/-- R129: DECREG. -/
def Obligations.DecregDecodesOneWindow : Prop :=
  ∀ s : State,
    (1 ≤ s.arg0.toNat → s.arg0.toNat ≤ 5 →
      (s.rlen.toNat = windowCount s.arg0.toNat → exec .decreg s = .next { s with
        cfg := s.cfg.withWindow s.arg0.toNat s.rbuf.read, status := .success, busy := 0#1, seq := .idle }) ∧
      (s.rlen.toNat ≠ windowCount s.arg0.toNat → exec .decreg s = .next { s with
        status := .dataSizeMismatch, busy := 0#1, seq := .idle })) ∧
    (s.arg0.toNat = 0 ∨ 6 ≤ s.arg0.toNat → exec .decreg s = .next { s with
      status := .invalidParameter, busy := 0#1, seq := .idle })

/-- R130: DECINFO. -/
def Obligations.DecinfoDecodesTheIdentity : Prop :=
  ∀ s : State,
    (s.rlen.toNat = 6 → exec .decinfo s = .next { s with
      info := ⟨⟨s.rbuf.read 0, s.rbuf.read 1, s.rbuf.read 2⟩, s.rbuf.read 3, s.rbuf.read 4, s.rbuf.read 5⟩,
      status := .success, busy := 0#1, seq := .idle }) ∧
    (s.rlen.toNat ≠ 6 → exec .decinfo s = .next { s with
      status := .dataSizeMismatch, busy := 0#1, seq := .idle })

/-- R119: every codec command "completes in zero ticks, calls no stream primitive, reads no input pin". -/
def Obligations.CodecCommandsNeverTouchTheLink : Prop :=
  ∀ (i : Instr) (s : State) (l : Link), i ∈ [Instr.enccfg, .deccfg, .encreg, .decreg, .decinfo] →
    ∃ t, exec i s = .next t ∧ t.link = s.link ∧ exec i { s with link := l } = .next { t with link := l }

/-- R136 with R139: SETMODE. `WaitOutcome` says what the samples decide. -/
def Obligations.SetmodeFollowsTheTransitionTable : Prop :=
  ∀ s : State, 1 ≤ s.params.tPoll →
    (4 ≤ s.arg0.toNat → exec .setmode s = .next { s with
      status := .invalidParameter, busy := 0#1, seq := .idle }) ∧
    (s.arg0.toNat = 3 → s.linkBaud ≠ 9600 → exec .setmode s = .next { s with
      status := .wrongUartConfig, busy := 0#1, seq := .idle }) ∧
    (s.arg0.toNat ≤ 3 → (s.arg0.toNat = 3 → s.linkBaud = 9600) →
      ∃ (m : Mode) (l1 l : Link) (vs : List Bool) (st : Status), m.code.toNat = s.arg0.toNat ∧
        l1.m0 = BitVec.ofNat 1 s.arg0.toNat ∧ l1.m1 = BitVec.ofNat 1 (s.arg0.toNat / 2) ∧
        l1.hist = s.link.hist ++ [.pinM0 l1.m0, .pinM1 l1.m1] ∧ l1.ticks = s.link.ticks ∧
        (∃ extra, l1.rxfifo = s.link.rxfifo ++ extra) ∧
        (∀ v, s.link.auxHolds v = true → l1.auxHolds v = true) ∧
        WaitOutcome s.params (if s.params.auxWired then s.params.tSettleTimeout else s.params.tSettleDelay)
          s.params.tPoll l1 l [] vs st ∧
        exec .setmode s = .next { s with
          link := l, mode := if st = .success then m else s.mode, status := st, busy := 0#1, seq := .idle })

/-- R138: GETMODE. -/
def Obligations.GetmodeReturnsTheRecordedMode : Prop :=
  ∀ s : State, exec .getmode s = .next { s with
    result := BitVec.ofNat 16 s.mode.code.toNat, status := .success, busy := 0#1, seq := .idle }

/-- R140: "Nothing other than SETMODE changes `MODE`, `M0` or `M1`." -/
def Obligations.OnlySetmodeChangesModeAndPins : Prop :=
  ∀ s t : State, step s = .next t → (s.seq = .run → s.cmd ≠ 0x20#8) →
    t.mode = s.mode ∧ t.link.m0 = s.link.m0 ∧ t.link.m1 = s.link.m1

/-- R146, R154, R156: WAITCOMPLETE. -/
def Obligations.WaitcompleteFollowsTheSchedule : Prop :=
  ∀ s : State,
    (s.argp = 0 → exec .waitcomplete s = .next { s with
      status := .invalidParameter, busy := 0#1, seq := .idle }) ∧
    (1 ≤ s.argp → ∃ (l : Link) (vs : List Bool) (st : Status),
      WaitOutcome s.params s.argt s.argp s.link l [] vs st ∧
      exec .waitcomplete s = .next { s with link := l, status := st, busy := 0#1, seq := .idle })

/-- R152, R162 to R165: the sends. `sendTable` holds each one's limit and frame. -/
def Obligations.SendsTransmitOneWholeFrameThenWait : Prop :=
  ∀ (i : Instr) (s : State) (limit : Nat) (frame : List Byte), sendTable i s = some (limit, frame) →
    1 ≤ s.params.tPoll →
    (limit < s.dlen.toNat → exec i s = .next { s with status := .packetTooBig, busy := 0#1, seq := .idle }) ∧
    (s.dlen.toNat ≤ limit → ∃ (l : Link) (vs : List Bool) (st : Status),
      WaitOutcome s.params s.params.tRespTimeout s.params.tPoll s.link l (frame.map .tx) vs st ∧
      exec i s = .next { s with link := l, status := st, busy := 0#1, seq := .idle })

/-- R155: DRAIN. The discard entry of the history is the model's choice (log entry 11). -/
def Obligations.DrainEmptiesTheFifo : Prop :=
  ∀ s : State, ∃ l : Link, l.rxfifo = [] ∧ l.hist = s.link.hist ++ [.rxClear] ∧ l.m0 = s.link.m0 ∧
    l.m1 = s.link.m1 ∧ l.ticks = s.link.ticks ∧
    exec .drain s = .next { s with link := l, status := .success, busy := 0#1, seq := .idle }

/-- R153: RECVSTRUCT. -/
def Obligations.RecvstructReadsAFramedReply : Prop :=
  ∀ s : State,
    (s.arg0.toNat = 0 → exec .recvstruct s = .next { s with
      status := .invalidParameter, busy := 0#1, seq := .idle }) ∧
    (200 < s.arg0.toNat → exec .recvstruct s = .next { s with
      status := .bufferTooSmall, busy := 0#1, seq := .idle }) ∧
    (1 ≤ s.arg0.toNat → s.arg0.toNat ≤ 200 → ∃ (t : State) (got : List Byte), exec .recvstruct s = .next t ∧
      ReadOutcome s.arg0.toNat s.params.tReadTimeout s.link t.link got ∧
      t.status = framedStatus got s.arg0.toNat s.arg1 .headNotRecognized ∧
      (t.status = .success →
        t = { s with link := t.link, rbuf := t.rbuf, rlen := s.arg0, status := .success, busy := 0#1, seq := .idle } ∧
        ∀ a, t.rbuf.read a = got.getD a (s.rbuf.read a)) ∧
      (t.status ≠ .success → t = { s with link := t.link, rbuf := t.rbuf, draws := t.draws, rlen := 0#8,
                                          status := t.status, busy := 0#1, seq := .idle }))

/-- R168: RECVMSG. -/
def Obligations.RecvmsgReadsExactlyItsSize : Prop :=
  ∀ s : State,
    (200 < s.arg0.toNat → exec .recvmsg s = .next { s with
      status := .bufferTooSmall, busy := 0#1, seq := .idle }) ∧
    (s.arg0.toNat ≤ 200 → ∃ (t : State) (got : List Byte), exec .recvmsg s = .next t ∧
      ReadOutcome s.arg0.toNat s.params.tReadTimeout s.link t.link got ∧
      (got.length = s.arg0.toNat →
        t = { s with link := t.link, rbuf := t.rbuf, rlen := s.arg0, rssiValid := 0#1, status := .success,
                     busy := 0#1, seq := .idle } ∧
        ∀ a, t.rbuf.read a = got.getD a (s.rbuf.read a)) ∧
      (got.length < s.arg0.toNat →
        t = { s with link := t.link, rbuf := t.rbuf, draws := t.draws, rlen := 0#8, rssiValid := 0#1,
                     status := if got = [] then .noResponseFromDevice else .dataSizeMismatch,
                     busy := 0#1, seq := .idle }))

/-- R169: RECVMSGRSSI. -/
def Obligations.RecvmsgrssiTakesTheLastByteAsRssi : Prop :=
  ∀ s : State,
    (200 < s.arg0.toNat → exec .recvmsgrssi s = .next { s with
      status := .bufferTooSmall, busy := 0#1, seq := .idle }) ∧
    (s.arg0.toNat ≤ 200 → ∃ (t : State) (got : List Byte), exec .recvmsgrssi s = .next t ∧
      ReadOutcome (s.arg0.toNat + 1) s.params.tReadTimeout s.link t.link got ∧
      (got.length = s.arg0.toNat + 1 →
        t = { s with link := t.link, rbuf := t.rbuf, rlen := s.arg0, rssi := got.getD s.arg0.toNat 0#8,
                     rssiValid := 1#1, status := .success, busy := 0#1, seq := .idle } ∧
        ∀ a, t.rbuf.read a = (got.take s.arg0.toNat).getD a (s.rbuf.read a)) ∧
      (got.length < s.arg0.toNat + 1 →
        t = { s with link := t.link, rbuf := t.rbuf, draws := t.draws, rlen := 0#8, rssiValid := 0#1,
                     status := if got = [] then .noResponseFromDevice else .dataSizeMismatch,
                     busy := 0#1, seq := .idle }))

/-- R172: RECVCOMPLETE. In DrainOutcome the clause on a paced device rests on the points of log entry 3 (the model's choice). -/
def Obligations.RecvcompleteDrainsUntilQuiet : Prop :=
  ∀ s : State,
    (200 < s.arg0.toNat → exec .recvcomplete s = .next { s with
      status := .bufferTooSmall, busy := 0#1, seq := .idle }) ∧
    (s.arg0.toNat ≤ 200 → ∃ (t : State) (got : List Byte), exec .recvcomplete s = .next t ∧
      DrainOutcome s.params (s.arg0.toNat + s.arg1.toNat % 2) s.params.tQuiesce s.link t.link got ∧
      (got = [] → 0 < s.arg0.toNat + s.arg1.toNat % 2 →
        t = { s with link := t.link, rbuf := t.rbuf, draws := t.draws, rlen := 0#8, rssiValid := 0#1,
                     status := .noResponseFromDevice, busy := 0#1, seq := .idle }) ∧
      (got ≠ [] → s.arg1.toNat % 2 = 1 →
        t = { s with link := t.link, rbuf := t.rbuf, rlen := BitVec.ofNat 8 (got.length - 1),
                     rssi := got.getD (got.length - 1) 0#8, rssiValid := 1#1, status := .success,
                     busy := 0#1, seq := .idle } ∧
        ∀ a, t.rbuf.read a = (got.take (got.length - 1)).getD a (s.rbuf.read a)) ∧
      (got ≠ [] ∨ s.arg0.toNat = 0 → s.arg1.toNat % 2 = 0 →
        t = { s with link := t.link, rbuf := t.rbuf, rlen := BitVec.ofNat 8 got.length, rssiValid := 0#1,
                     status := .success, busy := 0#1, seq := .idle } ∧
        ∀ a, t.rbuf.read a = got.getD a (s.rbuf.read a)))

/-- R174: RECVUNTIL. In UntilOutcome the clause on a paced device rests on the points of log entry 3 (the model's choice). -/
def Obligations.RecvuntilStopsAtTheDelimiter : Prop :=
  ∀ s : State, s.params.nUntilMax ≤ 200 → ∃ (t : State) (got tail : List Byte), exec .recvuntil s = .next t ∧
    UntilOutcome s.params s.arg0 s.params.nUntilMax s.params.tReadTimeout s.link t.link got tail t.status ∧
    t = { s with link := t.link, rbuf := t.rbuf, rlen := t.rlen, rssiValid := 0#1, status := t.status,
                 busy := 0#1, seq := .idle } ∧
    t.rlen.toNat = got.length ∧ ∀ a, t.rbuf.read a = got.getD a (s.rbuf.read a)

/-- R175: AVAILABLE. -/
def Obligations.AvailableCountsAndConsumesNothing : Prop :=
  ∀ s : State, ∃ l : Link, (∃ extra, l.rxfifo = s.link.rxfifo ++ extra ∧ (s.link.noArrivals = true → extra = [])) ∧
    l.hist = s.link.hist ∧ l.m0 = s.link.m0 ∧ l.m1 = s.link.m1 ∧ l.ticks = s.link.ticks ∧
    exec .available s = .next { s with
      link := l, result := BitVec.ofNat 16 (min l.rxfifo.length 65535), status := .success,
      busy := 0#1, seq := .idle }

/-- R176: no messaging command reads MODE. -/
def Obligations.MessagingNeverReadsMode : Prop :=
  ∀ (i : Instr) (s : State) (m : Mode),
    i ∈ [Instr.sendmsg, .sendfixed, .sendbcast, .recvmsg, .recvmsgrssi, .recvcomplete, .recvuntil, .available] →
    ∃ t, exec i s = .next t ∧ exec i { s with mode := m } = .next { t with mode := m }

/-- R136, R146, R152, R154, R163 to R165, with R239 and R243: where the commands that wait complete with their own effect. -/
def Obligations.ReadyDevicesLetWaitingCommandsSucceed : Prop :=
  ∀ s : State, 1 ≤ s.params.tPoll → (s.params.auxWired = true → s.link.auxHolds true = true) →
    (s.arg0.toNat ≤ 3 → (s.arg0.toNat = 3 → s.linkBaud = 9600) → ∃ (l : Link) (m : Mode),
      m.code.toNat = s.arg0.toNat ∧
      l.hist = s.link.hist ++ [.pinM0 l.m0, .pinM1 l.m1] ++ (if s.params.auxWired then [.auxSample true] else []) ∧
      l.m0.toNat = s.arg0.toNat % 2 ∧ l.m1.toNat = s.arg0.toNat / 2 ∧
      l.ticks = s.link.ticks + (if s.params.auxWired then 0 else s.params.tSettleDelay) ∧
      exec .setmode s = .next { s with link := l, mode := m, status := .success, busy := 0#1, seq := .idle }) ∧
    (1 ≤ s.argp → ∃ l : Link,
      l.hist = s.link.hist ++ (if s.params.auxWired then [.auxSample true] else []) ∧
      l.ticks = s.link.ticks + (if s.params.auxWired then 0 else s.argt) ∧
      exec .waitcomplete s = .next { s with link := l, status := .success, busy := 0#1, seq := .idle }) ∧
    (∀ (i : Instr) (limit : Nat) (frame : List Byte), sendTable i s = some (limit, frame) → s.dlen.toNat ≤ limit →
      ∃ l : Link,
        l.hist = s.link.hist ++ frame.map .tx ++ (if s.params.auxWired then [.auxSample true] else []) ∧
        l.ticks = s.link.ticks + (if s.params.auxWired then 0 else s.params.tRespTimeout) ∧
        exec i s = .next { s with link := l, status := .success, busy := 0#1, seq := .idle })

/-- R147, R153, R168, R169, R172, R174: where the receives complete with their own effect. -/
def Obligations.BufferedReceivesSucceedAtOnce : Prop :=
  ∀ (s : State) (bs rest : List Byte), s.params.nUntilMax ≤ 200 →
    (s.link.rxfifo = bs ++ rest → bs.length ≤ 200 → s.arg0.toNat = bs.length → bs.head? = some s.arg1 →
      ∃ t, exec .recvstruct s = .next t ∧ t.status = .success ∧ t.rlen = s.arg0 ∧
        (∀ a, t.rbuf.read a = bs.getD a (s.rbuf.read a)) ∧ t.link.ticks = s.link.ticks ∧
        ∃ extra, t.link.rxfifo = rest ++ extra) ∧
    (s.link.rxfifo = bs ++ rest → bs.length ≤ 200 → s.arg0.toNat = bs.length →
      ∃ t, exec .recvmsg s = .next t ∧ t.status = .success ∧ t.rlen = s.arg0 ∧ t.rssiValid = 0#1 ∧
        (∀ a, t.rbuf.read a = bs.getD a (s.rbuf.read a)) ∧ t.link.ticks = s.link.ticks ∧
        ∃ extra, t.link.rxfifo = rest ++ extra) ∧
    (∀ r : Byte, s.link.rxfifo = bs ++ r :: rest → bs.length ≤ 200 → s.arg0.toNat = bs.length →
      ∃ t, exec .recvmsgrssi s = .next t ∧ t.status = .success ∧ t.rlen = s.arg0 ∧ t.rssi = r ∧ t.rssiValid = 1#1 ∧
        (∀ a, t.rbuf.read a = bs.getD a (s.rbuf.read a)) ∧ t.link.ticks = s.link.ticks ∧
        ∃ extra, t.link.rxfifo = rest ++ extra) ∧
    (∀ r : Byte, s.link.rxfifo = bs ++ r :: rest → bs.length ≤ 200 → s.arg0.toNat = bs.length →
      s.arg1.toNat % 2 = 1 →
      ∃ t, exec .recvcomplete s = .next t ∧ t.status = .success ∧ t.rlen = s.arg0 ∧ t.rssi = r ∧ t.rssiValid = 1#1 ∧
        (∀ a, t.rbuf.read a = bs.getD a (s.rbuf.read a)) ∧ t.link.ticks = s.link.ticks ∧
        ∃ extra, t.link.rxfifo = rest ++ extra) ∧
    (s.link.rxfifo = bs ++ s.arg0 :: rest → s.arg0 ∉ bs → bs.length < s.params.nUntilMax →
      ∃ t, exec .recvuntil s = .next t ∧ t.status = .success ∧ t.rlen.toNat = bs.length ∧ t.rssiValid = 0#1 ∧
        (∀ a, t.rbuf.read a = bs.getD a (s.rbuf.read a)) ∧ t.link.ticks = s.link.ticks ∧
        ∃ extra, t.link.rxfifo = rest ++ extra)

/-- R180, R188, R206: the order of checks. `localRequest` answers none exactly for illegal operands. -/
def Obligations.LocalConfigurationChecksOperandsThenMode : Prop :=
  ∀ (i : Instr) (s : State), i ∈ [Instr.getcfg, .setcfg, .getinfo, .readreg, .writereg] →
    (localRequest i s = none → exec i s = .next { s with
      status := .invalidParameter, busy := 0#1, seq := .idle }) ∧
    (localRequest i s ≠ none → s.mode ≠ .configuration → exec i s = .next { s with
      status := .notInitialized, busy := 0#1, seq := .idle })

/-- R151, R181 to R183, R186, R187, R201: one exchange. `localRequest` holds each command's request, response length and mismatch
status, `localStores` what it stores. The discard entry of the history is the model's choice (log entry 11). -/
def Obligations.LocalConfigurationIsOneExchange : Prop :=
  ∀ (i : Instr) (s : State) (req : List Byte) (n : Nat) (m : Status), localRequest i s = some (req, n, m) →
    s.mode = .configuration → 1 ≤ s.params.tPoll →
    ∃ (l1 l2 : Link) (t : State) (vs : List Bool) (got : List Byte) (waited : Status), exec i s = .next t ∧
      (l1.rxfifo = [] ∧ l1.hist = s.link.hist ++ [.rxClear] ∧ l1.m0 = s.link.m0 ∧ l1.m1 = s.link.m1 ∧
        l1.ticks = s.link.ticks ∧ (∀ v, s.link.auxHolds v = true → l1.auxHolds v = true) ∧
        (s.link.noArrivals = true → l1.noArrivals = true)) ∧
      WaitOutcome s.params s.params.tRespTimeout s.params.tPoll l1 l2 (req.map .tx) vs waited ∧
      (waited ≠ .success → got = [] ∧ t.link = l2 ∧ t.status = waited) ∧
      (waited = .success → ReadOutcome n s.params.tReadTimeout l2 t.link got ∧
        t.status = framedStatus got n 0xC1#8 m) ∧
      (t.status = .success →
        t = { s with link := t.link, rbuf := t.rbuf, rlen := BitVec.ofNat 8 n,
                     cfgHdr := (localStores i s (fun k => got.getD k 0#8)).1,
                     cfg := (localStores i s (fun k => got.getD k 0#8)).2.1,
                     info := (localStores i s (fun k => got.getD k 0#8)).2.2,
                     status := .success, busy := 0#1, seq := .idle } ∧
        ∀ a, t.rbuf.read a = got.getD a (s.rbuf.read a)) ∧
      (t.status ≠ .success → t = { s with link := t.link, rbuf := t.rbuf, draws := t.draws, rlen := 0#8,
                                          status := t.status, busy := 0#1, seq := .idle })

/-- R147, R151, R181 to R183, R186, R187: where a local configuration command completes with its own effect. The points of the
script and the discard entry are the model's choice (log entries 3 and 11). -/
def Obligations.AnsweredRequestsSucceed : Prop :=
  ∀ (i : Instr) (s : State) (req : List Byte) (n : Nat) (m : Status) (resp : List Byte),
    localRequest i s = some (req, n, m) → s.mode = .configuration → s.params.wf = true →
    s.link.answers (req.length + (if s.params.auxWired then 1 else s.params.tRespTimeout) + 2 * s.params.tReadTimeout) resp →
    resp.length = n → resp.head? = some 0xC1#8 →
    ∃ (t : State) (vs : List Bool), exec i s = .next t ∧
      ((s.params.auxWired = true → s.link.auxHolds true = true) →
        t.status = .success ∧ vs = if s.params.auxWired then [true] else []) ∧
      (t.status = .timeout ∨
        t = { s with link := t.link, rbuf := t.rbuf, rlen := BitVec.ofNat 8 n,
                     cfgHdr := (localStores i s (fun k => resp.getD k 0#8)).1,
                     cfg := (localStores i s (fun k => resp.getD k 0#8)).2.1,
                     info := (localStores i s (fun k => resp.getD k 0#8)).2.2,
                     status := .success, busy := 0#1, seq := .idle } ∧
        (∀ a, t.rbuf.read a = resp.getD a (s.rbuf.read a)) ∧
        t.link.hist = s.link.hist ++ [.rxClear] ++ req.map .tx ++ vs.map .auxSample ++ resp.map .rx)

/-- R184: RESETMOD. -/
def Obligations.ResetmodIsNotImplemented : Prop :=
  ∀ s : State, exec .resetmod s = .next { s with status := .notImplemented, busy := 0#1, seq := .idle }

/-- R185: SENDCFGMSG. -/
def Obligations.SendcfgmsgTransmitsFourteenBytes : Prop :=
  ∀ s : State,
    (s.arg3 = 0xC0#8 ∨ s.arg3 = 0xC1#8 ∨ s.arg3 = 0xC2#8 → ∃ l : Link,
      l.hist = s.link.hist ++ ([s.arg0, s.arg1, s.arg2, s.arg3, 0x00#8, 0x08#8] ++ s.cfg.wire).map .tx ∧
      (∃ extra, l.rxfifo = s.link.rxfifo ++ extra) ∧ l.m0 = s.link.m0 ∧ l.m1 = s.link.m1 ∧
      l.ticks = s.link.ticks ∧
      exec .sendcfgmsg s = .next { s with link := l, status := .success, busy := 0#1, seq := .idle }) ∧
    (¬ (s.arg3 = 0xC0#8 ∨ s.arg3 = 0xC1#8 ∨ s.arg3 = 0xC2#8) → exec .sendcfgmsg s = .next { s with
      status := .invalidParameter, busy := 0#1, seq := .idle })

/-- R112: the reserved opcodes. -/
def Obligations.ReservedOpcodesAreNotSupported : Prop :=
  ∀ (op : Byte) (s : State),
    op.toNat ≤ 0x0F ∨ (0x15 ≤ op.toNat ∧ op.toNat ≤ 0x1F) ∨ (0x22 ≤ op.toNat ∧ op.toNat ≤ 0x2F) ∨
      (0x34 ≤ op.toNat ∧ op.toNat ≤ 0x3F) ∨ (0x48 ≤ op.toNat ∧ op.toNat ≤ 0x4F) ∨ 0x57 ≤ op.toNat →
    decodeOpcode op = .reserved op ∧
    exec (.reserved op) s = .next { s with status := .notSupported, busy := 0#1, seq := .idle }

/-- R64, R66, R67, R148, R162, R185: a frame is handed to `TxWrite` whole. That a frame row means the command that sends it is the
model's reading (log entry 4). -/
def Obligations.FramesToTheDeviceAreTransmitted : Prop :=
  ∀ (i : Instr) (s : State), i.toDevice = true → 1 ≤ s.params.tPoll →
    (i.wf = true → (∀ h l c q body, i ≠ .msgRemoteCfg h l c q body) → ∃ (l : Link) (vs : List Bool) (st : Status),
      WaitOutcome s.params s.params.tRespTimeout s.params.tPoll s.link l ((encode i).map .tx) vs st ∧
      exec i s = .next { s with link := l, status := st, busy := 0#1, seq := .idle }) ∧
    ((∃ h l c q body, i = .msgRemoteCfg h l c q body) → ∃ l : Link,
      l.hist = s.link.hist ++ (encode i).map .tx ∧ (∃ extra, l.rxfifo = s.link.rxfifo ++ extra) ∧
      l.m0 = s.link.m0 ∧ l.m1 = s.link.m1 ∧ l.ticks = s.link.ticks ∧
      exec i s = .next { s with link := l, status := .success, busy := 0#1, seq := .idle }) ∧
    (i.wf = false → exec i s = .next { s with status := .packetTooBig, busy := 0#1, seq := .idle })

/-- R71: arrival. That a frame row means this is the model's reading (log entry 4). -/
def Obligations.FramesFromTheDeviceArrive : Prop :=
  ∀ (i : Instr) (s : State), i.fromDevice = true → exec i s = .next { s with link := { s.link with
    rxfifo := s.link.rxfifo ++ (match s.params.rxDepth with
      | none => encode i
      | some d => (encode i).take (d - s.link.rxfifo.length)) } }

/-- R106, R135, R136, R140: the pin pairs, M0 first, inside SETMODE. That a pin-pair row means the SETMODE of its mode is the
model's reading (log entry 4). -/
def Obligations.PinPairsDriveBothPins : Prop :=
  ∀ (s : State) (i : Instr) (m : Mode) (v0 v1 : BitVec 1),
    (i, m, v0, v1) ∈ [(Instr.modeNormal, Mode.normal, 0#1, 0#1), (Instr.modeWorTx, Mode.worTransmitter, 1#1, 0#1),
      (Instr.modeWorRx, Mode.worReceiver, 0#1, 1#1), (Instr.modeConfiguration, Mode.configuration, 1#1, 1#1)] →
    1 ≤ s.params.tPoll →
    (m = .configuration → s.linkBaud ≠ 9600 → exec i s = .next { s with
      status := .wrongUartConfig, busy := 0#1, seq := .idle }) ∧
    ((m = .configuration → s.linkBaud = 9600) → ∃ (l1 l : Link) (vs : List Bool) (st : Status),
      l1.m0 = v0 ∧ l1.m1 = v1 ∧ l1.hist = s.link.hist ++ [.pinM0 v0, .pinM1 v1] ∧ l1.ticks = s.link.ticks ∧
      (∃ extra, l1.rxfifo = s.link.rxfifo ++ extra) ∧
      WaitOutcome s.params (if s.params.auxWired then s.params.tSettleTimeout else s.params.tSettleDelay)
        s.params.tPoll l1 l [] vs st ∧
      ((s.params.auxWired = true → s.link.auxHolds true = true) → st = .success) ∧
      exec i s = .next { s with
        link := l, mode := if st = .success then m else s.mode, status := st, busy := 0#1, seq := .idle }) ∧
    (s.arg0.toNat = m.code.toNat → exec i s = exec .setmode s ∧
      (s.seq = .run → s.undisturbed = true → s.cmd = 0x20#8 → step s = exec i s))

/-- R37, R60, R92, R95, R120 to R124, R126, R129: the decode of each part. That a part row means the command that decodes it is
the model's reading (log entry 4). -/
def Obligations.PartsGoWhereTheCodecPutsThem : Prop :=
  ∀ (s : State) (c : CfgBody) (x y z : Byte),
    exec (.wfHeader x y z) s = .next { s with cfgHdr := ⟨x, y, z⟩, status := .success, busy := 0#1, seq := .idle } ∧
    exec (.sped c.baud c.parity c.airrate) s = .next { s with
      cfg := { s.cfg with baud := c.baud, parity := c.parity, airrate := c.airrate },
      status := .success, busy := 0#1, seq := .idle } ∧
    exec (.option c.subpkt c.rssiNoise c.power) s = .next { s with
      cfg := { s.cfg with subpkt := c.subpkt, rssiNoise := c.rssiNoise, power := c.power },
      status := .success, busy := 0#1, seq := .idle } ∧
    exec (.transmode c.rssiEn c.fixed c.lbt c.wor) s = .next { s with
      cfg := { s.cfg with rssiEn := c.rssiEn, fixed := c.fixed, lbt := c.lbt, wor := c.wor },
      status := .success, busy := 0#1, seq := .idle } ∧
    exec (.cfgBody c) s = .next { s with cfg := c, status := .success, busy := 0#1, seq := .idle } ∧
    exec .cmdWritePersistent s = .next { s with
      cfgHdr := { s.cfgHdr with command := 0xC0#8 }, status := .success, busy := 0#1, seq := .idle } ∧
    exec .cmdRead s = .next { s with
      cfgHdr := { s.cfgHdr with command := 0xC1#8 }, status := .success, busy := 0#1, seq := .idle } ∧
    exec .cmdWriteVolatile s = .next { s with
      cfgHdr := { s.cfgHdr with command := 0xC2#8 }, status := .success, busy := 0#1, seq := .idle } ∧
    exec .cmdWrongFormat s = .next { s with
      cfgHdr := { s.cfgHdr with command := 0xFF#8 }, status := .success, busy := 0#1, seq := .idle }

/-- R113, U9: "no command of this spec emits or expects it, and a model must not invent the path". -/
def Obligations.SpecialExtendedCodeIsRefused : Prop :=
  ∀ s : State, exec .cmdSpecialExtended s = .refused .specialExtendedPath

/-- R200: refusals of operands and preconditions "leave everything except `STATUS` untouched". -/
def Obligations.RefusalsTouchNothingButStatus : Prop :=
  ∀ (i : Instr) (s t : State), i.isCommand = true → exec i s = .next t → t.status.isRefusal = true →
    t = { s with status := t.status, busy := 0#1, seq := .idle }

/-- R198: `statusTable` is its column "raised by", read by command. R202: Unknown and HardwareError are raised by nothing. -/
def Obligations.EachCommandRaisesOnlyItsStatuses : Prop :=
  ∀ (i : Instr) (s t : State), i.isCommand = true → exec i s = .next t →
    t.status ∈ statusTable i ∧ t.status ≠ .unknown ∧ t.status ≠ .hardwareError ∧ t.status ≠ .none

/-- R26's column "written by", with R30 to R36, R51, R87. -/
def Obligations.CommandsWriteOnlyTheRegistersNamedForThem : Prop :=
  ∀ (i : Instr) (s t : State), i.isCommand = true → exec i s = .next t →
    (t.busy = 0#1 ∧ t.seq = .idle ∧ t.cmd = s.cmd ∧ t.arg0 = s.arg0 ∧ t.arg1 = s.arg1 ∧ t.arg2 = s.arg2 ∧
      t.arg3 = s.arg3 ∧ t.argt = s.argt ∧ t.argp = s.argp ∧ t.linkBaud = s.linkBaud ∧ t.params = s.params ∧
      t.sched = s.sched ∧ t.reads = s.reads) ∧
    (i ∉ [Instr.setmode] → t.mode = s.mode ∧ t.link.m0 = s.link.m0 ∧ t.link.m1 = s.link.m1) ∧
    (i ∉ [Instr.getmode, .available] → t.result = s.result) ∧
    (i ∉ [Instr.enccfg, .encreg] → t.dlen = s.dlen ∧ ∀ a, t.tbuf.read a = s.tbuf.read a) ∧
    (i ∉ [Instr.recvstruct, .recvmsg, .recvmsgrssi, .recvcomplete, .recvuntil, .getcfg, .setcfg, .getinfo, .readreg,
        .writereg] → t.rlen = s.rlen ∧ ∀ a, t.rbuf.read a = s.rbuf.read a) ∧
    (i ∉ [Instr.recvmsgrssi, .recvcomplete] → t.rssi = s.rssi) ∧
    (i ∉ [Instr.recvmsg, .recvmsgrssi, .recvcomplete, .recvuntil] → t.rssiValid = s.rssiValid) ∧
    (i ∉ [Instr.deccfg, .getcfg] → t.cfgHdr = s.cfgHdr) ∧
    (i ∉ [Instr.deccfg, .getcfg] → t.cfg.addh = s.cfg.addh ∧ t.cfg.addl = s.cfg.addl) ∧
    (i ∉ [Instr.deccfg, .decreg, .getcfg, .readreg] → t.cfg = s.cfg) ∧
    (i ∉ [Instr.decinfo, .getinfo] → t.info = s.info)

/-- R249: the bounds. `tickBound` is that list. -/
def Obligations.TicksAreBoundedByTheSpecsTable : Prop :=
  ∀ (i : Instr) (s t : State), i.isCommand = true → exec i s = .next t →
    s.link.ticks ≤ t.link.ticks ∧ t.link.ticks ≤ s.link.ticks + tickBound i s ∧
    (t.status.isRefusal = true → t.link.ticks = s.link.ticks)

/-- R44, R72, R243: AUX not wired. -/
def Obligations.UnwiredAuxIsNeverSampled : Prop :=
  ∀ (i : Instr) (s t : State), i.isCommand = true → s.params.auxWired = false → exec i s = .next t →
    (∃ obs, t.link.hist = s.link.hist ++ obs ∧ samples obs = []) ∧ (t.status = .timeout → i = .recvuntil)

/-- R22, R66, R69, R73, R81: the history in order; a byte is consumed once, oldest first. The discard entry is the model's choice
(log entry 11). -/
def Obligations.HistoryAndTimeOnlyGrow : Prop :=
  ∀ s t : State, step s = .next t → s.link.ticks ≤ t.link.ticks ∧
    ∃ obs, t.link.hist = s.link.hist ++ obs ∧
      (.rxClear ∉ obs → ∃ extra, taken obs ++ t.link.rxfifo = s.link.rxfifo ++ extra)

/-- R27, R45, R83, R85: a row reaches a run through a command or an arrival. How it is started is the model's choice (log entries
4 and 5). -/
def Obligations.StepRunsTheRowItIsStartedOn : Prop :=
  ∀ (i : Instr) (s : State), i.wf = true →
    (i.fromDevice = false → i ≠ .cmdSpecialExtended →
      (s.startRow i).seq = .run ∧ (s.startRow i).busy = 1#1 ∧ (s.startRow i).undisturbed = true ∧
      step (s.startRow i) = exec i (s.startRow i)) ∧
    (i.fromDevice = true ∨ i = .cmdSpecialExtended →
      (s.startRow i).seq = .idle ∧ step (s.startRow i) = exec i { s with busy := 0#1, seq := .idle }) ∧
    (∀ nbits w, decodeTableWord nbits w = some i → s.withFetchWord nbits w = s.startRow i)

/-- R60, with R26's column "written by" as `commandsWriting`. -/
def Obligations.RegistersAreReachedByHostAndNamedCommandsOnly : Prop :=
  ∀ (s t : State) (r : Nat), step s = .next t → t.readReg r ≠ s.readReg r →
    (s.seq = .idle ∧ ∃ (k v : Nat) (rest : List Move),
      (s.sched = .host (.write (.reg k) v) :: rest ∨ s.sched = .hostNow (.write (.reg k) v) :: rest) ∧
      (k = r ∧ r ∈ (writableRegisters s.params.tw).map Prod.fst ∨ k = 0 ∧ r = 2)) ∨
    (s.seq = .run ∧ (r = 1 ∨ r = 2 ∨ decodeOpcode s.cmd ∈ commandsWriting r))

end
end

