-- ==== Sys2Proof/Laws/Link.lean ====
section
/-! SUPPORT. What each operation over the link can do, said once: `Flow p l l' obs k` says that going from `l` to `l'` the
history grew by `obs`, the bytes `obs` consumed and those still buffered are the old FIFO and then arrivals, the pins
stayed, and at most `k` ticks passed. Each operation's lemma gives its `Flow` and what its answer is. -/

namespace Sys2Proof.Machine

/-! ## The device's acts -/

theorem hasRoom_fits {p : Params} {n : Nat} (h : Params.hasRoom p n = true) : p.fits (n + 1) = true := by
  unfold Params.hasRoom at h
  unfold Params.fits
  cases hd : p.rxDepth with
  | none => rfl
  | some d => rw [hd] at h; simp at h ⊢; omega

theorem fits_mono {p : Params} {m n : Nat} (h : p.fits n = true) (le : m ≤ n) : p.fits m = true := by
  unfold Params.fits at *
  cases hd : p.rxDepth with
  | none => rfl
  | some d => simp [hd] at h ⊢; omega

/-- An arrival appends the byte where there is room, else changes nothing (R71). -/
theorem arrive_cases (p : Params) (l : Link) (b : Byte) :
    (Params.hasRoom p l.rxfifo.length = true ∧ l.arrive p b = { l with rxfifo := l.rxfifo ++ [b] }) ∨
    (Params.hasRoom p l.rxfifo.length = false ∧ l.arrive p b = l) := by
  unfold Link.arrive
  cases h : Params.hasRoom p l.rxfifo.length <;> simp

/-- What the device's acts do: they append to the FIFO, move the AUX level, and touch nothing else. -/
structure Acted (p : Params) (as : List DevAct) (l l' : Link) : Prop where
  same : l' = { l with rxfifo := l'.rxfifo, aux := l'.aux }
  rx : ∃ extra, l'.rxfifo = l.rxfifo ++ extra
  fits : p.fits l.rxfifo.length = true → p.fits l'.rxfifo.length = true
  aux : ∀ v, l.aux = v → (as.all (fun a => match a with | .aux w => w == v | .arrive _ => true)) = true → l'.aux = v
  calm : (as.all (fun a => match a with | .aux _ => true | .arrive _ => false)) = true → l'.rxfifo = l.rxfifo

theorem acts_spec (p : Params) (as : List DevAct) (l : Link) : Acted p as l (l.acts p as) := by
  induction as generalizing l with
  | nil => exact ⟨rfl, ⟨[], by simp [Link.acts]⟩, id, fun _ h _ => h, fun _ => rfl⟩
  | cons a as ih =>
    have key := ih (l.act p a)
    have eq : l.acts p (a :: as) = (l.act p a).acts p as := rfl
    rw [eq]
    obtain ⟨extra, hx⟩ := key.rx
    cases a with
    | aux v =>
      refine ⟨?_, ⟨extra, by simpa [Link.act] using hx⟩, key.fits, ?_, ?_⟩
      · have := key.same; simpa [Link.act] using this
      · intro w hw hall
        simp only [List.all_cons, Bool.and_eq_true, beq_iff_eq] at hall
        exact key.aux w hall.1 hall.2
      · intro h
        simp only [List.all_cons, Bool.true_and] at h
        exact key.calm h
    | arrive b =>
      rcases arrive_cases p l b with ⟨hr, he⟩ | ⟨hr, he⟩
      · have he' : l.act p (.arrive b) = { l with rxfifo := l.rxfifo ++ [b] } := he
        rw [he'] at key hx ⊢
        refine ⟨by simpa using key.same, ⟨b :: extra, by simpa using hx⟩, fun _ => key.fits ?_, ?_, ?_⟩
        · simpa using hasRoom_fits hr
        · intro w hw hall
          simp only [List.all_cons, Bool.true_and] at hall
          exact key.aux w hw hall
        · intro h; simp at h
      · have he' : l.act p (.arrive b) = l := he
        rw [he'] at key hx ⊢
        refine ⟨key.same, ⟨extra, hx⟩, key.fits, ?_, ?_⟩
        · intro w hw hall
          simp only [List.all_cons, Bool.true_and] at hall
          exact key.aux w hw hall
        · intro h; simp at h

/-! ## Flows -/

/-- What a run of link operations from `l` to `l'` can do (see the head of this file). -/
structure Flow (p : Params) (l l' : Link) (obs : List Obs) (k : Nat) : Prop where
  hist : l'.hist = l.hist ++ obs
  m0 : l'.m0 = l.m0
  m1 : l'.m1 = l.m1
  ticksLow : l.ticks ≤ l'.ticks
  ticks : l'.ticks ≤ l.ticks + k
  fits : p.fits l.rxfifo.length = true → p.fits l'.rxfifo.length = true
  aux : ∀ v, l.auxHolds v = true → l'.auxHolds v = true
  calm : l.noArrivals = true → l'.noArrivals = true
  rx : ∃ extra, taken obs ++ l'.rxfifo = l.rxfifo ++ extra ∧ (l.noArrivals = true → extra = [])

theorem Flow.refl (p : Params) (l : Link) : Flow p l l [] 0 :=
  ⟨by simp, rfl, rfl, Nat.le_refl _, Nat.le_refl _, id, fun _ => id, id, [], by simp [taken], fun _ => rfl⟩

@[simp] theorem taken_append (a b : List Obs) : taken (a ++ b) = taken a ++ taken b := by simp [taken]

theorem Flow.trans {p : Params} {a b c : Link} {o₁ o₂ : List Obs} {k₁ k₂ : Nat}
    (f : Flow p a b o₁ k₁) (g : Flow p b c o₂ k₂) : Flow p a c (o₁ ++ o₂) (k₁ + k₂) := by
  obtain ⟨e₁, h₁, n₁⟩ := f.rx
  obtain ⟨e₂, h₂, n₂⟩ := g.rx
  refine ⟨by rw [g.hist, f.hist, List.append_assoc], g.m0.trans f.m0, g.m1.trans f.m1,
    f.ticksLow.trans g.ticksLow, by have := f.ticks; have := g.ticks; omega,
    fun h => g.fits (f.fits h), fun v h => g.aux v (f.aux v h), fun h => g.calm (f.calm h),
    e₁ ++ e₂, ?_, fun h => by simp [n₁ h, n₂ (f.calm h)]⟩
  rw [taken_append, List.append_assoc, h₂, ← List.append_assoc, h₁, List.append_assoc]

theorem Flow.weaken {p : Params} {a b : Link} {o : List Obs} {k k' : Nat} (f : Flow p a b o k) (h : k ≤ k') :
    Flow p a b o k' :=
  ⟨f.hist, f.m0, f.m1, f.ticksLow, f.ticks.trans (by omega), f.fits, f.aux, f.calm, f.rx⟩

/-- The environment's point: its `Flow`, and that it leaves the timer and the ticks alone. -/
theorem point_flow (p : Params) (l : Link) : Flow p l (l.point p) [] 0 := by
  unfold Link.point
  cases hd : l.dev with
  | nil => exact Flow.refl p l
  | cons as rest =>
    have a := acts_spec p as { l with dev := rest }
    obtain ⟨extra, hx⟩ := a.rx
    dsimp only at a hx ⊢
    generalize hl : Link.acts p { l with dev := rest } as = l' at a hx ⊢
    refine ⟨by rw [a.same]; simp, by rw [a.same], by rw [a.same], by rw [a.same], by rw [a.same]; simp, a.fits, ?_, ?_,
      extra, by simpa [taken] using hx, ?_⟩
    · intro v h
      simp only [Link.auxHolds, hd, List.all_cons, Bool.and_eq_true, beq_iff_eq] at h ⊢
      have h1 := a.aux v h.1 h.2.1
      rw [a.same]
      exact ⟨h1, h.2.2⟩
    · intro h
      simp only [Link.noArrivals, hd, List.all_cons, Bool.and_eq_true] at h ⊢
      rw [a.same]
      exact h.2
    · intro h
      simp only [Link.noArrivals, hd, List.all_cons, Bool.and_eq_true] at h
      have := a.calm h.1
      rw [hx] at this
      simpa using this

@[simp] theorem point_hist (p : Params) (l : Link) : (l.point p).hist = l.hist := by
  simpa using (point_flow p l).hist

@[simp] theorem point_m0 (p : Params) (l : Link) : (l.point p).m0 = l.m0 := (point_flow p l).m0
@[simp] theorem point_m1 (p : Params) (l : Link) : (l.point p).m1 = l.m1 := (point_flow p l).m1

@[simp] theorem point_ticks (p : Params) (l : Link) : (l.point p).ticks = l.ticks := by
  have f := point_flow p l
  have := f.ticks; have := f.ticksLow; omega

@[simp] theorem point_elapsed (p : Params) (l : Link) : (l.point p).elapsed = l.elapsed := by
  unfold Link.point
  split
  · rfl
  · rename_i as rest _
    rw [(acts_spec p as { l with dev := rest }).same]

/-- A point only appends arrivals. -/
theorem point_rx (p : Params) (l : Link) : ∃ extra, (l.point p).rxfifo = l.rxfifo ++ extra := by
  obtain ⟨e, h, _⟩ := (point_flow p l).rx
  exact ⟨e, by simpa [taken] using h⟩

/-- One emitted byte. -/
theorem txByte_flow (p : Params) (l : Link) (b : Byte) : Flow p l (l.txByte p b) [.tx b] 0 := by
  have f := point_flow p l
  exact ⟨by simp [Link.txByte, Link.log], f.m0, f.m1, f.ticksLow, f.ticks, f.fits, f.aux, f.calm, f.rx⟩

/-- `TxWrite` emits exactly its bytes, in order (R66). -/
theorem txWrite_flow (p : Params) (bs : List Byte) (l : Link) : Flow p l (l.txWrite p bs) (bs.map .tx) 0 := by
  induction bs generalizing l with
  | nil => exact Flow.refl p l
  | cons b bs ih => exact (txByte_flow p l b).trans (ih (l.txByte p b))

/-- `AuxSample` answers the level after the point and logs it (R72). -/
theorem auxSample_flow (p : Params) (l : Link) :
    Flow p l (l.auxSample p).2 [.auxSample (l.auxSample p).1] 0 := by
  have f := point_flow p l
  exact ⟨by simp [Link.auxSample, Link.log], f.m0, f.m1, f.ticksLow, f.ticks, f.fits, f.aux, f.calm, f.rx⟩

@[simp] theorem auxSample_elapsed (p : Params) (l : Link) : (l.auxSample p).2.elapsed = l.elapsed := by
  simp [Link.auxSample, Link.log]

@[simp] theorem auxSample_ticks (p : Params) (l : Link) : (l.auxSample p).2.ticks = l.ticks := by
  simp [Link.auxSample, Link.log]

/-- A sample reads the level that holds. -/
theorem auxSample_holds {p : Params} {l : Link} {v : Bool} (h : l.auxHolds v = true) : (l.auxSample p).1 = v := by
  have := (point_flow p l).aux v h
  simp only [Link.auxHolds, Bool.and_eq_true, beq_iff_eq] at this
  exact this.1

/-- `Sleep(n)` lets exactly `n` ticks pass. -/
theorem sleep_flow (p : Params) (n : Nat) (l : Link) : Flow p l (l.sleep p n) [] n := by
  induction n generalizing l with
  | zero => exact Flow.refl p l
  | succ n ih =>
    have f := point_flow p l
    have g : Flow p l { l.point p with ticks := l.ticks + 1 } [] 1 :=
      ⟨by simp, f.m0, f.m1, by simp, Nat.le_refl _, f.fits, f.aux, f.calm, f.rx⟩
    exact (g.trans (ih _)).weaken (by omega)

@[simp] theorem sleep_ticks (p : Params) (n : Nat) (l : Link) : (l.sleep p n).ticks = l.ticks + n := by
  induction n generalizing l with
  | zero => rfl
  | succ n ih => simp [Link.sleep, ih]; omega

@[simp] theorem sleep_elapsed (p : Params) (n : Nat) (l : Link) : (l.sleep p n).elapsed = l.elapsed := by
  induction n generalizing l with
  | zero => rfl
  | succ n ih => simp [Link.sleep, ih]

theorem wait_flow (p : Params) (d : Nat) (l : Link) : Flow p l (l.wait p d) [] d := by
  have f := sleep_flow p d l
  exact ⟨f.hist, f.m0, f.m1, f.ticksLow, f.ticks, f.fits, f.aux, f.calm, f.rx⟩

@[simp] theorem wait_elapsed (p : Params) (d : Nat) (l : Link) : (l.wait p d).elapsed = l.elapsed + d := by
  simp [Link.wait]

@[simp] theorem wait_ticks (p : Params) (d : Nat) (l : Link) : (l.wait p d).ticks = l.ticks + d := by
  simp [Link.wait]

theorem startTimer_flow (p : Params) (l : Link) : Flow p l l.startTimer [] 0 := by
  have f := Flow.refl p l
  exact ⟨f.hist, f.m0, f.m1, f.ticksLow, f.ticks, f.fits, f.aux, f.calm, f.rx⟩

@[simp] theorem startTimer_elapsed (l : Link) : l.startTimer.elapsed = 0 := rfl
@[simp] theorem startTimer_ticks (l : Link) : l.startTimer.ticks = l.ticks := rfl

@[simp] theorem rxAvail_fst (p : Params) (l : Link) : (l.rxAvail p).1 = (l.point p).rxfifo.length := rfl
@[simp] theorem rxAvail_snd (p : Params) (l : Link) : (l.rxAvail p).2 = l.point p := rfl

/-- What a take can do: nothing is there, or the head byte is consumed. -/
theorem rxTake_cases (p : Params) (l : Link) :
    (∃ l1, l.rxTake p = (none, l1) ∧ Flow p l l1 [] 0 ∧ l1.rxfifo = [] ∧ l1.elapsed = l.elapsed) ∨
    (∃ b l1, l.rxTake p = (some b, l1) ∧ Flow p l l1 [.rx b] 0 ∧ l1.elapsed = l.elapsed) := by
  have f := point_flow p l
  have g := point_flow p (l.point p)
  by_cases h0 : (l.rxAvail p).1 = 0
  · refine .inl ⟨l.point p, ?_, f, List.length_eq_zero_iff.mp h0, by simp⟩
    unfold Link.rxTake
    rw [if_pos h0]
    rfl
  · have eq : l.rxTake p = (l.point p).rxPop p := by
      unfold Link.rxTake
      rw [if_neg h0]
      rfl
    rw [eq]
    change ¬ (l.point p).rxfifo.length = 0 at h0
    unfold Link.rxPop
    dsimp only
    split
    · rename_i he
      obtain ⟨e, hx⟩ := point_rx p (l.point p)
      rw [he] at hx
      have : (l.point p).rxfifo = [] := by
        have := congrArg List.length hx
        simp at this
        exact List.length_eq_zero_iff.mp (by omega)
      simp [this] at h0
    · rename_i b rest he
      refine .inr ⟨b, _, rfl, ?_, by simp [Link.log]⟩
      have fg := f.trans g
      obtain ⟨e, hx, hn⟩ := fg.rx
      refine ⟨by simp [Link.log], fg.m0, fg.m1, fg.ticksLow, fg.ticks, ?_, fg.aux, fg.calm, e, ?_, hn⟩
      · intro h
        have := fg.fits h
        rw [he] at this
        exact fits_mono this (by simp [Link.log])
      · rw [he] at hx
        simpa [taken, Link.log] using hx

/-- A take from a non-empty FIFO consumes its head. -/
theorem rxTake_some {p : Params} {l : Link} {b : Byte} {rest : List Byte} (h : l.rxfifo = b :: rest) :
    ∃ l1, l.rxTake p = (some b, l1) ∧ Flow p l l1 [.rx b] 0 ∧ l1.elapsed = l.elapsed ∧
      ∃ extra, l1.rxfifo = rest ++ extra := by
  rcases rxTake_cases p l with ⟨l1, he, f, hnil, _⟩ | ⟨c, l1, he, f, hel⟩
  · obtain ⟨e, hx, _⟩ := f.rx
    simp [taken, hnil, h] at hx
  · obtain ⟨e, hx, _⟩ := f.rx
    simp only [taken, List.filterMap_cons, List.filterMap_nil, h, List.cons_append, List.nil_append,
      List.cons.injEq] at hx
    exact ⟨l1, by rw [he, hx.1], by rw [← hx.1]; exact f, hel, e, hx.2⟩

/-- `RxClear` empties the FIFO and touches nothing else of the link but the history and the environment. -/
theorem rxClear_spec (p : Params) (l : Link) :
    (l.rxClear p).rxfifo = [] ∧ (l.rxClear p).hist = l.hist ++ [.rxClear] ∧ (l.rxClear p).m0 = l.m0 ∧
    (l.rxClear p).m1 = l.m1 ∧ (l.rxClear p).ticks = l.ticks ∧ (l.rxClear p).elapsed = l.elapsed ∧
    (∀ v, l.auxHolds v = true → (l.rxClear p).auxHolds v = true) ∧
    (l.noArrivals = true → (l.rxClear p).noArrivals = true) := by
  have f := point_flow p l
  refine ⟨rfl, by simp [Link.rxClear, Link.log], f.m0, f.m1, by simp [Link.rxClear, Link.log],
    by simp [Link.rxClear, Link.log], f.aux, f.calm⟩

/-- `SetPins` writes M0, then M1, and logs both; the environment may act before each. -/
theorem setPins_spec (p : Params) (v0 v1 : Bit) (l : Link) :
    (l.setPins p v0 v1).m0 = v0 ∧ (l.setPins p v0 v1).m1 = v1 ∧
    (l.setPins p v0 v1).hist = l.hist ++ [.pinM0 v0, .pinM1 v1] ∧ (l.setPins p v0 v1).ticks = l.ticks ∧
    (l.setPins p v0 v1).elapsed = l.elapsed ∧
    (∃ extra, (l.setPins p v0 v1).rxfifo = l.rxfifo ++ extra) ∧
    (p.fits l.rxfifo.length = true → p.fits (l.setPins p v0 v1).rxfifo.length = true) ∧
    (∀ v, l.auxHolds v = true → (l.setPins p v0 v1).auxHolds v = true) := by
  have f := point_flow p l
  let l1 : Link := { l.point p with m0 := v0 }.log (.pinM0 v0)
  have g := point_flow p l1
  obtain ⟨e1, h1⟩ := point_rx p l
  obtain ⟨e2, h2⟩ := point_rx p l1
  have eq : l.setPins p v0 v1 = { l1.point p with m1 := v1 }.log (.pinM1 v1) := rfl
  rw [eq]
  refine ⟨g.m0, rfl, ?_, ?_, ?_, ⟨e1 ++ e2, ?_⟩, fun h => g.fits (f.fits h), fun v h => g.aux v (f.aux v h)⟩
  · simp [Link.log, l1]
  · simp [Link.log, l1]
  · simp [Link.log, l1]
  · have : l1.rxfifo = (l.point p).rxfifo := rfl
    simp only [Link.log]
    rw [h2, this, h1, List.append_assoc]

/-! ## Micro-sequences -/

/-- What the wait loop can do: it takes samples, ends in Success at the first ready one, else in Timeout. -/
theorem waitLoop_spec (p : Params) (T P fuel : Nat) (l : Link) (h : l.elapsed ≤ T) :
    ∃ vs : List Bool, Flow p l (waitLoop p T P fuel l).2 (vs.map .auxSample) (T - l.elapsed) ∧ vs ≠ [] ∧
      (∀ v ∈ vs.dropLast, v = false) ∧
      (waitLoop p T P fuel l).1 = if vs.getLast? = some true then .success else .timeout := by
  induction fuel generalizing l with
  | zero =>
    have f := auxSample_flow p l
    refine ⟨[(l.auxSample p).1], ?_, by simp, by simp, ?_⟩
    · unfold waitLoop; dsimp only; split <;> exact f.weaken (by omega)
    · unfold waitLoop; dsimp only; split <;> simp_all
  | succ fuel ih =>
    have f := auxSample_flow p l
    unfold waitLoop
    dsimp only
    cases hr : (l.auxSample p).1 with
    | true =>
      rw [hr] at f
      exact ⟨[true], by simpa using f.weaken (by omega), by simp, by simp, by simp⟩
    | false =>
      rw [hr] at f
      simp only [Bool.false_eq_true, if_false]
      by_cases ht : T ≤ (l.auxSample p).2.elapsed
      · rw [if_pos ht]
        exact ⟨[false], by simpa using f.weaken (by omega), by simp, by simp, by simp⟩
      · rw [if_neg ht]
        rw [auxSample_elapsed] at ht ⊢
        have g := wait_flow p (min P (T - l.elapsed)) (l.auxSample p).2
        obtain ⟨vs, q, hne, hfalse, hst⟩ := ih ((l.auxSample p).2.wait p (min P (T - l.elapsed))) (by simp; omega)
        refine ⟨false :: vs, ?_, by simp, ?_, ?_⟩
        · have all := (f.trans g).trans q
          simp only [List.append_nil, List.singleton_append, wait_elapsed, auxSample_elapsed] at all
          exact all.weaken (by omega)
        · intro v hv
          cases vs with
          | nil => exact absurd rfl hne
          | cons w ws =>
            simp only [List.dropLast_cons_cons, List.mem_cons] at hv
            rcases hv with rfl | hv
            · rfl
            · exact hfalse v hv
        · rw [hst]
          cases vs with
          | nil => exact absurd rfl hne
          | cons w ws => simp

/-- What `WaitComplete` can do (R146): unwired, it sleeps `T` and succeeds; wired, it samples. -/
theorem waitComplete_spec (p : Params) (T P : Nat) (l : Link) :
    (p.auxWired = false → (waitComplete p T P l).1 = .success ∧ Flow p l (waitComplete p T P l).2 [] T ∧
      (waitComplete p T P l).2.ticks = l.ticks + T) ∧
    (p.auxWired = true → ∃ vs : List Bool, Flow p l (waitComplete p T P l).2 (vs.map .auxSample) T ∧ vs ≠ [] ∧
      (∀ v ∈ vs.dropLast, v = false) ∧
      (waitComplete p T P l).1 = if vs.getLast? = some true then .success else .timeout) := by
  constructor
  · intro h
    simp only [waitComplete, h, Bool.false_eq_true, if_false]
    exact ⟨trivial, sleep_flow p T l, by simp⟩
  · intro h
    simp only [waitComplete, h, if_true]
    obtain ⟨vs, f, rest⟩ := waitLoop_spec p T P T l.startTimer (by simp)
    refine ⟨vs, ?_, rest⟩
    simpa using (startTimer_flow p l).trans f

/-- A wait with AUX ready throughout takes one sample and no time. -/
theorem waitLoop_ready {p : Params} {T P fuel : Nat} {l : Link} (h : l.auxHolds true = true) :
    waitLoop p T P fuel l = (.success, (l.auxSample p).2) := by
  have := auxSample_holds (p := p) h
  cases fuel <;> simp [waitLoop, this]

/-- A wait ends in Success or in Timeout. -/
theorem waitComplete_status (p : Params) (T P : Nat) (l : Link) :
    (waitComplete p T P l).1 = .success ∨ (waitComplete p T P l).1 = .timeout := by
  cases h : p.auxWired with
  | false => exact .inl ((waitComplete_spec p T P l).1 h).1
  | true =>
    obtain ⟨vs, _, _, _, hst⟩ := (waitComplete_spec p T P l).2 h
    rw [hst]; split
    · exact .inl rfl
    · exact .inr rfl

/-- Some `Flow` of `WaitComplete`, whichever way it goes. -/
theorem waitComplete_flow (p : Params) (T P : Nat) (l : Link) :
    ∃ vs : List Bool, Flow p l (waitComplete p T P l).2 (vs.map .auxSample) T := by
  cases h : p.auxWired with
  | false => exact ⟨[], by simpa using ((waitComplete_spec p T P l).1 h).2.1⟩
  | true =>
    obtain ⟨vs, f, _⟩ := (waitComplete_spec p T P l).2 h
    exact ⟨vs, f⟩

@[simp] theorem taken_map_rx (bs : List Byte) : taken (bs.map .rx) = bs := by
  induction bs with
  | nil => rfl
  | cons b bs _ => simp [taken]

@[simp] theorem taken_map_tx (bs : List Byte) : taken (bs.map .tx) = [] := by
  induction bs with
  | nil => rfl
  | cons b bs _ => simp [taken]

@[simp] theorem taken_map_auxSample (vs : List Bool) : taken (vs.map .auxSample) = [] := by
  induction vs with
  | nil => rfl
  | cons v vs _ => simp [taken]

/-- What the read loop can do (R147): it consumes some bytes, at most as many as are wanted, in the order they came. -/
theorem readLoop_spec (p : Params) (n T fuel : Nat) (got : List Byte) (l : Link) (h : l.elapsed ≤ T)
    (hg : got.length ≤ n) :
    ∃ new : List Byte, (readLoop p n T fuel got l).1 = got ++ new ∧ (got ++ new).length ≤ n ∧
      Flow p l (readLoop p n T fuel got l).2 (new.map .rx) (T - l.elapsed) := by
  have hg'' : (got ++ []).length ≤ n := by simpa using hg
  induction fuel generalizing got l with
  | zero => exact ⟨[], by simp [readLoop], hg'', by simpa [readLoop] using (Flow.refl p l).weaken (by omega)⟩
  | succ fuel ih =>
    unfold readLoop
    by_cases hn : n ≤ got.length
    · rw [if_pos hn]
      exact ⟨[], by simp, hg'', by simpa using (Flow.refl p l).weaken (by omega)⟩
    · rw [if_neg hn]
      rcases rxTake_cases p l with ⟨l1, he, f, hnil, hel⟩ | ⟨b, l1, he, f, hel⟩
      · rw [he]
        dsimp only
        by_cases ht : T ≤ l1.elapsed
        · rw [if_pos ht]
          exact ⟨[], by simp, hg'', by simpa using f.weaken (by omega)⟩
        · rw [if_neg ht]
          obtain ⟨new, h1, h2, g⟩ := ih got (l1.wait p 1) (by simp; omega) hg hg''
          refine ⟨new, h1, h2, ?_⟩
          have all := (f.trans (wait_flow p 1 l1)).trans g
          simp only [List.append_nil, List.nil_append, wait_elapsed, hel] at all
          exact all.weaken (by omega)
      · rw [he]
        dsimp only
        obtain ⟨new, h1, h2, g⟩ := ih (got ++ [b]) l1 (by omega) (by simp; omega) (by simp; omega)
        refine ⟨b :: new, by simpa using h1, by simpa using h2, ?_⟩
        have all := f.trans g
        rw [hel] at all
        simpa using all.weaken (by omega)

/-- What `ReadExactly` can do (R147). -/
theorem readExactly_spec (p : Params) (n T : Nat) (l : Link) :
    (readExactly p n T l).1.length ≤ n ∧
      Flow p l (readExactly p n T l).2 ((readExactly p n T l).1.map .rx) T := by
  obtain ⟨new, h1, h2, f⟩ := readLoop_spec p n T (n + T + 1) [] l.startTimer (by simp) (by simp)
  simp only [List.nil_append] at h1 h2
  unfold readExactly
  rw [h1]
  exact ⟨h2, by simpa using (startTimer_flow p l).trans f⟩

/-- Bytes already buffered are taken without waiting (R147). -/
theorem readLoop_buffered (p : Params) (n T fuel : Nat) (got : List Byte) (l : Link) (bs rest : List Byte)
    (hb : l.rxfifo = bs ++ rest) (hn : got.length + bs.length = n) (hf : bs.length < fuel) :
    ∃ l1, readLoop p n T fuel got l = (got ++ bs, l1) ∧ Flow p l l1 (bs.map .rx) 0 ∧
      ∃ extra, l1.rxfifo = rest ++ extra := by
  induction bs generalizing fuel got l rest with
  | nil =>
    cases fuel with
    | zero => omega
    | succ fuel =>
      refine ⟨l, ?_, Flow.refl p l, [], by simpa using hb⟩
      simp at hn
      simp [readLoop, hn]
  | cons b bs ih =>
    cases fuel with
    | zero => omega
    | succ fuel =>
      simp only [List.length_cons] at hn hf
      obtain ⟨l1, he, f, hel, extra, hx⟩ := rxTake_some (p := p) (l := l) (b := b) (rest := bs ++ rest) (by simpa using hb)
      obtain ⟨l2, h2, g, extra2, hx2⟩ := ih fuel (got ++ [b]) l1 (rest ++ extra)
        (by simpa using hx) (by simp; omega) (by omega)
      refine ⟨l2, ?_, by simpa using f.trans g, extra ++ extra2, by simpa using hx2⟩
      unfold readLoop
      rw [if_neg (by omega), he]
      simpa using h2

/-- `ReadExactly` of bytes that are all buffered takes exactly them, in no time, whatever the device does. -/
theorem readExactly_buffered (p : Params) (T : Nat) (l : Link) (bs rest : List Byte) (hb : l.rxfifo = bs ++ rest) :
    ∃ l1, readExactly p bs.length T l = (bs, l1) ∧ Flow p l l1 (bs.map .rx) 0 ∧ ∃ extra, l1.rxfifo = rest ++ extra := by
  obtain ⟨l1, h1, f, hx⟩ := readLoop_buffered p bs.length T (bs.length + T + 1) [] l.startTimer bs rest hb (by simp) (by omega)
  exact ⟨l1, by simpa [readExactly] using h1, by simpa using (startTimer_flow p l).trans f, hx⟩

/-- The quiescence wait consumes nothing and sleeps at most `T` ticks (R172). -/
theorem quietLoop_flow (p : Params) (T fuel : Nat) (l : Link) (h : l.elapsed ≤ T) :
    Flow p l (quietLoop p T fuel l) [] (T - l.elapsed) := by
  induction fuel generalizing l with
  | zero => exact (Flow.refl p l).weaken (by omega)
  | succ fuel ih =>
    have f := point_flow p l
    unfold quietLoop
    by_cases hc : (l.rxAvail p).1 = 0 ∧ (l.rxAvail p).2.elapsed < T
    · rw [if_pos hc]
      have hc2 : l.elapsed < T := by simpa using hc.2
      have g := ih ((l.point p).wait p 1) (by simp only [point_elapsed, wait_elapsed]; omega)
      have all := (f.trans (wait_flow p 1 (l.point p))).trans g
      simp only [List.append_nil, wait_elapsed, point_elapsed] at all
      exact all.weaken (by omega)
    · rw [if_neg hc]
      exact f.weaken (by omega)

/-- What the byte loop of RECVCOMPLETE can do: it consumes at most `limit` bytes, in at most `limit * T_QUIESCE` ticks. -/
theorem completeLoop_spec (p : Params) (limit : Nat) (got : List Byte) (l : Link) :
    ∃ new : List Byte, (completeLoop p limit got l).1 = got ++ new ∧ new.length ≤ limit ∧
      Flow p l (completeLoop p limit got l).2 (new.map .rx) (limit * p.tQuiesce) := by
  induction limit generalizing got l with
  | zero => exact ⟨[], by simp [completeLoop], by simp, by simpa [completeLoop] using Flow.refl p l⟩
  | succ limit ih =>
    unfold completeLoop
    have q := (startTimer_flow p l).trans (quietLoop_flow p p.tQuiesce (p.tQuiesce + 1) l.startTimer (by simp))
    simp only [List.append_nil, startTimer_elapsed, Nat.sub_zero, Nat.zero_add] at q
    have hmul : (limit + 1) * p.tQuiesce = p.tQuiesce + limit * p.tQuiesce := by ring
    rcases rxTake_cases p (quietLoop p p.tQuiesce (p.tQuiesce + 1) l.startTimer) with ⟨l1, he, f, _, _⟩ | ⟨b, l1, he, f, _⟩
    · rw [he]
      exact ⟨[], by simp, by simp, by simpa using (q.trans f).weaken (by omega)⟩
    · rw [he]
      obtain ⟨new, h1, h2, g⟩ := ih (got ++ [b]) l1
      refine ⟨b :: new, by simpa using h1, by simp; omega, ?_⟩
      have all := (q.trans f).trans g
      simpa using all.weaken (by omega)

/-- What the loop of RECVUNTIL can do (R174): it stores at most `room` more bytes, none of them the delimiter, and
consumes the delimiter besides exactly when it is seen. -/
theorem untilLoop_spec (p : Params) (d : Byte) (room : Nat) (got : List Byte) (l : Link) :
    ∃ new tail : List Byte, (untilLoop p d room got l).2.1 = got ++ new ∧ new.length ≤ room ∧ d ∉ new ∧
      (tail = [] ∨ tail = [d]) ∧
      ((untilLoop p d room got l).1 = .success ∨ (untilLoop p d room got l).1 = .timeout) ∧
      Flow p l (untilLoop p d room got l).2.2 ((new ++ tail).map .rx) (room * p.tReadTimeout) := by
  induction room generalizing got l with
  | zero => exact ⟨[], [], by simp [untilLoop], by simp, by simp, .inl rfl, by simp [untilLoop],
      by simpa [untilLoop] using Flow.refl p l⟩
  | succ room ih =>
    have hmul : (room + 1) * p.tReadTimeout = p.tReadTimeout + room * p.tReadTimeout := by ring
    obtain ⟨hlen, f⟩ := readExactly_spec p 1 p.tReadTimeout l
    unfold untilLoop
    split
    · rename_i l1 he
      rw [he] at f
      exact ⟨[], [], by simp, by simp, by simp, .inl rfl, .inr rfl, by simpa using f.weaken (by omega)⟩
    · rename_i b tl l1 he
      rw [he] at f hlen
      have htl : tl = [] := by
        simp at hlen
        exact hlen
      subst htl
      by_cases hd : b = d
      · rw [if_pos hd]
        subst hd
        exact ⟨[], [b], by simp, by simp, by simp, .inr rfl, .inl rfl, by simpa using f.weaken (by omega)⟩
      · rw [if_neg hd]
        obtain ⟨new, tail, h1, h2, h3, h4, h5, g⟩ := ih (got ++ [b]) l1
        refine ⟨b :: new, tail, by simpa using h1, by simp; omega, ?_, h4, h5, ?_⟩
        · simp only [List.mem_cons, not_or]
          exact ⟨fun e => hd e.symm, h3⟩
        · have all := f.trans g
          simpa using all.weaken (by omega)

/-! ## Exchanges -/

/-- What `SendStruct` can do (R148): the bytes go out whole, then the wait samples AUX if it is wired. -/
theorem sendStruct_spec (p : Params) (bs : List Byte) (l : Link) :
    ∃ vs : List Bool, Flow p l (sendStruct p bs l).2 (bs.map .tx ++ vs.map .auxSample) p.tRespTimeout ∧
      (p.auxWired = false → vs = [] ∧ (sendStruct p bs l).1 = .success) ∧
      (p.auxWired = true → vs ≠ [] ∧ (∀ v ∈ vs.dropLast, v = false) ∧
        (sendStruct p bs l).1 = if vs.getLast? = some true then .success else .timeout) := by
  have f := txWrite_flow p bs l
  have spec := waitComplete_spec p p.tRespTimeout p.tPoll (l.txWrite p bs)
  unfold sendStruct
  cases hw : p.auxWired with
  | false =>
    obtain ⟨h1, g, _⟩ := spec.1 hw
    exact ⟨[], by simpa using (f.trans g).weaken (by omega), fun _ => ⟨rfl, h1⟩, by simp⟩
  | true =>
    obtain ⟨vs, g, h⟩ := spec.2 hw
    exact ⟨vs, (f.trans g).weaken (by omega), by simp, fun _ => h⟩

/-- `SendStruct` ends in Success or in Timeout (R148). -/
theorem sendStruct_status (p : Params) (bs : List Byte) (l : Link) :
    (sendStruct p bs l).1 = .success ∨ (sendStruct p bs l).1 = .timeout :=
  waitComplete_status p p.tRespTimeout p.tPoll (l.txWrite p bs)

/-- The status of a framed read (R149): the length before the head. -/
def headStatus (got : List Byte) (n : Nat) (h : Byte) (m : Status) : Status :=
  if shortRead got n ≠ .success then shortRead got n else if got.head? = some h then .success else m

/-- `ReceiveStruct` is a read and the status of what it read (R149). -/
theorem receiveStruct_eq (p : Params) (n : Nat) (h : Byte) (m : Status) (l : Link) :
    receiveStruct p n h m l =
      (headStatus (readExactly p n p.tReadTimeout l).1 n h m, readExactly p n p.tReadTimeout l) := by
  unfold receiveStruct headStatus
  dsimp only
  split_ifs <;> rfl

/-- `Exchange` after a wait that timed out reads nothing (R151). -/
theorem exchange_timeout {p : Params} {req : List Byte} {n : Nat} {m : Status} {l : Link}
    (h : (sendStruct p req (l.rxClear p)).1 ≠ .success) :
    exchange p req n m l =
      ((sendStruct p req (l.rxClear p)).1, [], (sendStruct p req (l.rxClear p)).2) := by
  unfold exchange drainOp
  dsimp only
  rw [if_pos h]

/-- `Exchange` after a successful wait is a framed read with the acknowledgment code as its head (R151). -/
theorem exchange_read {p : Params} {req : List Byte} {n : Nat} {m : Status} {l : Link}
    (h : (sendStruct p req (l.rxClear p)).1 = .success) :
    exchange p req n m l = receiveStruct p n codeRead m (sendStruct p req (l.rxClear p)).2 := by
  unfold exchange drainOp
  dsimp only
  rw [if_neg (by simpa using h)]

/-- What `Exchange` can do (R151): it clears the FIFO, sends the request whole, waits, and after a successful wait reads.
A wait that timed out is followed by no read. -/
theorem exchange_spec (p : Params) (req : List Byte) (n : Nat) (m : Status) (l : Link) :
    ∃ (vs : List Bool) (got : List Byte) (l1 : Link) (st : Status), exchange p req n m l = (st, got, l1) ∧
      Flow p (l.rxClear p) l1 (req.map .tx ++ vs.map .auxSample ++ got.map .rx) (p.tRespTimeout + p.tReadTimeout) ∧
      got.length ≤ n ∧ ((st = .timeout ∧ got = []) ∨ st = headStatus got n codeRead m) := by
  obtain ⟨vs, f, -, -⟩ := sendStruct_spec p req (l.rxClear p)
  by_cases hs : (sendStruct p req (l.rxClear p)).1 = .success
  · rw [exchange_read hs, receiveStruct_eq]
    obtain ⟨hl, g⟩ := readExactly_spec p n p.tReadTimeout (sendStruct p req (l.rxClear p)).2
    exact ⟨vs, _, _, _, rfl, f.trans g, hl, .inr rfl⟩
  · rw [exchange_timeout hs]
    exact ⟨vs, [], _, _, rfl, by simpa using f.weaken (by omega), by simp,
      .inl ⟨(sendStruct_status p req (l.rxClear p)).resolve_left hs, rfl⟩⟩

end Sys2Proof.Machine
end

