-- ==== Sys2Proof/Laws/Memory.lean ====
section
/-! SUPPORT. The laws of the buffers: a read after a write, the bytes a write leaves alone, and the canonical form, which
every memory operation keeps. -/

namespace Sys2Proof.Machine

/-! ## One cell -/

theorem cellAt_putCell_same (a : Nat) (b : Byte) (cells : List Host.Cell) :
    cellAt (putCell a b cells) a = some b := by
  induction cells with
  | nil => simp [putCell, cellAt]
  | cons c rest ih =>
    obtain ⟨k, v⟩ := c
    unfold putCell
    split
    · simp [cellAt]
    · split
      · simp [cellAt]
      · have : ¬ k = a := by omega
        simp [cellAt, this, ih]

theorem cellAt_putCell_other {a a' : Nat} (h : a' ≠ a) (b : Byte) (cells : List Host.Cell) :
    cellAt (putCell a b cells) a' = cellAt cells a' := by
  have h' : ¬ a = a' := fun e => h e.symm
  induction cells with
  | nil => simp [putCell, cellAt, h']
  | cons c rest ih =>
    obtain ⟨k, v⟩ := c
    unfold putCell
    split
    · simp [cellAt, h']
    · split
      · subst k; simp [cellAt, h']
      · simp [cellAt, ih]

/-- Every address of the cells after a put was there before or is the one put. -/
theorem mem_putCell {a : Nat} {b : Byte} {cells : List Host.Cell} {x : Nat}
    (h : x ∈ (putCell a b cells).map Prod.fst) : x = a ∨ x ∈ cells.map Prod.fst := by
  induction cells with
  | nil => simp [putCell] at h; exact .inl h
  | cons c rest ih =>
    obtain ⟨k, v⟩ := c
    unfold putCell at h
    split at h
    · simpa using h
    · split at h
      · rename_i e; subst e; simp at h ⊢; tauto
      · simp only [List.map_cons, List.mem_cons] at h ⊢
        rcases h with h | h
        · exact .inr (.inl h)
        · rcases ih h with h | h
          · exact .inl h
          · exact .inr (.inr h)

theorem putCell_sorted (a : Nat) (b : Byte) (cells : List Host.Cell)
    (h : (cells.map Prod.fst).Pairwise (· < ·)) : ((putCell a b cells).map Prod.fst).Pairwise (· < ·) := by
  induction cells with
  | nil => simp [putCell]
  | cons c rest ih =>
    obtain ⟨k, v⟩ := c
    simp only [List.map_cons, List.pairwise_cons] at h
    unfold putCell
    split
    · rename_i lt
      simp only [List.map_cons, List.pairwise_cons, List.mem_cons]
      refine ⟨?_, h⟩
      rintro x (rfl | hx)
      · exact lt
      · exact Nat.lt_trans lt (h.1 x hx)
    · split
      · rename_i e; subst e; simpa using h
      · simp only [List.map_cons, List.pairwise_cons]
        refine ⟨fun x hx => ?_, ih h.2⟩
        rcases mem_putCell hx with rfl | hx
        · omega
        · exact h.1 x hx

/-! ## The canonical form -/

/-- The canonical form as a proposition. -/
theorem Memory.wf_iff (m : Memory) : m.wf = true ↔
    (m.cells.map Prod.fst).Pairwise (· < ·) ∧ ∀ x ∈ m.cells.map Prod.fst, x < Config.bufSize := by
  simp [Memory.wf, List.all_eq_true]

@[simp] theorem Memory.unspecified_wf (e : Nat) : (Memory.unspecified e).wf = true := by
  simp [Memory.unspecified, Memory.wf]

theorem Memory.write_wf {m : Memory} (h : m.wf = true) (a : Nat) (b : Byte) : (m.write a b).wf = true := by
  unfold Memory.write
  split
  · rename_i lt
    rw [Memory.wf_iff] at h ⊢
    refine ⟨putCell_sorted a b _ h.1, fun x hx => ?_⟩
    rcases mem_putCell hx with rfl | hx
    · exact lt
    · exact h.2 x hx
  · exact h

theorem Memory.writeBytes_wf {m : Memory} (h : m.wf = true) (off : Nat) (bs : List Byte) :
    (m.writeBytes off bs).wf = true := by
  induction bs generalizing m off with
  | nil => exact h
  | cons b bs ih => exact ih (Memory.write_wf h off b) (off + 1)

/-! ## Reads and writes -/

@[simp] theorem Memory.write_epoch (m : Memory) (a : Nat) (b : Byte) : (m.write a b).epoch = m.epoch := by
  unfold Memory.write; split <;> rfl

theorem Memory.read_write_same (m : Memory) {a : Nat} (h : a < Config.bufSize) (b : Byte) :
    (m.write a b).read a = b := by
  simp [Memory.write, h, Memory.read, cellAt_putCell_same]

theorem Memory.read_write_other (m : Memory) {a a' : Nat} (h : a' ≠ a) (b : Byte) :
    (m.write a b).read a' = m.read a' := by
  unfold Memory.write
  split
  · simp [Memory.read, cellAt_putCell_other h]
  · rfl

/-- A byte outside the written range reads as before. -/
theorem Memory.read_writeBytes_outside (m : Memory) (off : Nat) (bs : List Byte) {a : Nat}
    (h : a < off ∨ off + bs.length ≤ a) : (m.writeBytes off bs).read a = m.read a := by
  induction bs generalizing m off with
  | nil => rfl
  | cons b bs ih =>
    simp only [List.length_cons] at h
    rw [Memory.writeBytes, ih _ _ (by omega), Memory.read_write_other _ (by omega)]

/-- A byte inside the written range reads as written. -/
theorem Memory.read_writeBytes_inside (m : Memory) (off : Nat) (bs : List Byte) (i : Nat) (hi : i < bs.length)
    (hb : off + bs.length ≤ Config.bufSize) : (m.writeBytes off bs).read (off + i) = bs[i] := by
  induction bs generalizing m off i with
  | nil => simp at hi
  | cons b bs ih =>
    simp only [List.length_cons] at hi hb
    cases i with
    | zero =>
      rw [Memory.writeBytes, Memory.read_writeBytes_outside _ _ _ (by omega), Nat.add_zero,
        Memory.read_write_same _ (by omega)]
      rfl
    | succ i =>
      have := ih (m.write off b) (off + 1) i (by omega) (by omega)
      simpa [Memory.writeBytes, Nat.add_assoc, Nat.add_comm 1 i] using this

@[simp] theorem Memory.readBytes_length (m : Memory) (off n : Nat) : (m.readBytes off n).length = n := by
  induction n generalizing off with
  | zero => rfl
  | succ n ih => simp [Memory.readBytes, ih]

theorem Memory.readBytes_getElem (m : Memory) (off n i : Nat) (h : i < (m.readBytes off n).length) :
    (m.readBytes off n)[i] = m.read (off + i) := by
  induction n generalizing off i with
  | zero => simp [Memory.readBytes] at h
  | succ n ih =>
    cases i with
    | zero => simp [Memory.readBytes]
    | succ i => simp [Memory.readBytes, ih, Nat.add_assoc, Nat.add_comm 1 i]

/-- A delivery from index 0: the bytes written where there are some, every other byte as before. -/
theorem Memory.read_writeBytes_zero (m : Memory) (bs : List Byte) (h : bs.length ≤ Config.bufSize) (a : Nat) :
    (m.writeBytes 0 bs).read a = bs.getD a (m.read a) := by
  by_cases ha : a < bs.length
  · have := Memory.read_writeBytes_inside m 0 bs a ha (by omega)
    rw [Nat.zero_add] at this
    rw [this, List.getD_eq_getElem _ _ ha]
  · rw [Memory.read_writeBytes_outside _ _ _ (by omega), List.getD_eq_default _ _ (by omega)]

/-- The bytes from index 0, one by one. -/
theorem Memory.readBytes_zero (m : Memory) (n : Nat) : m.readBytes 0 n = (List.range n).map m.read :=
  List.ext_getElem (by simp) (fun i h _ => by rw [Memory.readBytes_getElem]; simp)

end Sys2Proof.Machine
end

