-- ==== Sys2Proof/Laws/Script.lean ====
section
/-! SUPPORT. What the loops that wait for bytes do with a device script that is known. `Feed` is a device that sends its bytes
one at a time, each soon enough after the one before; `Due` is a device that has sent a whole answer by a certain point.
Each operation's lemma says how many of the points left it uses up. -/

namespace Sys2Proof.Machine

/-! ## Paced bytes -/

/-- The device still sends, one at a time with at most `2 * Q` points before each, what `all` holds beyond the FIFO; if the
FIFO is empty, the next byte comes within `k` points. -/
def Feed (p : Params) (Q k : Nat) (l : Link) (all : List Byte) : Prop :=
  ∃ gaps : List (Nat × Byte), l.dev = spaced gaps ∧ l.rxfifo ++ gaps.map Prod.snd = all ∧
    (∀ g ∈ gaps, g.1 ≤ 2 * Q) ∧ p.fits all.length = true ∧
    (l.rxfifo = [] → ∀ g ∈ gaps.head?, g.1 ≤ k)

theorem sendsWithin_feed {p : Params} {Q : Nat} {l : Link} {bs : List Byte} (h : l.sendsWithin p Q bs) :
    Feed p Q (2 * Q) l (l.rxfifo ++ bs) := by
  obtain ⟨gaps, hd, hb, hg, hf⟩ := h
  exact ⟨gaps, hd, by rw [hb], hg, by simpa using hf, fun _ g h => hg g (List.mem_of_mem_head? h)⟩

/-- What is left of a paced device is again one. -/
theorem Feed.sendsWithin {p : Params} {Q k : Nat} {l : Link} {all : List Byte} (h : Feed p Q k l all) :
    ∃ bs, l.sendsWithin p Q bs ∧ l.rxfifo ++ bs = all := by
  obtain ⟨gaps, hd, hb, hg, hf, -⟩ := h
  exact ⟨gaps.map Prod.snd, ⟨gaps, hd, rfl, hg, by rw [← hb] at hf; simpa using hf⟩, hb⟩

/-- Only the script and the FIFO matter. -/
theorem Feed.congr {p : Params} {Q k : Nat} {l l' : Link} {all : List Byte} (h : Feed p Q k l all)
    (hd : l'.dev = l.dev) (hr : l'.rxfifo = l.rxfifo) : Feed p Q k l' all := by
  unfold Feed
  rw [hd, hr]
  exact h

theorem Feed.mono {p : Params} {Q k k' : Nat} {l : Link} {all : List Byte} (h : Feed p Q k l all) (le : k ≤ k') :
    Feed p Q k' l all := by
  obtain ⟨gaps, hd, hb, hg, hf, hh⟩ := h
  exact ⟨gaps, hd, hb, hg, hf, fun e g m => (hh e g m).trans le⟩

/-- With nothing left, the device is silent. -/
theorem Feed.done {p : Params} {Q k : Nat} {l : Link} (h : Feed p Q k l []) (k' : Nat) : Feed p Q k' l [] := by
  obtain ⟨gaps, hd, hb, hg, hf, -⟩ := h
  refine ⟨gaps, hd, hb, hg, hf, fun _ g m => ?_⟩
  simp only [List.append_eq_nil_iff, List.map_eq_nil_iff] at hb
  simp [hb.2] at m

/-- A point uses up one of the points left; after the last of them nothing is late. -/
theorem Feed.point {p : Params} {Q k : Nat} {l : Link} {all : List Byte} (h : Feed p Q k l all) :
    Feed p Q (k - 1) (l.point p) all ∧ (k = 0 → (l.point p).rxfifo = [] → all = []) := by
  obtain ⟨gaps, hd, hb, hg, hf, hh⟩ := h
  unfold Link.point
  cases gaps with
  | nil =>
    simp only [spaced, List.flatMap_nil] at hd
    rw [hd]
    exact ⟨⟨[], hd, hb, hg, hf, by simp⟩, fun _ e => by dsimp only at e; rw [e] at hb; simpa using hb.symm⟩
  | cons s gaps =>
    obtain ⟨n, b⟩ := s
    cases n with
    | zero =>
      have hd' : l.dev = [.arrive b] :: spaced gaps := by rw [hd]; simp [spaced]
      rw [hd']
      have hroom : Params.hasRoom p l.rxfifo.length = true := by
        have : p.fits (l.rxfifo.length + 1) = true := fits_mono hf (by rw [← hb]; simp)
        unfold Params.fits at this
        unfold Params.hasRoom
        cases hx : p.rxDepth with
        | none => rfl
        | some d => rw [hx] at this; simp at this ⊢; omega
      have ha : Link.acts p { l with dev := spaced gaps } [.arrive b] =
          { l with dev := spaced gaps, rxfifo := l.rxfifo ++ [b] } := by
        simp [Link.acts, Link.act, Link.arrive, hroom]
      dsimp only
      rw [ha]
      refine ⟨⟨gaps, rfl, by simpa using hb, fun g m => hg g (List.mem_cons_of_mem _ m), hf, by simp⟩, by simp⟩
    | succ n =>
      have hd' : l.dev = [] :: spaced ((n, b) :: gaps) := by rw [hd]; simp [spaced, List.replicate_succ]
      rw [hd']
      dsimp only [Link.acts, List.foldl_nil]
      have h1 := hg (n + 1, b) (by simp)
      refine ⟨⟨(n, b) :: gaps, rfl, by simpa using hb, ?_, hf, fun e g m => ?_⟩, fun hk e => ?_⟩
      · intro g m
        rcases List.mem_cons.mp m with rfl | m
        · dsimp only at h1 ⊢; omega
        · exact hg g (List.mem_cons_of_mem _ m)
      · have := hh e (n + 1, b) (by simp)
        simp only [List.head?_cons, Option.mem_def, Option.some.injEq] at m
        subst m
        dsimp only at this ⊢
        omega
      · have := hh e (n + 1, b) (by simp)
        dsimp only at this
        omega

/-- A take from a paced device: nothing is there yet, or the next byte is taken and the device stays paced. -/
theorem Feed.take {p : Params} {Q k : Nat} {l : Link} {all : List Byte} (h : Feed p Q k l all) :
    (∃ l1, l.rxTake p = (none, l1) ∧ l1.rxfifo = [] ∧ l1.elapsed = l.elapsed ∧ Feed p Q (k - 1) l1 all ∧
      (k = 0 → all = [])) ∨
    (∃ b rest l1, l.rxTake p = (some b, l1) ∧ all = b :: rest ∧ Feed p Q (2 * Q) l1 rest) := by
  obtain ⟨f, hz⟩ := h.point
  unfold Link.rxTake
  rw [rxAvail_fst, rxAvail_snd]
  by_cases h0 : (l.point p).rxfifo.length = 0
  · rw [if_pos h0]
    have hnil := List.length_eq_zero_iff.mp h0
    exact .inl ⟨_, rfl, hnil, by simp, f, fun hk => hz hk hnil⟩
  · rw [if_neg h0]
    right
    obtain ⟨g, -⟩ := f.point
    obtain ⟨e, hx⟩ := point_rx p (l.point p)
    unfold Link.rxPop
    dsimp only
    split
    · rename_i he
      rw [he] at hx
      simp at hx
      exact absurd (by rw [hx.1]; rfl) h0
    · rename_i b rest he
      obtain ⟨gaps, hd, hb, hg, hf, -⟩ := g
      rw [he] at hb
      cases all with
      | nil => simp at hb
      | cons c all =>
        simp only [List.cons_append, List.cons.injEq] at hb
        refine ⟨b, all, _, rfl, by rw [hb.1], gaps, hd, hb.2, hg, fits_mono hf (by simp), fun _ s m => ?_⟩
        exact hg s (List.mem_of_mem_head? m)

/-- One tick of waiting uses up one point. -/
theorem Feed.wait {p : Params} {Q k : Nat} {l : Link} {all : List Byte} (h : Feed p Q k l all) :
    Feed p Q (k - 1) (l.wait p 1) all :=
  h.point.1.congr rfl rfl

/-- A read of one byte within `T` ticks from a device whose next byte comes within them (R147): it fails only when there is
no byte any more. -/
theorem Feed.readLoop {p : Params} {Q T : Nat} (fuel : Nat) {k : Nat} {l : Link} {all : List Byte} (h : Feed p Q k l all)
    (hk : k + 2 * l.elapsed ≤ 2 * T) (he : l.elapsed ≤ T) (hf : T - l.elapsed + 2 ≤ fuel) :
    ((readLoop p 1 T fuel [] l).1 = [] ∧ all = []) ∨
    ∃ b rest, (readLoop p 1 T fuel [] l).1 = [b] ∧ all = b :: rest ∧ Feed p Q (2 * Q) (readLoop p 1 T fuel [] l).2 rest := by
  induction fuel generalizing k l with
  | zero => omega
  | succ fuel ih =>
    unfold Machine.readLoop
    rw [if_neg (by simp)]
    rcases h.take with ⟨l1, ht, hnil, hel, f, hz⟩ | ⟨b, rest, l1, ht, ha, f⟩
    · rw [ht]
      dsimp only
      by_cases hT : T ≤ l1.elapsed
      · rw [if_pos hT]
        exact .inl ⟨rfl, hz (by omega)⟩
      · rw [if_neg hT]
        exact ih f.wait (by simp only [wait_elapsed]; omega) (by simp only [wait_elapsed]; omega)
          (by simp only [wait_elapsed]; omega)
    · rw [ht]
      dsimp only
      right
      refine ⟨b, rest, ?_⟩
      cases fuel with
      | zero => omega
      | succ fuel =>
        unfold Machine.readLoop
        rw [if_pos (by simp)]
        exact ⟨by simp, ha, f⟩

/-- `ReadExactly(1, Q)` from a paced device. -/
theorem Feed.readExactly {p : Params} {Q : Nat} {l : Link} {all : List Byte} (h : Feed p Q (2 * Q) l all) :
    ((readExactly p 1 Q l).1 = [] ∧ all = []) ∨
    ∃ b rest, (readExactly p 1 Q l).1 = [b] ∧ all = b :: rest ∧ Feed p Q (2 * Q) (readExactly p 1 Q l).2 rest := by
  have h' : Feed p Q (2 * Q) l.startTimer all := h.congr rfl rfl
  exact h'.readLoop (T := Q) (1 + Q + 1) (by simp) (by simp) (by rw [startTimer_elapsed]; omega)

/-- The quiescence wait on a device whose next byte comes within it (R172): it ends empty only when there is no byte any
more. -/
theorem Feed.quietLoop {p : Params} {Q T : Nat} (fuel : Nat) {k : Nat} {l : Link} {all : List Byte} (h : Feed p Q k l all)
    (hk : k + 2 * l.elapsed ≤ 2 * T) (he : l.elapsed ≤ T) (hf : T - l.elapsed + 1 ≤ fuel) :
    (∃ k', Feed p Q k' (quietLoop p T fuel l) all) ∧ ((quietLoop p T fuel l).rxfifo = [] → all = []) := by
  induction fuel generalizing k l with
  | zero => omega
  | succ fuel ih =>
    obtain ⟨f, hz⟩ := h.point
    unfold Machine.quietLoop
    rw [rxAvail_fst, rxAvail_snd]
    by_cases hc : (l.point p).rxfifo.length = 0 ∧ (l.point p).elapsed < T
    · rw [if_pos hc]
      have hlt : l.elapsed < T := by simpa using hc.2
      exact ih f.wait (by simp only [wait_elapsed, point_elapsed]; omega)
        (by simp only [wait_elapsed, point_elapsed]; omega) (by simp only [wait_elapsed, point_elapsed]; omega)
    · rw [if_neg hc]
      refine ⟨⟨_, f⟩, fun hnil => hz ?_ hnil⟩
      have : ¬ l.elapsed < T := fun hlt => hc ⟨by rw [hnil]; rfl, by simpa using hlt⟩
      omega

/-- The wait for a byte and its take, as RECVCOMPLETE makes them, on a paced device. -/
theorem Feed.quietTake {p : Params} {l : Link} {all : List Byte} (h : Feed p p.tQuiesce (2 * p.tQuiesce) l all) :
    (∃ l1, (Machine.quietLoop p p.tQuiesce (p.tQuiesce + 1) l.startTimer).rxTake p = (none, l1) ∧ all = []) ∨
    (∃ b rest l1, (Machine.quietLoop p p.tQuiesce (p.tQuiesce + 1) l.startTimer).rxTake p = (some b, l1) ∧
      all = b :: rest ∧ Feed p p.tQuiesce (2 * p.tQuiesce) l1 rest) := by
  have h' : Feed p p.tQuiesce (2 * p.tQuiesce) l.startTimer all := h.congr rfl rfl
  obtain ⟨⟨k', f⟩, hz⟩ := h'.quietLoop (T := p.tQuiesce) (p.tQuiesce + 1) (by simp) (by simp) (by simp)
  rcases f.take with ⟨l1, ht, hnil, -, -, -⟩ | h2
  · refine .inl ⟨l1, ht, hz ?_⟩
    cases hr : (Machine.quietLoop p p.tQuiesce (p.tQuiesce + 1) l.startTimer).rxfifo with
    | nil => rfl
    | cons c rest =>
      obtain ⟨l2, he, -⟩ := rxTake_some (p := p) hr
      rw [he] at ht
      cases ht
  · exact .inr h2

/-! ## An answer that is due -/

/-- The bytes `bs` are next in the FIFO, or they will be within `k` points: the script brings exactly what the FIFO lacks of
them. -/
def Due (p : Params) (k : Nat) (l : Link) (bs : List Byte) : Prop :=
  (∃ x, l.rxfifo = bs ++ x) ∨
  (∃ mid later, l.dev = mid ++ later ∧ mid.length ≤ k ∧ l.rxfifo ++ arrivals mid.flatten = bs ∧ p.fits bs.length = true)

theorem Due.congr {p : Params} {k : Nat} {l l' : Link} {bs : List Byte} (h : Due p k l bs) (hd : l'.dev = l.dev)
    (hr : l'.rxfifo = l.rxfifo) : Due p k l' bs := by
  unfold Due
  rw [hd, hr]
  exact h

theorem Due.mono {p : Params} {k k' : Nat} {l : Link} {bs : List Byte} (h : Due p k l bs) (le : k ≤ k') : Due p k' l bs :=
  h.imp_right (fun ⟨mid, later, a, b, c⟩ => ⟨mid, later, a, b.trans le, c⟩)

/-- Acts whose arrivals all find room append them. -/
theorem acts_arrivals (p : Params) (as : List DevAct) (l : Link) (h : p.fits (l.rxfifo.length + (arrivals as).length) = true) :
    (l.acts p as).rxfifo = l.rxfifo ++ arrivals as := by
  induction as generalizing l with
  | nil => simp [Link.acts, arrivals]
  | cons a as ih =>
    have eq : l.acts p (a :: as) = (l.act p a).acts p as := rfl
    rw [eq]
    cases a with
    | aux v => exact ih _ h
    | arrive b =>
      have hb : arrivals (.arrive b :: as) = b :: arrivals as := rfl
      rw [hb] at h ⊢
      have hroom : Params.hasRoom p l.rxfifo.length = true := by
        have : p.fits (l.rxfifo.length + 1) = true := fits_mono h (by simp)
        unfold Params.fits at this
        unfold Params.hasRoom
        cases hx : p.rxDepth with
        | none => rfl
        | some d => rw [hx] at this; simp at this ⊢; omega
      have ha : l.act p (.arrive b) = { l with rxfifo := l.rxfifo ++ [b] } := by simp [Link.act, Link.arrive, hroom]
      rw [ha, ih _ (by simp at h ⊢; rw [Nat.add_right_comm]; simpa [Nat.add_assoc] using h)]
      simp

/-- A point uses up one of the points left. -/
theorem Due.point {p : Params} {k : Nat} {l : Link} {bs : List Byte} (h : Due p k l bs) :
    Due p (k - 1) (l.point p) bs ∧ (k = 0 → ∃ x, (l.point p).rxfifo = bs ++ x) := by
  rcases h with ⟨x, hx⟩ | ⟨mid, later, hd, hl, hb, hf⟩
  · obtain ⟨e, he⟩ := point_rx p l
    have : (l.point p).rxfifo = bs ++ (x ++ e) := by rw [he, hx, List.append_assoc]
    exact ⟨.inl ⟨_, this⟩, fun _ => ⟨_, this⟩⟩
  · cases mid with
    | nil =>
      obtain ⟨e, he⟩ := point_rx p l
      have : (l.point p).rxfifo = bs ++ e := by rw [he, ← hb]; simp [arrivals]
      exact ⟨.inl ⟨_, this⟩, fun _ => ⟨_, this⟩⟩
    | cons as mid =>
      simp only [List.length_cons] at hl
      refine ⟨.inr ⟨mid, later, ?_, by omega, ?_, hf⟩, fun hk => by omega⟩
      · unfold Link.point
        rw [hd]
        dsimp only [List.cons_append]
        rw [(acts_spec p as _).same]
      · have hsplit : arrivals (as :: mid).flatten = arrivals as ++ arrivals mid.flatten := by simp [arrivals]
        rw [hsplit] at hb
        unfold Link.point
        rw [hd]
        dsimp only [List.cons_append]
        rw [acts_arrivals p as _ (fits_mono hf (by rw [← hb]; simp)), List.append_assoc]
        exact hb

/-- Transmitting uses up one point a byte. -/
theorem Due.txWrite {p : Params} (out : List Byte) {k : Nat} {l : Link} {bs : List Byte} (h : Due p k l bs) :
    Due p (k - out.length) (l.txWrite p out) bs := by
  induction out generalizing k l with
  | nil => exact h
  | cons b out ih =>
    have := ih (l := l.txByte p b) (h.point.1.congr rfl rfl)
    simpa [Link.txWrite, Nat.sub_sub, Nat.add_comm] using this

/-- Sleeping uses up one point a tick. -/
theorem Due.sleep {p : Params} (n : Nat) {k : Nat} {l : Link} {bs : List Byte} (h : Due p k l bs) :
    Due p (k - n) (l.sleep p n) bs := by
  induction n generalizing k l with
  | zero => exact h
  | succ n ih =>
    have := ih (l := { l.point p with ticks := l.ticks + 1 }) (h.point.1.congr rfl rfl)
    simpa [Link.sleep, Nat.sub_sub, Nat.add_comm] using this

/-- A wired wait uses up at least the point of its first sample. -/
theorem Due.waitLoop {p : Params} (T P fuel : Nat) {k : Nat} {l : Link} {bs : List Byte} (h : Due p k l bs) :
    Due p (k - 1) (waitLoop p T P fuel l).2 bs := by
  have hs : Due p (k - 1) (l.auxSample p).2 bs := h.point.1.congr rfl rfl
  induction fuel generalizing k l with
  | zero =>
    unfold Machine.waitLoop
    dsimp only
    split <;> exact hs
  | succ fuel ih =>
    unfold Machine.waitLoop
    dsimp only
    split
    · exact hs
    · split
      · exact hs
      · have h2 := hs.sleep (min P (T - (l.auxSample p).2.elapsed))
        have h3 : Due p (k - 1) ((l.auxSample p).2.wait p (min P (T - (l.auxSample p).2.elapsed))) bs :=
          (h2.mono (by omega)).congr rfl rfl
        exact (ih h3 (h3.point.1.congr rfl rfl)).mono (by omega)

/-- The points a completion wait of `T` ticks uses up at least: its sleep when AUX is not wired, else its first sample. -/
theorem Due.waitComplete {p : Params} (T P : Nat) {k : Nat} {l : Link} {bs : List Byte} (h : Due p k l bs) :
    Due p (k - if p.auxWired then 1 else T) (waitComplete p T P l).2 bs := by
  unfold Machine.waitComplete
  cases p.auxWired with
  | false => simpa using h.sleep T
  | true => simpa using Due.waitLoop T P T (h.congr rfl rfl : Due p k l.startTimer bs)

/-- A take while an answer is due: nothing is there yet, or its next byte is taken. -/
theorem Due.take {p : Params} {k : Nat} {l : Link} {b : Byte} {bs : List Byte} (h : Due p k l (b :: bs)) :
    (∃ l1, l.rxTake p = (none, l1) ∧ l1.elapsed = l.elapsed ∧ Due p (k - 1) l1 (b :: bs) ∧ 0 < k) ∨
    (∃ l1, l.rxTake p = (some b, l1) ∧ l1.elapsed = l.elapsed ∧ Due p k l1 bs) := by
  obtain ⟨f, hz⟩ := h.point
  unfold Link.rxTake
  rw [rxAvail_fst, rxAvail_snd]
  by_cases h0 : (l.point p).rxfifo.length = 0
  · rw [if_pos h0]
    refine .inl ⟨_, rfl, by simp, f, Nat.pos_of_ne_zero fun hk => ?_⟩
    obtain ⟨x, hx⟩ := hz hk
    rw [hx] at h0
    simp at h0
  · rw [if_neg h0]
    right
    obtain ⟨g, -⟩ := f.point
    obtain ⟨e, hx⟩ := point_rx p (l.point p)
    unfold Link.rxPop
    dsimp only
    split
    · rename_i he
      rw [he] at hx
      simp at hx
      exact absurd (by rw [hx.1]; rfl) h0
    · rename_i c rest he
      rcases g with ⟨x, hb⟩ | ⟨mid, later, hd, hl, hb, hf⟩
      · rw [he] at hb
        simp only [List.cons_append, List.cons.injEq] at hb
        exact ⟨_, by rw [hb.1], by simp [Link.log], .inl ⟨x, hb.2⟩⟩
      · rw [he] at hb
        simp only [List.cons_append, List.cons.injEq] at hb
        refine ⟨_, by rw [hb.1], by simp [Link.log], ?_⟩
        exact .inr ⟨mid, later, hd, by omega, hb.2, fits_mono hf (by simp)⟩

/-- A read of an answer that is due within its timeout obtains it whole. -/
theorem Due.readLoop {p : Params} {T : Nat} (fuel : Nat) {k : Nat} {l : Link} {bs : List Byte} (h : Due p k l bs)
    (got : List Byte) (hk : k + 2 * l.elapsed ≤ 2 * T) (he : l.elapsed ≤ T) (hf : bs.length + (T - l.elapsed) + 1 ≤ fuel) :
    (readLoop p (got.length + bs.length) T fuel got l).1 = got ++ bs := by
  induction fuel generalizing k l bs got with
  | zero => omega
  | succ fuel ih =>
    unfold Machine.readLoop
    cases bs with
    | nil => simp
    | cons b bs =>
      simp only [List.length_cons] at hf
      rw [if_neg (by simp)]
      rcases h.take with ⟨l1, ht, hel, f, hpos⟩ | ⟨l1, ht, hel, f⟩
      · rw [ht]
        dsimp only
        have hT : ¬ T ≤ l1.elapsed := by omega
        rw [if_neg hT]
        have f2 : Due p (k - 1 - 1) (l1.wait p 1) (b :: bs) := f.point.1.congr rfl rfl
        exact ih f2 got (by simp only [wait_elapsed]; omega) (by simp only [wait_elapsed]; omega)
          (by simp only [wait_elapsed, List.length_cons]; omega)
      · rw [ht]
        dsimp only
        have := ih f (got ++ [b]) (by omega) (by omega) (by omega)
        simpa [Nat.add_assoc, Nat.add_comm 1] using this

/-- `ReadExactly` of an answer that is due within its timeout. -/
theorem Due.readExactly {p : Params} {T : Nat} {l : Link} {bs : List Byte} (h : Due p (2 * T) l bs) :
    (readExactly p bs.length T l).1 = bs := by
  have := Due.readLoop (T := T) (bs.length + T + 1) (h.congr rfl rfl : Due p (2 * T) l.startTimer bs) []
    (by simp) (by simp) (by simp)
  simpa [Machine.readExactly] using this

end Sys2Proof.Machine
end

