-- ==== Sys2Proof/Laws/Outcome.lean ====
section
/-! SUPPORT. `WaitComplete`, `SendStruct` and `ReadExactly` meet the outcomes of Sys2Proof/Safety.lean: the lemmas a proof
about a command cites instead of unfolding the loops. -/

namespace Sys2Proof.Machine

theorem auxHolds_startTimer (l : Link) (v : Bool) : l.startTimer.auxHolds v = l.auxHolds v := rfl

theorem noArrivals_startTimer (l : Link) : l.startTimer.noArrivals = l.noArrivals := rfl

theorem auxSample_inj {a b : List Bool} (h : a.map Obs.auxSample = b.map Obs.auxSample) : a = b :=
  (List.map_injective_iff.mpr (fun _ _ e => by injection e)) h

/-- The schedule of the wait loop (R146): how many samples, after how many ticks, and what a level that holds decides. -/
theorem waitLoop_schedule (p : Params) (T P fuel : Nat) (l : Link) (hP : 1 ≤ P) (h : l.elapsed ≤ T)
    (hf : T - l.elapsed ≤ fuel) :
    ∃ vs : List Bool, (waitLoop p T P fuel l).2.hist = l.hist ++ vs.map .auxSample ∧ vs ≠ [] ∧
      (waitLoop p T P fuel l).2.ticks = l.ticks + min ((vs.length - 1) * P) (T - l.elapsed) ∧
      ((waitLoop p T P fuel l).1 = .timeout → vs.length = (T - l.elapsed + P - 1) / P + 1) ∧
      (l.auxHolds true = true → vs = [true]) ∧
      (l.auxHolds false = true → (waitLoop p T P fuel l).1 = .timeout) := by
  induction fuel generalizing l with
  | zero =>
    have f := auxSample_flow p l
    have hz : T - l.elapsed = 0 := by omega
    have hd : (0 + P - 1) / P = 0 := Nat.div_eq_of_lt (by omega)
    refine ⟨[(l.auxSample p).1], ?_, by simp, ?_, ?_, ?_, ?_⟩
    · unfold waitLoop; dsimp only; split <;> exact f.hist
    · unfold waitLoop; dsimp only; split <;> simp
    · intro _; rw [hz, hd]; rfl
    · intro ha; rw [auxSample_holds ha]
    · intro ha; unfold waitLoop; simp [auxSample_holds (p := p) ha]
  | succ fuel ih =>
    have f := auxSample_flow p l
    unfold waitLoop
    dsimp only
    cases hr : (l.auxSample p).1 with
    | true =>
      simp only [if_true]
      rw [hr] at f
      refine ⟨[true], f.hist, by simp, by simp, by simp, by simp, ?_⟩
      intro ha
      rw [auxSample_holds (p := p) ha] at hr
      cases hr
    | false =>
      rw [hr] at f
      simp only [Bool.false_eq_true, if_false]
      by_cases ht : T ≤ (l.auxSample p).2.elapsed
      · rw [if_pos ht]
        rw [auxSample_elapsed] at ht
        have hz : T - l.elapsed = 0 := by omega
        have hd : (0 + P - 1) / P = 0 := Nat.div_eq_of_lt (by omega)
        refine ⟨[false], f.hist, by simp, by simp, fun _ => by rw [hz, hd]; rfl, ?_, by simp⟩
        intro ha
        rw [auxSample_holds (p := p) ha] at hr
        cases hr
      · rw [if_neg ht]
        rw [auxSample_elapsed] at ht ⊢
        have g := wait_flow p (min P (T - l.elapsed)) (l.auxSample p).2
        obtain ⟨vs, q, hne, htk, hlen, _, hfalse⟩ :=
          ih ((l.auxSample p).2.wait p (min P (T - l.elapsed))) (by simp; omega) (by simp; omega)
        simp only [wait_elapsed, wait_ticks, auxSample_elapsed, auxSample_ticks] at htk hlen
        have hpos : 1 ≤ vs.length := List.length_pos_iff.mpr hne
        refine ⟨false :: vs, ?_, by simp, ?_, ?_, ?_, ?_⟩
        · rw [q, (f.trans g).hist]
          simp
        · rw [htk]
          simp only [List.length_cons, Nat.add_sub_cancel]
          have e1 : vs.length * P = (vs.length - 1) * P + P := by
            obtain ⟨m, hm⟩ := Nat.exists_eq_add_of_le hpos
            rw [hm, Nat.add_sub_cancel_left]; ring
          rw [e1]
          rcases Nat.le_total P (T - l.elapsed) with hle | hle
          · rw [Nat.min_eq_left hle]; omega
          · rw [Nat.min_eq_right hle]; omega
        · intro hto
          rw [List.length_cons, hlen hto]
          rcases Nat.le_total P (T - l.elapsed) with hle | hle
          · rw [Nat.min_eq_left hle]
            have e2 : T - l.elapsed + P - 1 = (T - (l.elapsed + P) + P - 1) + P := by omega
            rw [e2, Nat.add_div_right _ (by omega)]
          · rw [Nat.min_eq_right hle]
            have e3 : (T - (l.elapsed + (T - l.elapsed)) + P - 1) / P = 0 := Nat.div_eq_of_lt (by omega)
            have e4 : (T - l.elapsed + P - 1) / P = 1 := by
              rw [show T - l.elapsed + P - 1 = (T - l.elapsed - 1) + P by omega, Nat.add_div_right _ (by omega),
                Nat.div_eq_of_lt (by omega)]
            rw [e3, e4]
        · intro ha
          rw [auxSample_holds (p := p) ha] at hr
          cases hr
        · intro ha
          exact hfalse (g.aux _ (f.aux _ ha))

/-- `WaitComplete` meets its outcome (R146). -/
theorem waitComplete_outcome (p : Params) (T P : Nat) (l : Link) (hP : 1 ≤ P) :
    ∃ vs, WaitOutcome p T P l (waitComplete p T P l).2 [] vs (waitComplete p T P l).1 := by
  have spec := waitComplete_spec p T P l
  cases hw : p.auxWired with
  | false =>
    obtain ⟨h1, f, ht⟩ := spec.1 hw
    obtain ⟨e, hx, hn⟩ := f.rx
    exact ⟨[], by simpa using f.hist, ⟨e, by simpa [taken] using hx, hn⟩, f.m0, f.m1, f.aux, f.calm, fun _ => ⟨rfl, h1, ht⟩,
      fun h => by rw [hw] at h; cases h⟩
  | true =>
    obtain ⟨vs, f, hne, hd, hst⟩ := spec.2 hw
    obtain ⟨e, hx, hn⟩ := f.rx
    obtain ⟨vs', q, _, htk, hlen, ht, hfa⟩ := waitLoop_schedule p T P T l.startTimer hP (by simp) (by simp)
    have eq : waitComplete p T P l = waitLoop p T P T l.startTimer := by simp [waitComplete, hw]
    rw [← eq] at q htk hlen hfa
    have : vs' = vs := auxSample_inj (by
      have h1 := f.hist
      rw [q] at h1
      exact List.append_cancel_left h1)
    subst this
    refine ⟨vs', by simpa using f.hist, ⟨e, by simpa using hx, hn⟩, f.m0, f.m1,
      f.aux, f.calm, fun h => Bool.noConfusion (hw.symm.trans h), fun _ => ⟨hne, hd, hst, ?_, ?_, ht, hfa⟩⟩
    · simpa using htk
    · simpa using hlen

/-- `SendStruct` meets its outcome (R148). -/
theorem sendStruct_outcome (p : Params) (bs : List Byte) (l : Link) (hP : 1 ≤ p.tPoll) :
    ∃ vs, WaitOutcome p p.tRespTimeout p.tPoll l (sendStruct p bs l).2 (bs.map .tx) vs (sendStruct p bs l).1 := by
  have f := txWrite_flow p bs l
  obtain ⟨e, hx, hn⟩ := f.rx
  obtain ⟨vs, h1, ⟨e2, h2, n2⟩, h3, h4, ha, hc, h5, h6⟩ :=
    waitComplete_outcome p p.tRespTimeout p.tPoll (l.txWrite p bs) hP
  have htk : (l.txWrite p bs).ticks = l.ticks := by have := f.ticks; have := f.ticksLow; omega
  unfold sendStruct
  refine ⟨vs, by rw [h1, f.hist]; simp, ⟨e ++ e2, ?_, fun h => by simp [hn h, n2 (f.calm h)]⟩, h3.trans f.m0,
    h4.trans f.m1, fun v h => ha v (f.aux v h), fun h => hc (f.calm h), fun h => ?_, fun h => ?_⟩
  · rw [h2, show (l.txWrite p bs).rxfifo = l.rxfifo ++ e by simpa using hx, List.append_assoc]
  · rw [← htk]; exact h5 h
  · obtain ⟨a, b, c, d, k, m, o⟩ := h6 h
    exact ⟨a, b, c, by rw [d, htk], k, fun ha => m (f.aux _ ha), fun ha => o (f.aux _ ha)⟩

/-! ## Reads -/

/-- A read loop that ends short has waited its whole time and left nothing (R147). -/
theorem readLoop_short (p : Params) (n T fuel : Nat) (got : List Byte) (l : Link) (h : l.elapsed ≤ T)
    (hg : got.length ≤ n) (hf : (n - got.length) + (T - l.elapsed) < fuel)
    (hs : (readLoop p n T fuel got l).1.length < n) :
    (readLoop p n T fuel got l).2.rxfifo = [] ∧ (readLoop p n T fuel got l).2.ticks = l.ticks + (T - l.elapsed) := by
  induction fuel generalizing got l with
  | zero => omega
  | succ fuel ih =>
    unfold readLoop at hs ⊢
    by_cases hn : n ≤ got.length
    · rw [if_pos hn] at hs; dsimp only at hs; omega
    · rw [if_neg hn] at hs ⊢
      rcases rxTake_cases p l with ⟨l1, he, f, hnil, hel⟩ | ⟨b, l1, he, f, hel⟩
      · have htk : l1.ticks = l.ticks := by have := f.ticks; have := f.ticksLow; omega
        rw [he] at hs ⊢
        dsimp only at hs ⊢
        by_cases ht : T ≤ l1.elapsed
        · rw [if_pos ht]
          exact ⟨hnil, by dsimp only; omega⟩
        · rw [if_neg ht] at hs ⊢
          obtain ⟨h1, h2⟩ := ih got (l1.wait p 1) (by simp; omega) hg (by simp; omega) hs
          refine ⟨h1, ?_⟩
          simp only [wait_elapsed, wait_ticks] at h2
          omega
      · have htk : l1.ticks = l.ticks := by have := f.ticks; have := f.ticksLow; omega
        rw [he] at hs ⊢
        dsimp only at hs ⊢
        obtain ⟨h1, h2⟩ := ih (got ++ [b]) l1 (by omega) (by simp; omega) (by simp; omega) hs
        exact ⟨h1, by omega⟩

/-- `ReadExactly` meets its outcome (R147). -/
theorem readExactly_outcome (p : Params) (n T : Nat) (l : Link) :
    ReadOutcome n T l (readExactly p n T l).2 (readExactly p n T l).1 := by
  obtain ⟨hlen, f⟩ := readExactly_spec p n T l
  obtain ⟨e, hx, hn⟩ := f.rx
  refine ⟨hlen, f.hist, f.m0, f.m1, ⟨e, by simpa using hx, hn⟩, ?_, ?_, f.ticksLow, f.ticks⟩
  · intro hb
    obtain ⟨l1, h1, g, _⟩ := readExactly_buffered p T l (l.rxfifo.take n) (l.rxfifo.drop n) (by simp)
    rw [List.length_take, Nat.min_eq_left hb] at h1
    rw [h1]
    exact ⟨rfl, by have := g.ticks; have := g.ticksLow; dsimp only; omega⟩
  · intro hs
    have := readLoop_short p n T (n + T + 1) [] l.startTimer (by simp) (by simp) (by simp) hs
    unfold readExactly
    simpa using this

/-! ## The two loops of the messaging layer -/

/-- The quiescence wait of a link whose FIFO holds a byte ends at once (R172). -/
theorem quietLoop_buffered {p : Params} {T fuel : Nat} {l : Link} (h : l.rxfifo ≠ []) :
    Flow p l (quietLoop p T fuel l) [] 0 := by
  cases fuel with
  | zero => exact Flow.refl p l
  | succ fuel =>
    unfold quietLoop
    obtain ⟨e, hx⟩ := point_rx p l
    rw [if_neg]
    · exact point_flow p l
    · rintro ⟨h0, -⟩
      change (l.point p).rxfifo.length = 0 at h0
      rw [hx, List.length_append] at h0
      exact h (List.length_eq_zero_iff.mp (by omega))

/-- A quiescence wait after which nothing is buffered has slept `T` ticks (R172). -/
theorem quietLoop_empty {p : Params} {T fuel : Nat} {l : Link} (h : l.elapsed ≤ T) (hf : T - l.elapsed < fuel)
    (he : (quietLoop p T fuel l).rxfifo = []) : (quietLoop p T fuel l).ticks = l.ticks + (T - l.elapsed) := by
  induction fuel generalizing l with
  | zero => omega
  | succ fuel ih =>
    unfold quietLoop at he ⊢
    by_cases hc : (l.rxAvail p).1 = 0 ∧ (l.rxAvail p).2.elapsed < T
    · rw [if_pos hc] at he ⊢
      have hlt : l.elapsed < T := by simpa using hc.2
      have := ih (l := (l.point p).wait p 1) (by simp; omega) (by simp; omega) he
      simp only [wait_elapsed, wait_ticks, point_elapsed, point_ticks] at this
      rw [rxAvail_snd, this]
      omega
    · rw [if_neg hc] at he ⊢
      have h0 : (l.rxAvail p).1 = 0 := by
        change (l.point p).rxfifo.length = 0
        simpa using congrArg List.length he
      have : ¬ (l.rxAvail p).2.elapsed < T := fun hlt => hc ⟨h0, hlt⟩
      simp only [rxAvail_snd, point_elapsed] at this
      simp only [rxAvail_snd, point_ticks]
      omega

/-- One round of the byte loop of RECVCOMPLETE: the wait, then a byte or none. -/
theorem quietTake_cases (p : Params) (l : Link) :
    (∃ l1, (quietLoop p p.tQuiesce (p.tQuiesce + 1) l.startTimer).rxTake p = (none, l1) ∧ Flow p l l1 [] p.tQuiesce ∧
      l1.rxfifo = [] ∧ l1.ticks = l.ticks + p.tQuiesce ∧ l.rxfifo = []) ∨
    (∃ b l1, (quietLoop p p.tQuiesce (p.tQuiesce + 1) l.startTimer).rxTake p = (some b, l1) ∧
      Flow p l l1 [.rx b] p.tQuiesce ∧ (l.rxfifo ≠ [] → l1.ticks = l.ticks)) := by
  have q := (startTimer_flow p l).trans (quietLoop_flow p p.tQuiesce (p.tQuiesce + 1) l.startTimer (by simp))
  simp only [List.append_nil, startTimer_elapsed, Nat.sub_zero, Nat.zero_add] at q
  have hb : l.rxfifo ≠ [] → Flow p l (quietLoop p p.tQuiesce (p.tQuiesce + 1) l.startTimer) [] 0 := fun h =>
    by simpa using (startTimer_flow p l).trans (quietLoop_buffered (p := p) (T := p.tQuiesce) (fuel := p.tQuiesce + 1) (l := l.startTimer) h)
  have hz := quietLoop_empty (p := p) (T := p.tQuiesce) (fuel := p.tQuiesce + 1) (l := l.startTimer) (by simp) (by simp)
  generalize quietLoop p p.tQuiesce (p.tQuiesce + 1) l.startTimer = l2 at q hb hz ⊢
  rcases rxTake_cases p l2 with ⟨l1, he, f, hnil, _⟩ | ⟨b, l1, he, f, _⟩
  · have hl2 : l2.rxfifo = [] := by
      obtain ⟨e, hx, _⟩ := f.rx
      rw [hnil] at hx
      simp only [taken, List.filterMap_nil, List.append_nil] at hx
      exact (List.append_eq_nil_iff.mp hx.symm).1
    have hl : l.rxfifo = [] := by
      obtain ⟨e, hx, _⟩ := q.rx
      rw [hl2] at hx
      simp only [taken, List.filterMap_nil, List.append_nil] at hx
      exact (List.append_eq_nil_iff.mp hx.symm).1
    have h2 := hz hl2
    have := f.ticks
    have := f.ticksLow
    refine .inl ⟨l1, he, by simpa using q.trans f, hnil, ?_, hl⟩
    simp at h2
    omega
  · refine .inr ⟨b, l1, he, by simpa using q.trans f, fun h => ?_⟩
    have g := (hb h).trans f
    have := g.ticks
    have := g.ticksLow
    omega

/-- The byte loop of RECVCOMPLETE meets its outcome (R172), past what it already has. -/
theorem completeLoop_outcome (p : Params) (limit : Nat) (got : List Byte) (l : Link) :
    ∃ new, (completeLoop p limit got l).1 = got ++ new ∧
      DrainOutcome p limit p.tQuiesce l (completeLoop p limit got l).2 new := by
  induction limit generalizing got l with
  | zero => exact ⟨[], by simp [completeLoop], by simp, by simp [completeLoop], rfl, rfl, ⟨[], by simp [completeLoop]⟩,
      by simp [completeLoop], by simp, by simp [completeLoop], by simp, Nat.le_refl _, by simp [completeLoop]⟩
  | succ limit ih =>
    unfold completeLoop
    have hmul : (limit + 1) * p.tQuiesce = p.tQuiesce + limit * p.tQuiesce := by ring
    rcases quietTake_cases p l with ⟨l1, he, f, hnil, htk, hl⟩ | ⟨b, l1, he, f, htk⟩
    · rw [he]
      obtain ⟨e, hx, hn⟩ := f.rx
      refine ⟨[], by simp, by simp, by simpa using f.hist, f.m0, f.m1, ⟨e, by simpa [taken] using hx, hn⟩, ?_, ?_, ?_,
        ?_, f.ticksLow, ?_⟩
      · rw [hl]; simp
      · intro _; exact ⟨hnil, by dsimp only; omega⟩
      · intro _; dsimp only; omega
      · intro bs h
        rcases (sendsWithin_feed h).quietTake with ⟨l2, h2, ha⟩ | ⟨b, rest, l2, h2, -, -⟩
        · rw [ha, List.take_nil]
        · rw [he] at h2; cases h2
      · dsimp only; omega
    · rw [he]
      obtain ⟨new, h1, h2, h3, h4, h5, ⟨e2, hx2, hn2⟩, h7, h8, h9, hp, h10, h11⟩ := ih (got ++ [b]) l1
      obtain ⟨e, hx, hn⟩ := f.rx
      simp only [taken, List.filterMap_cons, List.filterMap_nil, List.cons_append, List.nil_append] at hx
      have hft := f.ticks
      have hfl := f.ticksLow
      dsimp only
      refine ⟨b :: new, by simpa using h1, by simp; omega, by rw [h3, f.hist]; simp, h4.trans f.m0, h5.trans f.m1,
        ⟨e ++ e2, ?_, fun h => by simp [hn h, hn2 (f.calm h)]⟩, ?_, ?_, ?_, ?_, by omega, by omega⟩
      · rw [List.cons_append, hx2, ← List.cons_append, hx, List.append_assoc]
      · intro hle
        cases hr : l.rxfifo with
        | nil => rw [hr] at hle; simp at hle
        | cons c rest =>
          rw [hr] at hle hx
          simp only [List.cons_append, List.cons.injEq] at hx
          simp only [List.length_cons] at hle
          have hlen : rest.length ≤ l1.rxfifo.length := by rw [hx.2, List.length_append]; omega
          obtain ⟨ha, hb⟩ := h7 (by omega)
          refine ⟨?_, by rw [hb, htk (by rw [hr]; simp)]⟩
          rw [ha, hx.2, hx.1, List.take_succ_cons, List.take_append_of_le_length (by omega)]
      · intro hlt
        simp only [List.length_cons] at hlt
        obtain ⟨ha, hb⟩ := h8 (by omega)
        exact ⟨ha, by omega⟩
      · intro h
        have := h9 (f.calm h)
        have hr : l.rxfifo ≠ [] := by
          rw [hn h, List.append_nil] at hx
          rw [← hx]; simp
        have := htk hr
        omega
      · intro bs h
        rcases (sendsWithin_feed h).quietTake with ⟨l2, h2, -⟩ | ⟨c, rest, l2, h2, ha, g⟩
        · rw [he] at h2; cases h2
        · rw [he] at h2
          cases h2
          obtain ⟨bs', hs, hb⟩ := g.sendsWithin
          rw [ha, ← hb, List.take_succ_cons, ← hp bs' hs]

/-- The loop of RECVUNTIL meets its outcome (R174), past what it already has. -/
theorem untilLoop_outcome (p : Params) (d : Byte) (room : Nat) (got : List Byte) (l : Link) :
    ∃ new tail, (untilLoop p d room got l).2.1 = got ++ new ∧
      UntilOutcome p d room p.tReadTimeout l (untilLoop p d room got l).2.2 new tail (untilLoop p d room got l).1 := by
  induction room generalizing got l with
  | zero => exact ⟨[], [], by simp [untilLoop], by simp, by simp [untilLoop], rfl, rfl, ⟨[], by simp [untilLoop]⟩,
      .inr (.inl ⟨rfl, rfl, rfl⟩), by simp [untilLoop], fun bs _ => ⟨_, rfl, by simp [untilLoop]⟩, Nat.le_refl _, by simp [untilLoop]⟩
  | succ room ih =>
    have hmul : (room + 1) * p.tReadTimeout = p.tReadTimeout + room * p.tReadTimeout := by ring
    obtain ⟨hlen, f⟩ := readExactly_spec p 1 p.tReadTimeout l
    obtain ⟨-, -, -, -, -, hbuf, hshort, -, -⟩ := readExactly_outcome p 1 p.tReadTimeout l
    have hft := f.ticks
    have hfl := f.ticksLow
    unfold untilLoop
    split
    · rename_i l1 he
      rw [he] at f hshort hft hfl
      obtain ⟨e, hx, hn⟩ := f.rx
      obtain ⟨ha, hb⟩ := hshort (by simp)
      refine ⟨[], [], by simp, by simp, by simpa using f.hist, f.m0, f.m1, ⟨e, by simpa [taken] using hx, hn⟩,
        .inr (.inr ⟨rfl, rfl, by simp, ha, by dsimp only at *; omega⟩), ?_, ?_, f.ticksLow, ?_⟩
      · intro _; dsimp only at *; omega
      · intro bs h
        rcases (sendsWithin_feed h).readExactly with ⟨-, ha⟩ | ⟨b, rest, h2, -, -⟩
        · exact ⟨[], ha.symm, fun _ => rfl⟩
        · rw [he] at h2; cases h2
      · dsimp only at *; omega
    · rename_i b tl l1 he
      rw [he] at f hlen hbuf hft hfl
      have htl : tl = [] := by
        simp at hlen
        exact hlen
      subst htl
      have hpace : ∀ bs, l.sendsWithin p p.tReadTimeout bs →
          ∃ rest, l.rxfifo ++ bs = b :: rest ∧ Feed p p.tReadTimeout (2 * p.tReadTimeout) l1 rest := by
        intro bs h
        rcases (sendsWithin_feed h).readExactly with ⟨h2, -⟩ | ⟨c, rest, h2, ha, g⟩
        · rw [he] at h2; cases h2
        · rw [he] at h2 g
          cases h2
          exact ⟨rest, ha, g⟩
      obtain ⟨e, hx, hn⟩ := f.rx
      simp only [taken_map_rx, List.cons_append, List.nil_append] at hx
      have hcalm : l.noArrivals = true → l1.ticks = l.ticks := by
        intro h
        refine (hbuf ?_).2
        rw [hn h, List.append_nil] at hx
        rw [← hx]
        simp
      dsimp only at hft hfl
      by_cases hd : b = d
      · rw [if_pos hd]
        subst hd
        refine ⟨[], [b], by simp, by simp, by simpa using f.hist, f.m0, f.m1, ⟨e, by simpa using hx, hn⟩,
          .inl ⟨rfl, rfl, by simp⟩, fun h => ?_, fun bs h => ?_, hfl, ?_⟩
        · have := hcalm h; dsimp only; omega
        · obtain ⟨rest, ha, -⟩ := hpace bs h
          exact ⟨rest, by rw [ha]; simp, by simp⟩
        · dsimp only; omega
      · rw [if_neg hd]
        obtain ⟨new, tail, h1, h2, h3, h4, h5, ⟨e2, hx2, hn2⟩, h7, h8, hp, h9, h10⟩ := ih (got ++ [b]) l1
        refine ⟨b :: new, tail, by simpa using h1, ?_, by rw [h3, f.hist]; simp, h4.trans f.m0, h5.trans f.m1,
          ⟨e ++ e2, ?_, fun h => by simp [hn h, hn2 (f.calm h)]⟩, ?_, fun h => ?_, fun bs h => ?_, by omega, by omega⟩
        · simp only [List.mem_cons, not_or]
          exact ⟨fun e => hd e.symm, h2⟩
        · rw [List.cons_append, List.cons_append, hx2, ← List.cons_append, hx, List.append_assoc]
        · rcases h7 with ⟨a, b, c⟩ | ⟨a, b, c⟩ | ⟨a, b, c, u, v⟩
          · exact .inl ⟨a, b, by simp; omega⟩
          · exact .inr (.inl ⟨a, b, by simp; omega⟩)
          · exact .inr (.inr ⟨a, b, by simp; omega, u, by omega⟩)
        · have := h8 (f.calm h)
          have := hcalm h
          omega
        · obtain ⟨rest, ha, g⟩ := hpace bs h
          obtain ⟨bs', hs, hb⟩ := g.sendsWithin
          obtain ⟨rest', h11, h12⟩ := hp bs' hs
          exact ⟨rest', by rw [ha, ← hb, ← h11]; simp, h12⟩

end Sys2Proof.Machine
end

