-- ==== Sys2Proof/Laws/PerInstr.lean ====
section
/-! SUPPORT. Statements made for each instruction, one lemma per constructor. -/

namespace Sys2Proof.Laws

/-- The least and the most bytes of a well-formed instruction (spec/30_encoding.md R85, R92 to R94, R96, R99, R104 to
R111): the `width_bits` of its row of spec/opcode_table.json in bytes, a pin pair being one byte here. -/
def encodedBytes (i : Instr) : Nat × Nat :=
  match i with
  | .enccfg | .deccfg | .encreg | .decreg | .decinfo | .setmode | .getmode | .sendstruct | .recvstruct
  | .waitcomplete | .drain | .sendmsg | .sendfixed | .sendbcast | .recvmsg | .recvmsgrssi | .recvcomplete
  | .recvuntil | .available | .getcfg | .setcfg | .getinfo | .resetmod | .sendcfgmsg | .readreg | .writereg
  | .reserved _ | .sped _ _ _ | .option _ _ _ | .transmode _ _ _ _ | .modeNormal | .modeWorTx | .modeWorRx
  | .modeConfiguration | .cmdWritePersistent | .cmdRead | .cmdWriteVolatile | .cmdWrongFormat
  | .cmdSpecialExtended => (1, 1)
  | .wfHeader _ _ _ | .cfgReadReq | .infoReadReq | .regReadReqSpeed | .regReadReqOption | .regReadReqChannel
  | .regReadReqCrypt | .regReadReqTransmode => (3, 3)
  | .cfgBody _ => (8, 8)
  | .cfgWriteReq _ _ | .cfgResp _ _ _ => (11, 11)
  | .infoResp _ _ _ _ _ => (6, 6)
  | .regWriteReqSpeed _ _ _ _ | .regRespSpeed _ _ _ | .regWriteReqOption _ _ _ _ | .regRespOption _ _ _
  | .regWriteReqChannel _ _ | .regRespChannel _ _ _ | .regWriteReqTransmode _ _ _ _ _
  | .regRespTransmode _ _ _ => (4, 4)
  | .regWriteReqCrypt _ _ _ | .regRespCrypt _ _ _ _ => (5, 5)
  | .msgTransparent _ => (0, 200)
  | .msgFixed _ _ _ _ | .msgBcast _ _ => (3, 200)
  | .msgRemoteCfg _ _ _ _ _ => (14, 14)
  | .msgReceived _ _ => (0, 201)

/-- The encoding of a well-formed instruction has a number of bytes its format allows. -/
def EncodedWidth.Statement (i : Instr) : Prop :=
  i.wf = true → (encodedBytes i).1 ≤ (encode i).length ∧ (encode i).length ≤ (encodedBytes i).2

theorem EncodedWidth.enccfg : EncodedWidth.Statement .enccfg :=
  fun _ => ⟨Nat.le_refl _, Nat.le_refl _⟩

theorem EncodedWidth.deccfg : EncodedWidth.Statement .deccfg :=
  fun _ => ⟨Nat.le_refl _, Nat.le_refl _⟩

theorem EncodedWidth.encreg : EncodedWidth.Statement .encreg :=
  fun _ => ⟨Nat.le_refl _, Nat.le_refl _⟩

theorem EncodedWidth.decreg : EncodedWidth.Statement .decreg :=
  fun _ => ⟨Nat.le_refl _, Nat.le_refl _⟩

theorem EncodedWidth.decinfo : EncodedWidth.Statement .decinfo :=
  fun _ => ⟨Nat.le_refl _, Nat.le_refl _⟩

theorem EncodedWidth.setmode : EncodedWidth.Statement .setmode :=
  fun _ => ⟨Nat.le_refl _, Nat.le_refl _⟩

theorem EncodedWidth.getmode : EncodedWidth.Statement .getmode :=
  fun _ => ⟨Nat.le_refl _, Nat.le_refl _⟩

theorem EncodedWidth.sendstruct : EncodedWidth.Statement .sendstruct :=
  fun _ => ⟨Nat.le_refl _, Nat.le_refl _⟩

theorem EncodedWidth.recvstruct : EncodedWidth.Statement .recvstruct :=
  fun _ => ⟨Nat.le_refl _, Nat.le_refl _⟩

theorem EncodedWidth.waitcomplete : EncodedWidth.Statement .waitcomplete :=
  fun _ => ⟨Nat.le_refl _, Nat.le_refl _⟩

theorem EncodedWidth.drain : EncodedWidth.Statement .drain :=
  fun _ => ⟨Nat.le_refl _, Nat.le_refl _⟩

theorem EncodedWidth.sendmsg : EncodedWidth.Statement .sendmsg :=
  fun _ => ⟨Nat.le_refl _, Nat.le_refl _⟩

theorem EncodedWidth.sendfixed : EncodedWidth.Statement .sendfixed :=
  fun _ => ⟨Nat.le_refl _, Nat.le_refl _⟩

theorem EncodedWidth.sendbcast : EncodedWidth.Statement .sendbcast :=
  fun _ => ⟨Nat.le_refl _, Nat.le_refl _⟩

theorem EncodedWidth.recvmsg : EncodedWidth.Statement .recvmsg :=
  fun _ => ⟨Nat.le_refl _, Nat.le_refl _⟩

theorem EncodedWidth.recvmsgrssi : EncodedWidth.Statement .recvmsgrssi :=
  fun _ => ⟨Nat.le_refl _, Nat.le_refl _⟩

theorem EncodedWidth.recvcomplete : EncodedWidth.Statement .recvcomplete :=
  fun _ => ⟨Nat.le_refl _, Nat.le_refl _⟩

theorem EncodedWidth.recvuntil : EncodedWidth.Statement .recvuntil :=
  fun _ => ⟨Nat.le_refl _, Nat.le_refl _⟩

theorem EncodedWidth.available : EncodedWidth.Statement .available :=
  fun _ => ⟨Nat.le_refl _, Nat.le_refl _⟩

theorem EncodedWidth.getcfg : EncodedWidth.Statement .getcfg :=
  fun _ => ⟨Nat.le_refl _, Nat.le_refl _⟩

theorem EncodedWidth.setcfg : EncodedWidth.Statement .setcfg :=
  fun _ => ⟨Nat.le_refl _, Nat.le_refl _⟩

theorem EncodedWidth.getinfo : EncodedWidth.Statement .getinfo :=
  fun _ => ⟨Nat.le_refl _, Nat.le_refl _⟩

theorem EncodedWidth.resetmod : EncodedWidth.Statement .resetmod :=
  fun _ => ⟨Nat.le_refl _, Nat.le_refl _⟩

theorem EncodedWidth.sendcfgmsg : EncodedWidth.Statement .sendcfgmsg :=
  fun _ => ⟨Nat.le_refl _, Nat.le_refl _⟩

theorem EncodedWidth.readreg : EncodedWidth.Statement .readreg :=
  fun _ => ⟨Nat.le_refl _, Nat.le_refl _⟩

theorem EncodedWidth.writereg : EncodedWidth.Statement .writereg :=
  fun _ => ⟨Nat.le_refl _, Nat.le_refl _⟩

theorem EncodedWidth.reserved (op : Byte) : EncodedWidth.Statement (.reserved op) :=
  fun _ => ⟨Nat.le_refl _, Nat.le_refl _⟩

theorem EncodedWidth.wfHeader (c : Byte) (a : Byte) (n : Byte) : EncodedWidth.Statement (.wfHeader c a n) :=
  fun _ => ⟨Nat.le_refl _, Nat.le_refl _⟩

theorem EncodedWidth.sped (b : BitVec 3) (p : BitVec 2) (a : BitVec 3) : EncodedWidth.Statement (.sped b p a) :=
  fun _ => ⟨Nat.le_refl _, Nat.le_refl _⟩

theorem EncodedWidth.option (sub : BitVec 2) (n : Bit) (w : BitVec 2) : EncodedWidth.Statement (.option sub n w) :=
  fun _ => ⟨Nat.le_refl _, Nat.le_refl _⟩

theorem EncodedWidth.transmode (r : Bit) (f : Bit) (t : Bit) (k : BitVec 3) : EncodedWidth.Statement (.transmode r f t k) :=
  fun _ => ⟨Nat.le_refl _, Nat.le_refl _⟩

theorem EncodedWidth.cfgBody (c : CfgBody) : EncodedWidth.Statement (.cfgBody c) :=
  fun _ => ⟨Nat.le_refl _, Nat.le_refl _⟩

theorem EncodedWidth.cfgReadReq : EncodedWidth.Statement .cfgReadReq :=
  fun _ => ⟨Nat.le_refl _, Nat.le_refl _⟩

theorem EncodedWidth.cfgWriteReq (v : SaveType) (c : CfgBody) : EncodedWidth.Statement (.cfgWriteReq v c) :=
  fun _ => ⟨Nat.le_refl _, Nat.le_refl _⟩

theorem EncodedWidth.cfgResp (a : Byte) (n : Byte) (bs : BodyBytes) : EncodedWidth.Statement (.cfgResp a n bs) :=
  fun _ => ⟨Nat.le_refl _, Nat.le_refl _⟩

theorem EncodedWidth.infoReadReq : EncodedWidth.Statement .infoReadReq :=
  fun _ => ⟨Nat.le_refl _, Nat.le_refl _⟩

theorem EncodedWidth.infoResp (a : Byte) (n : Byte) (m : Byte) (v : Byte) (f : Byte) : EncodedWidth.Statement (.infoResp a n m v f) :=
  fun _ => ⟨Nat.le_refl _, Nat.le_refl _⟩

theorem EncodedWidth.regReadReqSpeed : EncodedWidth.Statement .regReadReqSpeed :=
  fun _ => ⟨Nat.le_refl _, Nat.le_refl _⟩

theorem EncodedWidth.regWriteReqSpeed (v : SaveType) (b : BitVec 3) (p : BitVec 2) (a : BitVec 3) : EncodedWidth.Statement (.regWriteReqSpeed v b p a) :=
  fun _ => ⟨Nat.le_refl _, Nat.le_refl _⟩

theorem EncodedWidth.regRespSpeed (a : Byte) (n : Byte) (x : Byte) : EncodedWidth.Statement (.regRespSpeed a n x) :=
  fun _ => ⟨Nat.le_refl _, Nat.le_refl _⟩

theorem EncodedWidth.regReadReqOption : EncodedWidth.Statement .regReadReqOption :=
  fun _ => ⟨Nat.le_refl _, Nat.le_refl _⟩

theorem EncodedWidth.regWriteReqOption (v : SaveType) (sub : BitVec 2) (n : Bit) (w : BitVec 2) : EncodedWidth.Statement (.regWriteReqOption v sub n w) :=
  fun _ => ⟨Nat.le_refl _, Nat.le_refl _⟩

theorem EncodedWidth.regRespOption (a : Byte) (n : Byte) (x : Byte) : EncodedWidth.Statement (.regRespOption a n x) :=
  fun _ => ⟨Nat.le_refl _, Nat.le_refl _⟩

theorem EncodedWidth.regReadReqChannel : EncodedWidth.Statement .regReadReqChannel :=
  fun _ => ⟨Nat.le_refl _, Nat.le_refl _⟩

theorem EncodedWidth.regWriteReqChannel (v : SaveType) (c : Byte) : EncodedWidth.Statement (.regWriteReqChannel v c) :=
  fun _ => ⟨Nat.le_refl _, Nat.le_refl _⟩

theorem EncodedWidth.regRespChannel (a : Byte) (n : Byte) (x : Byte) : EncodedWidth.Statement (.regRespChannel a n x) :=
  fun _ => ⟨Nat.le_refl _, Nat.le_refl _⟩

theorem EncodedWidth.regReadReqCrypt : EncodedWidth.Statement .regReadReqCrypt :=
  fun _ => ⟨Nat.le_refl _, Nat.le_refl _⟩

theorem EncodedWidth.regWriteReqCrypt (v : SaveType) (x : Byte) (y : Byte) : EncodedWidth.Statement (.regWriteReqCrypt v x y) :=
  fun _ => ⟨Nat.le_refl _, Nat.le_refl _⟩

theorem EncodedWidth.regRespCrypt (a : Byte) (n : Byte) (x : Byte) (y : Byte) : EncodedWidth.Statement (.regRespCrypt a n x y) :=
  fun _ => ⟨Nat.le_refl _, Nat.le_refl _⟩

theorem EncodedWidth.regReadReqTransmode : EncodedWidth.Statement .regReadReqTransmode :=
  fun _ => ⟨Nat.le_refl _, Nat.le_refl _⟩

theorem EncodedWidth.regWriteReqTransmode (v : SaveType) (r : Bit) (f : Bit) (t : Bit) (k : BitVec 3) : EncodedWidth.Statement (.regWriteReqTransmode v r f t k) :=
  fun _ => ⟨Nat.le_refl _, Nat.le_refl _⟩

theorem EncodedWidth.regRespTransmode (a : Byte) (n : Byte) (x : Byte) : EncodedWidth.Statement (.regRespTransmode a n x) :=
  fun _ => ⟨Nat.le_refl _, Nat.le_refl _⟩

theorem EncodedWidth.msgTransparent (payload : List Byte) : EncodedWidth.Statement (.msgTransparent payload) := by
  intro h
  simp only [Instr.wf, decide_eq_true_eq] at h
  exact ⟨Nat.zero_le _, h⟩

theorem EncodedWidth.msgFixed (h : Byte) (l : Byte) (c : Byte) (payload : List Byte) : EncodedWidth.Statement (.msgFixed h l c payload) := by
  intro h
  simp only [Instr.wf, decide_eq_true_eq] at h
  simp only [encodedBytes, encode, List.length_append, List.length_cons, List.length_nil]
  omega

theorem EncodedWidth.msgBcast (c : Byte) (payload : List Byte) : EncodedWidth.Statement (.msgBcast c payload) := by
  intro h
  simp only [Instr.wf, decide_eq_true_eq] at h
  simp only [encodedBytes, encode, List.length_append, List.length_cons, List.length_nil]
  omega

theorem EncodedWidth.msgRemoteCfg (h : Byte) (l : Byte) (c : Byte) (q : ProgCmd) (body : CfgBody) : EncodedWidth.Statement (.msgRemoteCfg h l c q body) :=
  fun _ => ⟨Nat.le_refl _, Nat.le_refl _⟩

theorem EncodedWidth.msgReceived (payload : List Byte) (trailer : Option Byte) : EncodedWidth.Statement (.msgReceived payload trailer) := by
  intro h
  simp only [Instr.wf, decide_eq_true_eq] at h
  cases trailer <;> simp [encodedBytes, encode] <;> omega

theorem EncodedWidth.modeNormal : EncodedWidth.Statement .modeNormal :=
  fun _ => ⟨Nat.le_refl _, Nat.le_refl _⟩

theorem EncodedWidth.modeWorTx : EncodedWidth.Statement .modeWorTx :=
  fun _ => ⟨Nat.le_refl _, Nat.le_refl _⟩

theorem EncodedWidth.modeWorRx : EncodedWidth.Statement .modeWorRx :=
  fun _ => ⟨Nat.le_refl _, Nat.le_refl _⟩

theorem EncodedWidth.modeConfiguration : EncodedWidth.Statement .modeConfiguration :=
  fun _ => ⟨Nat.le_refl _, Nat.le_refl _⟩

theorem EncodedWidth.cmdWritePersistent : EncodedWidth.Statement .cmdWritePersistent :=
  fun _ => ⟨Nat.le_refl _, Nat.le_refl _⟩

theorem EncodedWidth.cmdRead : EncodedWidth.Statement .cmdRead :=
  fun _ => ⟨Nat.le_refl _, Nat.le_refl _⟩

theorem EncodedWidth.cmdWriteVolatile : EncodedWidth.Statement .cmdWriteVolatile :=
  fun _ => ⟨Nat.le_refl _, Nat.le_refl _⟩

theorem EncodedWidth.cmdWrongFormat : EncodedWidth.Statement .cmdWrongFormat :=
  fun _ => ⟨Nat.le_refl _, Nat.le_refl _⟩

theorem EncodedWidth.cmdSpecialExtended : EncodedWidth.Statement .cmdSpecialExtended :=
  fun _ => ⟨Nat.le_refl _, Nat.le_refl _⟩

end Sys2Proof.Laws
end

