-- ==== Sys2Proof/Laws/Start.lean ====
section
/-! SUPPORT. What a state started on a row is: the command that runs next, and what a loaded or delivered buffer reads. -/

namespace Sys2Proof.Machine

@[simp] theorem startAlone_seq (op : Byte) (s : State) : (s.startAlone op).seq = .run := rfl
@[simp] theorem startAlone_busy (op : Byte) (s : State) : (s.startAlone op).busy = 1#1 := rfl
@[simp] theorem startAlone_cmd (op : Byte) (s : State) : (s.startAlone op).cmd = op := rfl
@[simp] theorem startAlone_link (op : Byte) (s : State) : (s.startAlone op).link = s.link := rfl
@[simp] theorem startAlone_mode (op : Byte) (s : State) : (s.startAlone op).mode = s.mode := rfl
@[simp] theorem startAlone_params (op : Byte) (s : State) : (s.startAlone op).params = s.params := rfl
@[simp] theorem startAlone_cfg (op : Byte) (s : State) : (s.startAlone op).cfg = s.cfg := rfl
@[simp] theorem startAlone_cfgHdr (op : Byte) (s : State) : (s.startAlone op).cfgHdr = s.cfgHdr := rfl
@[simp] theorem startAlone_dlen (op : Byte) (s : State) : (s.startAlone op).dlen = s.dlen := rfl
@[simp] theorem startAlone_rlen (op : Byte) (s : State) : (s.startAlone op).rlen = s.rlen := rfl
@[simp] theorem startAlone_tbuf (op : Byte) (s : State) : (s.startAlone op).tbuf = s.tbuf := rfl
@[simp] theorem startAlone_rbuf (op : Byte) (s : State) : (s.startAlone op).rbuf = s.rbuf := rfl

/-- No host access is left to come before the command. -/
@[simp] theorem startAlone_undisturbed (op : Byte) (s : State) : (s.startAlone op).undisturbed = true := by
  have : ∀ (l : List Move) (t : State), ({ t with sched := l.dropWhile Move.isNow } : State).undisturbed = true := by
    intro l t
    induction l with
    | nil => rfl
    | cons m l ih => cases m <;> simp_all [State.undisturbed, List.dropWhile, Move.isNow]
  exact this s.sched _

/-- An item is a frame from the device, or the 0xCF code. -/
theorem isItem_iff (i : Instr) : isItem i = true ↔ i.fromDevice = true ∨ i = .cmdSpecialExtended := by
  constructor
  · intro h
    cases i <;> first | exact .inl rfl | exact .inr rfl | exact absurd h Bool.false_ne_true
  · rintro (h | rfl)
    · cases i <;> first | rfl | exact absurd h Bool.false_ne_true
    · rfl

/-- A stretch of what was written from index 0 reads as written. -/
theorem Memory.readBytes_writeBytes (m : Memory) (bs : List Byte) (k n : Nat) (hn : k + n ≤ bs.length)
    (h : bs.length ≤ Config.bufSize) : (m.writeBytes 0 bs).readBytes k n = (bs.drop k).take n := by
  apply List.ext_getElem (by simp; omega)
  intro i h1 h2
  rw [Memory.readBytes_getElem]
  simp only [Memory.readBytes_length] at h1
  have := Memory.read_writeBytes_inside m 0 bs (k + i) (by omega) (by omega)
  rw [Nat.zero_add] at this
  rw [this]
  simp

/-- A loaded `TBUF` is sent whole. -/
theorem load_txPayload (s : State) (bs : List Byte) (h : bs.length ≤ Config.bufSize) : (s.load bs).txPayload = bs := by
  have e : (BitVec.ofNat 16 bs.length).toNat = bs.length := by
    have : Config.bufSize = 200 := rfl
    simp; omega
  unfold State.txPayload State.load
  simp only [e]
  rw [Memory.readBytes_writeBytes _ _ 0 bs.length (by omega) h]
  simp

end Sys2Proof.Machine
end

