-- ==== Sys2Proof/Laws/State.lean ====
section
/-! SUPPORT. One lemma for each field under each named update of the state, true by `rfl`, so that no proof unfolds a record
update; and `raise` as the next state it answers. -/

namespace Sys2Proof.Machine

theorem raise_eq (st : Status) (s : State) : raise st s = .next (s.completed st) := rfl

/-! ## command completion (R199) -/

@[simp] theorem State.completed_cmd (s : State) (st : Status) : (s.completed st).cmd = s.cmd := rfl
@[simp] theorem State.completed_status (s : State) (st : Status) : (s.completed st).status = st := rfl
@[simp] theorem State.completed_busy (s : State) (st : Status) : (s.completed st).busy = 0#1 := rfl
@[simp] theorem State.completed_mode (s : State) (st : Status) : (s.completed st).mode = s.mode := rfl
@[simp] theorem State.completed_result (s : State) (st : Status) : (s.completed st).result = s.result := rfl
@[simp] theorem State.completed_arg0 (s : State) (st : Status) : (s.completed st).arg0 = s.arg0 := rfl
@[simp] theorem State.completed_arg1 (s : State) (st : Status) : (s.completed st).arg1 = s.arg1 := rfl
@[simp] theorem State.completed_arg2 (s : State) (st : Status) : (s.completed st).arg2 = s.arg2 := rfl
@[simp] theorem State.completed_arg3 (s : State) (st : Status) : (s.completed st).arg3 = s.arg3 := rfl
@[simp] theorem State.completed_argt (s : State) (st : Status) : (s.completed st).argt = s.argt := rfl
@[simp] theorem State.completed_argp (s : State) (st : Status) : (s.completed st).argp = s.argp := rfl
@[simp] theorem State.completed_dlen (s : State) (st : Status) : (s.completed st).dlen = s.dlen := rfl
@[simp] theorem State.completed_rlen (s : State) (st : Status) : (s.completed st).rlen = s.rlen := rfl
@[simp] theorem State.completed_rssi (s : State) (st : Status) : (s.completed st).rssi = s.rssi := rfl
@[simp] theorem State.completed_rssiValid (s : State) (st : Status) : (s.completed st).rssiValid = s.rssiValid := rfl
@[simp] theorem State.completed_cfgHdr (s : State) (st : Status) : (s.completed st).cfgHdr = s.cfgHdr := rfl
@[simp] theorem State.completed_cfg (s : State) (st : Status) : (s.completed st).cfg = s.cfg := rfl
@[simp] theorem State.completed_info (s : State) (st : Status) : (s.completed st).info = s.info := rfl
@[simp] theorem State.completed_tbuf (s : State) (st : Status) : (s.completed st).tbuf = s.tbuf := rfl
@[simp] theorem State.completed_rbuf (s : State) (st : Status) : (s.completed st).rbuf = s.rbuf := rfl
@[simp] theorem State.completed_seq (s : State) (st : Status) : (s.completed st).seq = .idle := rfl
@[simp] theorem State.completed_link (s : State) (st : Status) : (s.completed st).link = s.link := rfl
@[simp] theorem State.completed_linkBaud (s : State) (st : Status) : (s.completed st).linkBaud = s.linkBaud := rfl
@[simp] theorem State.completed_params (s : State) (st : Status) : (s.completed st).params = s.params := rfl
@[simp] theorem State.completed_sched (s : State) (st : Status) : (s.completed st).sched = s.sched := rfl
@[simp] theorem State.completed_reads (s : State) (st : Status) : (s.completed st).reads = s.reads := rfl
@[simp] theorem State.completed_draws (s : State) (st : Status) : (s.completed st).draws = s.draws := rfl

/-! ## another link -/

@[simp] theorem State.withLink_cmd (s : State) (l : Link) : (s.withLink l).cmd = s.cmd := rfl
@[simp] theorem State.withLink_status (s : State) (l : Link) : (s.withLink l).status = s.status := rfl
@[simp] theorem State.withLink_busy (s : State) (l : Link) : (s.withLink l).busy = s.busy := rfl
@[simp] theorem State.withLink_mode (s : State) (l : Link) : (s.withLink l).mode = s.mode := rfl
@[simp] theorem State.withLink_result (s : State) (l : Link) : (s.withLink l).result = s.result := rfl
@[simp] theorem State.withLink_arg0 (s : State) (l : Link) : (s.withLink l).arg0 = s.arg0 := rfl
@[simp] theorem State.withLink_arg1 (s : State) (l : Link) : (s.withLink l).arg1 = s.arg1 := rfl
@[simp] theorem State.withLink_arg2 (s : State) (l : Link) : (s.withLink l).arg2 = s.arg2 := rfl
@[simp] theorem State.withLink_arg3 (s : State) (l : Link) : (s.withLink l).arg3 = s.arg3 := rfl
@[simp] theorem State.withLink_argt (s : State) (l : Link) : (s.withLink l).argt = s.argt := rfl
@[simp] theorem State.withLink_argp (s : State) (l : Link) : (s.withLink l).argp = s.argp := rfl
@[simp] theorem State.withLink_dlen (s : State) (l : Link) : (s.withLink l).dlen = s.dlen := rfl
@[simp] theorem State.withLink_rlen (s : State) (l : Link) : (s.withLink l).rlen = s.rlen := rfl
@[simp] theorem State.withLink_rssi (s : State) (l : Link) : (s.withLink l).rssi = s.rssi := rfl
@[simp] theorem State.withLink_rssiValid (s : State) (l : Link) : (s.withLink l).rssiValid = s.rssiValid := rfl
@[simp] theorem State.withLink_cfgHdr (s : State) (l : Link) : (s.withLink l).cfgHdr = s.cfgHdr := rfl
@[simp] theorem State.withLink_cfg (s : State) (l : Link) : (s.withLink l).cfg = s.cfg := rfl
@[simp] theorem State.withLink_info (s : State) (l : Link) : (s.withLink l).info = s.info := rfl
@[simp] theorem State.withLink_tbuf (s : State) (l : Link) : (s.withLink l).tbuf = s.tbuf := rfl
@[simp] theorem State.withLink_rbuf (s : State) (l : Link) : (s.withLink l).rbuf = s.rbuf := rfl
@[simp] theorem State.withLink_seq (s : State) (l : Link) : (s.withLink l).seq = s.seq := rfl
@[simp] theorem State.withLink_link (s : State) (l : Link) : (s.withLink l).link = l := rfl
@[simp] theorem State.withLink_linkBaud (s : State) (l : Link) : (s.withLink l).linkBaud = s.linkBaud := rfl
@[simp] theorem State.withLink_params (s : State) (l : Link) : (s.withLink l).params = s.params := rfl
@[simp] theorem State.withLink_sched (s : State) (l : Link) : (s.withLink l).sched = s.sched := rfl
@[simp] theorem State.withLink_reads (s : State) (l : Link) : (s.withLink l).reads = s.reads := rfl
@[simp] theorem State.withLink_draws (s : State) (l : Link) : (s.withLink l).draws = s.draws := rfl

/-! ## delivery (R35) -/

@[simp] theorem State.deliver_cmd (s : State) (bs : List Byte) : (s.deliver bs).cmd = s.cmd := rfl
@[simp] theorem State.deliver_status (s : State) (bs : List Byte) : (s.deliver bs).status = s.status := rfl
@[simp] theorem State.deliver_busy (s : State) (bs : List Byte) : (s.deliver bs).busy = s.busy := rfl
@[simp] theorem State.deliver_mode (s : State) (bs : List Byte) : (s.deliver bs).mode = s.mode := rfl
@[simp] theorem State.deliver_result (s : State) (bs : List Byte) : (s.deliver bs).result = s.result := rfl
@[simp] theorem State.deliver_arg0 (s : State) (bs : List Byte) : (s.deliver bs).arg0 = s.arg0 := rfl
@[simp] theorem State.deliver_arg1 (s : State) (bs : List Byte) : (s.deliver bs).arg1 = s.arg1 := rfl
@[simp] theorem State.deliver_arg2 (s : State) (bs : List Byte) : (s.deliver bs).arg2 = s.arg2 := rfl
@[simp] theorem State.deliver_arg3 (s : State) (bs : List Byte) : (s.deliver bs).arg3 = s.arg3 := rfl
@[simp] theorem State.deliver_argt (s : State) (bs : List Byte) : (s.deliver bs).argt = s.argt := rfl
@[simp] theorem State.deliver_argp (s : State) (bs : List Byte) : (s.deliver bs).argp = s.argp := rfl
@[simp] theorem State.deliver_dlen (s : State) (bs : List Byte) : (s.deliver bs).dlen = s.dlen := rfl
@[simp] theorem State.deliver_rlen (s : State) (bs : List Byte) : (s.deliver bs).rlen = BitVec.ofNat 8 bs.length := rfl
@[simp] theorem State.deliver_rssi (s : State) (bs : List Byte) : (s.deliver bs).rssi = s.rssi := rfl
@[simp] theorem State.deliver_rssiValid (s : State) (bs : List Byte) : (s.deliver bs).rssiValid = s.rssiValid := rfl
@[simp] theorem State.deliver_cfgHdr (s : State) (bs : List Byte) : (s.deliver bs).cfgHdr = s.cfgHdr := rfl
@[simp] theorem State.deliver_cfg (s : State) (bs : List Byte) : (s.deliver bs).cfg = s.cfg := rfl
@[simp] theorem State.deliver_info (s : State) (bs : List Byte) : (s.deliver bs).info = s.info := rfl
@[simp] theorem State.deliver_tbuf (s : State) (bs : List Byte) : (s.deliver bs).tbuf = s.tbuf := rfl
@[simp] theorem State.deliver_rbuf (s : State) (bs : List Byte) : (s.deliver bs).rbuf = s.rbuf.writeBytes 0 bs := rfl
@[simp] theorem State.deliver_seq (s : State) (bs : List Byte) : (s.deliver bs).seq = s.seq := rfl
@[simp] theorem State.deliver_link (s : State) (bs : List Byte) : (s.deliver bs).link = s.link := rfl
@[simp] theorem State.deliver_linkBaud (s : State) (bs : List Byte) : (s.deliver bs).linkBaud = s.linkBaud := rfl
@[simp] theorem State.deliver_params (s : State) (bs : List Byte) : (s.deliver bs).params = s.params := rfl
@[simp] theorem State.deliver_sched (s : State) (bs : List Byte) : (s.deliver bs).sched = s.sched := rfl
@[simp] theorem State.deliver_reads (s : State) (bs : List Byte) : (s.deliver bs).reads = s.reads := rfl
@[simp] theorem State.deliver_draws (s : State) (bs : List Byte) : (s.deliver bs).draws = s.draws := rfl

/-! ## a failed receive (R201) -/

@[simp] theorem State.failReceive_cmd (s : State) : (s.failReceive).cmd = s.cmd := rfl
@[simp] theorem State.failReceive_status (s : State) : (s.failReceive).status = s.status := rfl
@[simp] theorem State.failReceive_busy (s : State) : (s.failReceive).busy = s.busy := rfl
@[simp] theorem State.failReceive_mode (s : State) : (s.failReceive).mode = s.mode := rfl
@[simp] theorem State.failReceive_result (s : State) : (s.failReceive).result = s.result := rfl
@[simp] theorem State.failReceive_arg0 (s : State) : (s.failReceive).arg0 = s.arg0 := rfl
@[simp] theorem State.failReceive_arg1 (s : State) : (s.failReceive).arg1 = s.arg1 := rfl
@[simp] theorem State.failReceive_arg2 (s : State) : (s.failReceive).arg2 = s.arg2 := rfl
@[simp] theorem State.failReceive_arg3 (s : State) : (s.failReceive).arg3 = s.arg3 := rfl
@[simp] theorem State.failReceive_argt (s : State) : (s.failReceive).argt = s.argt := rfl
@[simp] theorem State.failReceive_argp (s : State) : (s.failReceive).argp = s.argp := rfl
@[simp] theorem State.failReceive_dlen (s : State) : (s.failReceive).dlen = s.dlen := rfl
@[simp] theorem State.failReceive_rlen (s : State) : (s.failReceive).rlen = 0#8 := rfl
@[simp] theorem State.failReceive_rssi (s : State) : (s.failReceive).rssi = s.rssi := rfl
@[simp] theorem State.failReceive_rssiValid (s : State) : (s.failReceive).rssiValid = s.rssiValid := rfl
@[simp] theorem State.failReceive_cfgHdr (s : State) : (s.failReceive).cfgHdr = s.cfgHdr := rfl
@[simp] theorem State.failReceive_cfg (s : State) : (s.failReceive).cfg = s.cfg := rfl
@[simp] theorem State.failReceive_info (s : State) : (s.failReceive).info = s.info := rfl
@[simp] theorem State.failReceive_tbuf (s : State) : (s.failReceive).tbuf = s.tbuf := rfl
@[simp] theorem State.failReceive_rbuf (s : State) : (s.failReceive).rbuf = Memory.unspecified s.draws := rfl
@[simp] theorem State.failReceive_seq (s : State) : (s.failReceive).seq = s.seq := rfl
@[simp] theorem State.failReceive_link (s : State) : (s.failReceive).link = s.link := rfl
@[simp] theorem State.failReceive_linkBaud (s : State) : (s.failReceive).linkBaud = s.linkBaud := rfl
@[simp] theorem State.failReceive_params (s : State) : (s.failReceive).params = s.params := rfl
@[simp] theorem State.failReceive_sched (s : State) : (s.failReceive).sched = s.sched := rfl
@[simp] theorem State.failReceive_reads (s : State) : (s.failReceive).reads = s.reads := rfl
@[simp] theorem State.failReceive_draws (s : State) : (s.failReceive).draws = s.draws + 1 := rfl

/-! ## clearing `RSSI_VALID` (R36) -/

@[simp] theorem State.clearRssi_cmd (s : State) : (s.clearRssi).cmd = s.cmd := rfl
@[simp] theorem State.clearRssi_status (s : State) : (s.clearRssi).status = s.status := rfl
@[simp] theorem State.clearRssi_busy (s : State) : (s.clearRssi).busy = s.busy := rfl
@[simp] theorem State.clearRssi_mode (s : State) : (s.clearRssi).mode = s.mode := rfl
@[simp] theorem State.clearRssi_result (s : State) : (s.clearRssi).result = s.result := rfl
@[simp] theorem State.clearRssi_arg0 (s : State) : (s.clearRssi).arg0 = s.arg0 := rfl
@[simp] theorem State.clearRssi_arg1 (s : State) : (s.clearRssi).arg1 = s.arg1 := rfl
@[simp] theorem State.clearRssi_arg2 (s : State) : (s.clearRssi).arg2 = s.arg2 := rfl
@[simp] theorem State.clearRssi_arg3 (s : State) : (s.clearRssi).arg3 = s.arg3 := rfl
@[simp] theorem State.clearRssi_argt (s : State) : (s.clearRssi).argt = s.argt := rfl
@[simp] theorem State.clearRssi_argp (s : State) : (s.clearRssi).argp = s.argp := rfl
@[simp] theorem State.clearRssi_dlen (s : State) : (s.clearRssi).dlen = s.dlen := rfl
@[simp] theorem State.clearRssi_rlen (s : State) : (s.clearRssi).rlen = s.rlen := rfl
@[simp] theorem State.clearRssi_rssi (s : State) : (s.clearRssi).rssi = s.rssi := rfl
@[simp] theorem State.clearRssi_rssiValid (s : State) : (s.clearRssi).rssiValid = 0#1 := rfl
@[simp] theorem State.clearRssi_cfgHdr (s : State) : (s.clearRssi).cfgHdr = s.cfgHdr := rfl
@[simp] theorem State.clearRssi_cfg (s : State) : (s.clearRssi).cfg = s.cfg := rfl
@[simp] theorem State.clearRssi_info (s : State) : (s.clearRssi).info = s.info := rfl
@[simp] theorem State.clearRssi_tbuf (s : State) : (s.clearRssi).tbuf = s.tbuf := rfl
@[simp] theorem State.clearRssi_rbuf (s : State) : (s.clearRssi).rbuf = s.rbuf := rfl
@[simp] theorem State.clearRssi_seq (s : State) : (s.clearRssi).seq = s.seq := rfl
@[simp] theorem State.clearRssi_link (s : State) : (s.clearRssi).link = s.link := rfl
@[simp] theorem State.clearRssi_linkBaud (s : State) : (s.clearRssi).linkBaud = s.linkBaud := rfl
@[simp] theorem State.clearRssi_params (s : State) : (s.clearRssi).params = s.params := rfl
@[simp] theorem State.clearRssi_sched (s : State) : (s.clearRssi).sched = s.sched := rfl
@[simp] theorem State.clearRssi_reads (s : State) : (s.clearRssi).reads = s.reads := rfl
@[simp] theorem State.clearRssi_draws (s : State) : (s.clearRssi).draws = s.draws := rfl

/-! ## an RSSI reading (R36) -/

@[simp] theorem State.setRssi_cmd (s : State) (b : Byte) : (s.setRssi b).cmd = s.cmd := rfl
@[simp] theorem State.setRssi_status (s : State) (b : Byte) : (s.setRssi b).status = s.status := rfl
@[simp] theorem State.setRssi_busy (s : State) (b : Byte) : (s.setRssi b).busy = s.busy := rfl
@[simp] theorem State.setRssi_mode (s : State) (b : Byte) : (s.setRssi b).mode = s.mode := rfl
@[simp] theorem State.setRssi_result (s : State) (b : Byte) : (s.setRssi b).result = s.result := rfl
@[simp] theorem State.setRssi_arg0 (s : State) (b : Byte) : (s.setRssi b).arg0 = s.arg0 := rfl
@[simp] theorem State.setRssi_arg1 (s : State) (b : Byte) : (s.setRssi b).arg1 = s.arg1 := rfl
@[simp] theorem State.setRssi_arg2 (s : State) (b : Byte) : (s.setRssi b).arg2 = s.arg2 := rfl
@[simp] theorem State.setRssi_arg3 (s : State) (b : Byte) : (s.setRssi b).arg3 = s.arg3 := rfl
@[simp] theorem State.setRssi_argt (s : State) (b : Byte) : (s.setRssi b).argt = s.argt := rfl
@[simp] theorem State.setRssi_argp (s : State) (b : Byte) : (s.setRssi b).argp = s.argp := rfl
@[simp] theorem State.setRssi_dlen (s : State) (b : Byte) : (s.setRssi b).dlen = s.dlen := rfl
@[simp] theorem State.setRssi_rlen (s : State) (b : Byte) : (s.setRssi b).rlen = s.rlen := rfl
@[simp] theorem State.setRssi_rssi (s : State) (b : Byte) : (s.setRssi b).rssi = b := rfl
@[simp] theorem State.setRssi_rssiValid (s : State) (b : Byte) : (s.setRssi b).rssiValid = 1#1 := rfl
@[simp] theorem State.setRssi_cfgHdr (s : State) (b : Byte) : (s.setRssi b).cfgHdr = s.cfgHdr := rfl
@[simp] theorem State.setRssi_cfg (s : State) (b : Byte) : (s.setRssi b).cfg = s.cfg := rfl
@[simp] theorem State.setRssi_info (s : State) (b : Byte) : (s.setRssi b).info = s.info := rfl
@[simp] theorem State.setRssi_tbuf (s : State) (b : Byte) : (s.setRssi b).tbuf = s.tbuf := rfl
@[simp] theorem State.setRssi_rbuf (s : State) (b : Byte) : (s.setRssi b).rbuf = s.rbuf := rfl
@[simp] theorem State.setRssi_seq (s : State) (b : Byte) : (s.setRssi b).seq = s.seq := rfl
@[simp] theorem State.setRssi_link (s : State) (b : Byte) : (s.setRssi b).link = s.link := rfl
@[simp] theorem State.setRssi_linkBaud (s : State) (b : Byte) : (s.setRssi b).linkBaud = s.linkBaud := rfl
@[simp] theorem State.setRssi_params (s : State) (b : Byte) : (s.setRssi b).params = s.params := rfl
@[simp] theorem State.setRssi_sched (s : State) (b : Byte) : (s.setRssi b).sched = s.sched := rfl
@[simp] theorem State.setRssi_reads (s : State) (b : Byte) : (s.setRssi b).reads = s.reads := rfl
@[simp] theorem State.setRssi_draws (s : State) (b : Byte) : (s.setRssi b).draws = s.draws := rfl

/-! ## the encoders' delivery (R125, R128) -/

@[simp] theorem State.load_cmd (s : State) (bs : List Byte) : (s.load bs).cmd = s.cmd := rfl
@[simp] theorem State.load_status (s : State) (bs : List Byte) : (s.load bs).status = s.status := rfl
@[simp] theorem State.load_busy (s : State) (bs : List Byte) : (s.load bs).busy = s.busy := rfl
@[simp] theorem State.load_mode (s : State) (bs : List Byte) : (s.load bs).mode = s.mode := rfl
@[simp] theorem State.load_result (s : State) (bs : List Byte) : (s.load bs).result = s.result := rfl
@[simp] theorem State.load_arg0 (s : State) (bs : List Byte) : (s.load bs).arg0 = s.arg0 := rfl
@[simp] theorem State.load_arg1 (s : State) (bs : List Byte) : (s.load bs).arg1 = s.arg1 := rfl
@[simp] theorem State.load_arg2 (s : State) (bs : List Byte) : (s.load bs).arg2 = s.arg2 := rfl
@[simp] theorem State.load_arg3 (s : State) (bs : List Byte) : (s.load bs).arg3 = s.arg3 := rfl
@[simp] theorem State.load_argt (s : State) (bs : List Byte) : (s.load bs).argt = s.argt := rfl
@[simp] theorem State.load_argp (s : State) (bs : List Byte) : (s.load bs).argp = s.argp := rfl
@[simp] theorem State.load_dlen (s : State) (bs : List Byte) : (s.load bs).dlen = BitVec.ofNat 16 bs.length := rfl
@[simp] theorem State.load_rlen (s : State) (bs : List Byte) : (s.load bs).rlen = s.rlen := rfl
@[simp] theorem State.load_rssi (s : State) (bs : List Byte) : (s.load bs).rssi = s.rssi := rfl
@[simp] theorem State.load_rssiValid (s : State) (bs : List Byte) : (s.load bs).rssiValid = s.rssiValid := rfl
@[simp] theorem State.load_cfgHdr (s : State) (bs : List Byte) : (s.load bs).cfgHdr = s.cfgHdr := rfl
@[simp] theorem State.load_cfg (s : State) (bs : List Byte) : (s.load bs).cfg = s.cfg := rfl
@[simp] theorem State.load_info (s : State) (bs : List Byte) : (s.load bs).info = s.info := rfl
@[simp] theorem State.load_tbuf (s : State) (bs : List Byte) : (s.load bs).tbuf = s.tbuf.writeBytes 0 bs := rfl
@[simp] theorem State.load_rbuf (s : State) (bs : List Byte) : (s.load bs).rbuf = s.rbuf := rfl
@[simp] theorem State.load_seq (s : State) (bs : List Byte) : (s.load bs).seq = s.seq := rfl
@[simp] theorem State.load_link (s : State) (bs : List Byte) : (s.load bs).link = s.link := rfl
@[simp] theorem State.load_linkBaud (s : State) (bs : List Byte) : (s.load bs).linkBaud = s.linkBaud := rfl
@[simp] theorem State.load_params (s : State) (bs : List Byte) : (s.load bs).params = s.params := rfl
@[simp] theorem State.load_sched (s : State) (bs : List Byte) : (s.load bs).sched = s.sched := rfl
@[simp] theorem State.load_reads (s : State) (bs : List Byte) : (s.load bs).reads = s.reads := rfl
@[simp] theorem State.load_draws (s : State) (bs : List Byte) : (s.load bs).draws = s.draws := rfl

/-! ## command start (R27) -/

@[simp] theorem State.start_cmd (s : State) (op : Byte) : (s.start op).cmd = op := rfl
@[simp] theorem State.start_status (s : State) (op : Byte) : (s.start op).status = s.status := rfl
@[simp] theorem State.start_busy (s : State) (op : Byte) : (s.start op).busy = 1#1 := rfl
@[simp] theorem State.start_mode (s : State) (op : Byte) : (s.start op).mode = s.mode := rfl
@[simp] theorem State.start_result (s : State) (op : Byte) : (s.start op).result = s.result := rfl
@[simp] theorem State.start_arg0 (s : State) (op : Byte) : (s.start op).arg0 = s.arg0 := rfl
@[simp] theorem State.start_arg1 (s : State) (op : Byte) : (s.start op).arg1 = s.arg1 := rfl
@[simp] theorem State.start_arg2 (s : State) (op : Byte) : (s.start op).arg2 = s.arg2 := rfl
@[simp] theorem State.start_arg3 (s : State) (op : Byte) : (s.start op).arg3 = s.arg3 := rfl
@[simp] theorem State.start_argt (s : State) (op : Byte) : (s.start op).argt = s.argt := rfl
@[simp] theorem State.start_argp (s : State) (op : Byte) : (s.start op).argp = s.argp := rfl
@[simp] theorem State.start_dlen (s : State) (op : Byte) : (s.start op).dlen = s.dlen := rfl
@[simp] theorem State.start_rlen (s : State) (op : Byte) : (s.start op).rlen = s.rlen := rfl
@[simp] theorem State.start_rssi (s : State) (op : Byte) : (s.start op).rssi = s.rssi := rfl
@[simp] theorem State.start_rssiValid (s : State) (op : Byte) : (s.start op).rssiValid = s.rssiValid := rfl
@[simp] theorem State.start_cfgHdr (s : State) (op : Byte) : (s.start op).cfgHdr = s.cfgHdr := rfl
@[simp] theorem State.start_cfg (s : State) (op : Byte) : (s.start op).cfg = s.cfg := rfl
@[simp] theorem State.start_info (s : State) (op : Byte) : (s.start op).info = s.info := rfl
@[simp] theorem State.start_tbuf (s : State) (op : Byte) : (s.start op).tbuf = s.tbuf := rfl
@[simp] theorem State.start_rbuf (s : State) (op : Byte) : (s.start op).rbuf = s.rbuf := rfl
@[simp] theorem State.start_seq (s : State) (op : Byte) : (s.start op).seq = .run := rfl
@[simp] theorem State.start_link (s : State) (op : Byte) : (s.start op).link = s.link := rfl
@[simp] theorem State.start_linkBaud (s : State) (op : Byte) : (s.start op).linkBaud = s.linkBaud := rfl
@[simp] theorem State.start_params (s : State) (op : Byte) : (s.start op).params = s.params := rfl
@[simp] theorem State.start_sched (s : State) (op : Byte) : (s.start op).sched = s.sched := rfl
@[simp] theorem State.start_reads (s : State) (op : Byte) : (s.start op).reads = s.reads := rfl
@[simp] theorem State.start_draws (s : State) (op : Byte) : (s.start op).draws = s.draws := rfl

/-! ## a host read (R50) -/

@[simp] theorem State.noteRead_cmd (s : State) (x : HostLoc) (v : Nat) : (s.noteRead x v).cmd = s.cmd := rfl
@[simp] theorem State.noteRead_status (s : State) (x : HostLoc) (v : Nat) : (s.noteRead x v).status = s.status := rfl
@[simp] theorem State.noteRead_busy (s : State) (x : HostLoc) (v : Nat) : (s.noteRead x v).busy = s.busy := rfl
@[simp] theorem State.noteRead_mode (s : State) (x : HostLoc) (v : Nat) : (s.noteRead x v).mode = s.mode := rfl
@[simp] theorem State.noteRead_result (s : State) (x : HostLoc) (v : Nat) : (s.noteRead x v).result = s.result := rfl
@[simp] theorem State.noteRead_arg0 (s : State) (x : HostLoc) (v : Nat) : (s.noteRead x v).arg0 = s.arg0 := rfl
@[simp] theorem State.noteRead_arg1 (s : State) (x : HostLoc) (v : Nat) : (s.noteRead x v).arg1 = s.arg1 := rfl
@[simp] theorem State.noteRead_arg2 (s : State) (x : HostLoc) (v : Nat) : (s.noteRead x v).arg2 = s.arg2 := rfl
@[simp] theorem State.noteRead_arg3 (s : State) (x : HostLoc) (v : Nat) : (s.noteRead x v).arg3 = s.arg3 := rfl
@[simp] theorem State.noteRead_argt (s : State) (x : HostLoc) (v : Nat) : (s.noteRead x v).argt = s.argt := rfl
@[simp] theorem State.noteRead_argp (s : State) (x : HostLoc) (v : Nat) : (s.noteRead x v).argp = s.argp := rfl
@[simp] theorem State.noteRead_dlen (s : State) (x : HostLoc) (v : Nat) : (s.noteRead x v).dlen = s.dlen := rfl
@[simp] theorem State.noteRead_rlen (s : State) (x : HostLoc) (v : Nat) : (s.noteRead x v).rlen = s.rlen := rfl
@[simp] theorem State.noteRead_rssi (s : State) (x : HostLoc) (v : Nat) : (s.noteRead x v).rssi = s.rssi := rfl
@[simp] theorem State.noteRead_rssiValid (s : State) (x : HostLoc) (v : Nat) : (s.noteRead x v).rssiValid = s.rssiValid := rfl
@[simp] theorem State.noteRead_cfgHdr (s : State) (x : HostLoc) (v : Nat) : (s.noteRead x v).cfgHdr = s.cfgHdr := rfl
@[simp] theorem State.noteRead_cfg (s : State) (x : HostLoc) (v : Nat) : (s.noteRead x v).cfg = s.cfg := rfl
@[simp] theorem State.noteRead_info (s : State) (x : HostLoc) (v : Nat) : (s.noteRead x v).info = s.info := rfl
@[simp] theorem State.noteRead_tbuf (s : State) (x : HostLoc) (v : Nat) : (s.noteRead x v).tbuf = s.tbuf := rfl
@[simp] theorem State.noteRead_rbuf (s : State) (x : HostLoc) (v : Nat) : (s.noteRead x v).rbuf = s.rbuf := rfl
@[simp] theorem State.noteRead_seq (s : State) (x : HostLoc) (v : Nat) : (s.noteRead x v).seq = s.seq := rfl
@[simp] theorem State.noteRead_link (s : State) (x : HostLoc) (v : Nat) : (s.noteRead x v).link = s.link := rfl
@[simp] theorem State.noteRead_linkBaud (s : State) (x : HostLoc) (v : Nat) : (s.noteRead x v).linkBaud = s.linkBaud := rfl
@[simp] theorem State.noteRead_params (s : State) (x : HostLoc) (v : Nat) : (s.noteRead x v).params = s.params := rfl
@[simp] theorem State.noteRead_sched (s : State) (x : HostLoc) (v : Nat) : (s.noteRead x v).sched = s.sched := rfl
@[simp] theorem State.noteRead_reads (s : State) (x : HostLoc) (v : Nat) : (s.noteRead x v).reads = s.reads ++ [(x, v)] := rfl
@[simp] theorem State.noteRead_draws (s : State) (x : HostLoc) (v : Nat) : (s.noteRead x v).draws = s.draws := rfl

/-! ## The operand checks, as propositions -/

theorem sizeTooLarge_iff (n : Byte) : sizeTooLarge n = true ↔ 200 < n.toNat := decide_eq_true_iff

theorem State.tooBig_iff (s : State) (limit : Nat) : s.tooBig limit = true ↔ limit < s.dlen.toNat := by
  simp [State.tooBig]

/-- A flag bit of an operand register is its parity. -/
theorem lowBit_iff (x : Byte) : x.getLsbD 0 = true ↔ x.toNat % 2 = 1 := by revert x; decide +kernel

theorem State.headerFlag_iff (s : State) : s.headerFlag = true ↔ s.arg0.toNat % 2 = 1 := lowBit_iff _

theorem State.rssiFlag_iff (s : State) : s.rssiFlag = true ↔ s.arg1.toNat % 2 = 1 := lowBit_iff _

theorem State.rssiFlag_toNat (s : State) : s.rssiFlag.toNat = s.arg1.toNat % 2 := by
  unfold State.rssiFlag
  generalize s.arg1 = x
  revert x
  decide +kernel

/-! ## The ends of a receive -/

@[simp] theorem State.received_success (bs : List Byte) (s : State) : s.received .success bs = s.deliver bs := if_pos rfl

theorem State.received_failed {st : Status} (h : st ≠ .success) (bs : List Byte) (s : State) :
    s.received st bs = s.failReceive := if_neg h

@[simp] theorem State.receivedRssi_success (bs : List Byte) (s : State) :
    s.receivedRssi .success bs = (s.deliver bs.dropLast).setRssi (bs.getLastD 0#8) := if_pos rfl

theorem State.receivedRssi_failed {st : Status} (h : st ≠ .success) (bs : List Byte) (s : State) :
    s.receivedRssi st bs = s.failReceive := if_neg h

@[simp] theorem State.received_link (st : Status) (bs : List Byte) (s : State) : (s.received st bs).link = s.link := by
  unfold State.received; split <;> rfl

@[simp] theorem State.receivedRssi_link (st : Status) (bs : List Byte) (s : State) :
    (s.receivedRssi st bs).link = s.link := by
  unfold State.receivedRssi; split <;> rfl

end Sys2Proof.Machine
end

