-- ==== Sys2Proof/Tests/Slice0.lean ====
section
/-! SUPPORT. Tests: ill-formed terms that the checks refuse, words written out bit by bit from the spec's encodings, one
step of each instruction on the vectors of spec/95_test_vectors.md (V1 to V68) or on values worked out by hand from the
rule named, and for each obligation with hypotheses a witness that meets them. -/

namespace Sys2Proof.Tests

set_option Elab.async false

open Sys2Proof Sys2Proof.Machine

/-! ## WellFormed: one ill-formed term for each check -/

theorem test_wf_refuses_assigned_opcode_as_reserved : (Instr.reserved 0x10#8).wf = false := by decide
theorem test_wf_refuses_header_code : (Instr.wfHeader 0xC3#8 0#8 8#8).wf = false := by decide
theorem test_wf_refuses_long_transparent : (Instr.msgTransparent (List.replicate 201 0#8)).wf = false := by
  decide +kernel
theorem test_wf_refuses_long_fixed : (Instr.msgFixed 0#8 3#8 23#8 (List.replicate 198 0#8)).wf = false := by
  decide +kernel
theorem test_wf_refuses_long_broadcast : (Instr.msgBcast 23#8 (List.replicate 198 0#8)).wf = false := by decide +kernel
theorem test_wf_refuses_long_received : (Instr.msgReceived (List.replicate 201 0#8) none).wf = false := by
  decide +kernel

/-! ## Decode: words written out from spec/30_encoding.md -/

/-- The assignment CFG-A of spec/95_test_vectors.md, whose body is `00 01 62 00 17 03 00 00`. -/
def cfgA : CfgBody where
  addh := 0#8
  addl := 1#8
  airrate := 2#3
  parity := 0#2
  baud := 3#3
  power := 0#2
  rssiNoise := 0#1
  subpkt := 0#2
  chan := 23#8
  wor := 3#3
  lbt := 0#1
  fixed := 0#1
  rssiEn := 0#1
  crypth := 0#8
  cryptl := 0#8

/-- Every field at its maximum (V3). -/
def cfgMax : CfgBody :=
  ⟨0xFF#8, 0xFF#8, 7#3, 3#2, 7#3, 3#2, 1#1, 3#2, 0xFF#8, 7#3, 1#1, 1#1, 1#1, 0xFF#8, 0xFF#8⟩

/-- The opcodes of R86, codec, mode and transport groups. -/
theorem test_decode_opcodes_low :
    [0b00010000#8, 0b00010001#8, 0b00010010#8, 0b00010011#8, 0b00010100#8, 0b00100000#8, 0b00100001#8, 0b00110000#8,
      0b00110001#8, 0b00110010#8, 0b00110011#8].map decodeOpcode =
      [.enccfg, .deccfg, .encreg, .decreg, .decinfo, .setmode, .getmode, .sendstruct, .recvstruct, .waitcomplete,
        .drain] := by decide +kernel

/-- The opcodes of R86, messaging and configuration groups. -/
theorem test_decode_opcodes_high :
    [0b01000000#8, 0b01000001#8, 0b01000010#8, 0b01000011#8, 0b01000100#8, 0b01000101#8, 0b01000110#8, 0b01000111#8,
      0b01010000#8, 0b01010001#8, 0b01010010#8, 0b01010011#8, 0b01010100#8, 0b01010101#8, 0b01010110#8].map decodeOpcode =
      [.sendmsg, .sendfixed, .sendbcast, .recvmsg, .recvmsgrssi, .recvcomplete, .recvuntil, .available, .getcfg, .setcfg,
        .getinfo, .resetmod, .sendcfgmsg, .readreg, .writereg] := by decide +kernel

/-- The reserved opcodes of V66. -/
theorem test_decode_reserved :
    [0x00#8, 0x0F#8, 0x15#8, 0x22#8, 0x34#8, 0x48#8, 0x57#8, 0xC1#8, 0xFF#8].map decodeOpcode =
      [.reserved 0x00#8, .reserved 0x0F#8, .reserved 0x15#8, .reserved 0x22#8, .reserved 0x34#8, .reserved 0x48#8,
        .reserved 0x57#8, .reserved 0xC1#8, .reserved 0xFF#8] := by decide +kernel

/-- SPED 011 01 010 (R100), OPTION 10 1 000 11 (R101), TRANSMODE 1 0 0 1 0 110 (R102). -/
theorem test_decode_packed_bytes :
    decode .sped [0b01101010#8] = .ok (.sped 3#3 1#2 2#3) ∧
    decode .option [0b10100011#8] = .ok (.option 2#2 1#1 3#2) ∧
    decode .transmode [0b10010110#8] = .ok (.transmode 1#1 0#1 1#1 6#3) := by decide +kernel

/-- Header and body of V8, whose bytes 0x1C and 0x2B have reserved bits set, dropped on decode (R92, R94, R103). -/
theorem test_decode_header_and_body :
    decode .header [0b11000000#8, 0x00#8, 0x08#8] = .ok (.wfHeader 0xC0#8 0x00#8 0x08#8) ∧
    decode .body [0x00#8, 0x01#8, 0x62#8, 0x1C#8, 0x17#8, 0x2B#8, 0x00#8, 0x00#8] = .ok (.cfgBody cfgA) := by
  decide +kernel

/-- The full-block and identity frames (R93, R96, R104, R105). -/
theorem test_decode_full_frames :
    decode .request [0xC1#8, 0x00#8, 0x08#8] = .ok .cfgReadReq ∧
    decode .request [0xC1#8, 0x08#8, 0x03#8] = .ok .infoReadReq ∧
    decode .request [0xC0#8, 0x00#8, 0x08#8, 0x00#8, 0x01#8, 0x62#8, 0x00#8, 0x17#8, 0x03#8, 0x00#8, 0x00#8] =
      .ok (.cfgWriteReq .persistent cfgA) ∧
    decode .respFull [0xC1#8, 0x00#8, 0x08#8, 0x00#8, 0x01#8, 0x62#8, 0x1C#8, 0x17#8, 0x2B#8, 0x00#8, 0x00#8] =
      .ok (.cfgResp 0x00#8 0x08#8 ⟨0x00#8, 0x01#8, 0x62#8, 0x1C#8, 0x17#8, 0x2B#8, 0x00#8, 0x00#8⟩) ∧
    decode .respInfo [0xC1#8, 0x08#8, 0x03#8, 0x20#8, 0x0A#8, 0x16#8] =
      .ok (.infoResp 0x08#8 0x03#8 0x20#8 0x0A#8 0x16#8) := by decide +kernel

/-- The window read requests of V62. -/
theorem test_decode_window_reads :
    decode .request [0xC1#8, 0x02#8, 0x01#8] = .ok .regReadReqSpeed ∧
    decode .request [0xC1#8, 0x05#8, 0x01#8] = .ok .regReadReqOption ∧
    decode .request [0xC1#8, 0x04#8, 0x01#8] = .ok .regReadReqChannel ∧
    decode .request [0xC1#8, 0x06#8, 0x02#8] = .ok .regReadReqCrypt ∧
    decode .request [0xC1#8, 0x03#8, 0x01#8] = .ok .regReadReqTransmode := by decide +kernel

/-- Window write requests (R99) with the payloads of V11, V13 and V64. -/
theorem test_decode_window_writes :
    decode .request [0xC0#8, 0x02#8, 0x01#8, 0b01100010#8] = .ok (.regWriteReqSpeed .persistent 3#3 0#2 2#3) ∧
    decode .request [0xC2#8, 0x05#8, 0x01#8, 0b11100011#8] = .ok (.regWriteReqOption .volatile 3#2 1#1 3#2) ∧
    decode .request [0xC0#8, 0x04#8, 0x01#8, 0x17#8] = .ok (.regWriteReqChannel .persistent 0x17#8) ∧
    decode .request [0xC2#8, 0x06#8, 0x02#8, 0x12#8, 0x34#8] = .ok (.regWriteReqCrypt .volatile 0x12#8 0x34#8) ∧
    decode .request [0xC0#8, 0x03#8, 0x01#8, 0b11000011#8] = .ok (.regWriteReqTransmode .persistent 1#1 1#1 0#1 3#3) := by
  decide +kernel

/-- Window responses (R105). -/
theorem test_decode_window_responses :
    decode (.respWindow .speed) [0xC1#8, 0x02#8, 0x01#8, 0x62#8] = .ok (.regRespSpeed 2#8 1#8 0x62#8) ∧
    decode (.respWindow .option) [0xC1#8, 0x05#8, 0x01#8, 0x00#8] = .ok (.regRespOption 5#8 1#8 0x00#8) ∧
    decode (.respWindow .channel) [0xC1#8, 0x04#8, 0x01#8, 0x17#8] = .ok (.regRespChannel 4#8 1#8 0x17#8) ∧
    decode (.respWindow .crypt) [0xC1#8, 0x06#8, 0x02#8, 0x12#8, 0x34#8] = .ok (.regRespCrypt 6#8 2#8 0x12#8 0x34#8) ∧
    decode (.respWindow .transmode) [0xC1#8, 0x03#8, 0x01#8, 0x03#8] = .ok (.regRespTransmode 3#8 1#8 0x03#8) := by
  decide +kernel

/-- The message frames of V32, V34, V37, V40 and V61 (R107 to R111). -/
theorem test_decode_messages :
    decode .transparent [0x48#8, 0x69#8] = .ok (.msgTransparent [0x48#8, 0x69#8]) ∧
    decode .fixedMsg [0x00#8, 0x03#8, 0x17#8, 0x48#8, 0x69#8] = .ok (.msgFixed 0x00#8 0x03#8 0x17#8 [0x48#8, 0x69#8]) ∧
    decode .broadcast [0xFF#8, 0xFF#8, 0x17#8, 0x48#8, 0x69#8] = .ok (.msgBcast 0x17#8 [0x48#8, 0x69#8]) ∧
    decode .remote [0x00#8, 0x03#8, 0x17#8, 0xC2#8, 0x00#8, 0x08#8, 0x00#8, 0x01#8, 0x62#8, 0x00#8, 0x17#8, 0x03#8,
      0x00#8, 0x00#8] = .ok (.msgRemoteCfg 0x00#8 0x03#8 0x17#8 .writeVolatile cfgA) ∧
    decode (.received 2 true) [0x48#8, 0x69#8, 0xB0#8] = .ok (.msgReceived [0x48#8, 0x69#8] (some 0xB0#8)) ∧
    decode (.received 2 false) [0x48#8, 0x69#8] = .ok (.msgReceived [0x48#8, 0x69#8] none) := by decide +kernel

/-- "00=Normal, 10=WorTransmitter, 01=WorReceiver, 11=Configuration" (R106, S9), and the codes of R95. -/
theorem test_decode_pins_and_codes :
    [0b00#8, 0b10#8, 0b01#8, 0b11#8].map (fun b => decode .pins [b]) =
      [.ok .modeNormal, .ok .modeWorTx, .ok .modeWorRx, .ok .modeConfiguration] ∧
    [0xC0#8, 0xC1#8, 0xC2#8, 0xFF#8, 0xCF#8].map (fun b => decode .code [b]) =
      [.ok .cmdWritePersistent, .ok .cmdRead, .ok .cmdWriteVolatile, .ok .cmdWrongFormat, .ok .cmdSpecialExtended] := by
  decide +kernel

/-- What is no instruction is rejected by name. -/
theorem test_decode_rejects :
    decode .request [0xC1#8, 0x01#8, 0x01#8] = .error .unknownRequest ∧
    decode .request [0xCF#8, 0x00#8, 0x08#8] = .error .unknownCode ∧
    decode .request [0xC0#8, 0x05#8, 0x01#8, 0x1C#8] = .error .reservedBits ∧
    decode .respFull [0xC1#8, 0x00#8] = .error .wrongLength ∧
    decode .broadcast [0xFF#8, 0x00#8, 0x17#8] = .error .notBroadcast ∧
    decode .transparent (List.replicate 201 0#8) = .error .tooLong ∧ decode .pins [4#8] = .error .badPins := by
  decide +kernel

/-- Table words: the leftmost 8 bits are the first byte on the wire. -/
theorem test_table_words :
    decodeTableWord 8 0x56 = some .writereg ∧ decodeTableWord 8 0x57 = some (.reserved 0x57#8) ∧
    decodeTableWord 24 0xC10008 = some .cfgReadReq ∧ decodeTableWord 24 0xC00008 = some (.wfHeader 0xC0#8 0#8 8#8) ∧
    decodeTableWord 40 0xC206021234 = some (.regWriteReqCrypt .volatile 0x12#8 0x34#8) ∧
    decodeTableWord 88 0xC000080001620017030000 = some (.cfgWriteReq .persistent cfgA) := by decide +kernel

/-! ## Helpers: a small state, one step, some fields -/

/-- The next state, if there is one. -/
def after (a : Answer) : Option State :=
  match a with
  | .next t => some t
  | .fault _ => none
  | .refused _ => none

/-- One step of the command `op` from `s`. -/
def run (op : Byte) (s : State) : Option State := after (step (s.start op))

/-- The reset state with `bs` in the receive FIFO. -/
def withRx (bs : List Byte) : State := State.reset.withLink { State.reset.link with rxfifo := bs }

/-- `s` with a device script. -/
def scripted (dev : List (List DevAct)) (s : State) : State := s.withLink { s.link with dev := dev }

/-- `s` with AUX held busy. -/
def busyAux (s : State) : State := s.withLink { s.link with aux := false }

/-- `s` with `bs` in `TBUF`, `DLEN` their number. -/
def loaded (bs : List Byte) (s : State) : State := s.load bs

/-- `s` with `bs` in `RBUF`, `RLEN` their number. -/
def delivered (bs : List Byte) (s : State) : State := s.deliver bs

/-- The reset state in Configuration mode with the fields of CFG-A. -/
def configured : State := { State.reset with mode := .configuration, cfg := cfgA }

/-- A device script that answers an exchange with `bs`. -/
def answering (bs : List Byte) : List (List DevAct) := [[], bs.map .arrive]

/-- A device script with a stale byte, whose answer comes during the wait for AUX and the read. -/
def lateAnswer : List (List DevAct) :=
  [[.arrive 0x99#8]] ++ List.replicate 3 [] ++
    [[.arrive 0xC1#8, .arrive 1#8, .arrive 2#8, .arrive 3#8, .arrive 4#8]] ++ List.replicate 99 [] ++ [[.arrive 5#8]]

/-- What a read gave, and after how many ticks. -/
def bytesAndTicks (r : List Byte × Link) : List Byte × Nat := (r.1, r.2.ticks)

/-- Why a step was refused. -/
def refusalOf (a : Answer) : Option Refusal :=
  match a with
  | .refused r => some r
  | .next _ => none
  | .fault _ => none

/-- The echo of CFG-A (V50). -/
def echoA : List Byte := [0xC1#8, 0x00#8, 0x08#8, 0x00#8, 0x01#8, 0x62#8, 0x00#8, 0x17#8, 0x03#8, 0x00#8, 0x00#8]

/-! ## Codec commands -/

/-- V2. -/
theorem test_enccfg_header :
    (run 0x10#8 { State.reset with arg0 := 1#8, cfg := cfgA, cfgHdr := ⟨0xC0#8, 0#8, 8#8⟩ }).map
      (fun t => (t.tbuf.readBytes 0 11, t.dlen, t.status)) =
      some (0xC0#8 :: echoA.tail, 11#16, .success) := by decide +kernel

/-- V3, with the flag bits of V5. -/
theorem test_enccfg_reserved_bits :
    (run 0x10#8 { State.reset with arg0 := 0xFE#8, cfg := cfgMax }).map (fun t => (t.tbuf.readBytes 0 8, t.dlen)) =
      some ([0xFF#8, 0xFF#8, 0xFF#8, 0xE3#8, 0xFF#8, 0xD7#8, 0xFF#8, 0xFF#8], 8#16) := by decide +kernel

/-- V8. -/
theorem test_deccfg_header :
    (run 0x11#8 (delivered [0xC1#8, 0x00#8, 0x08#8, 0x00#8, 0x01#8, 0x62#8, 0x1C#8, 0x17#8, 0x2B#8, 0x00#8, 0x00#8]
      { State.reset with arg0 := 1#8 })).map (fun t => (t.cfgHdr, t.cfg, t.status)) =
      some (⟨0xC1#8, 0#8, 8#8⟩, cfgA, .success) := by decide +kernel

/-- V10: header flag 0 and 11 bytes. -/
theorem test_deccfg_wrong_length :
    (run 0x11#8 (delivered echoA State.reset)).map (fun t => (t.cfg, t.status)) = some (zeroCfg, .dataSizeMismatch) := by
  decide +kernel

/-- V11, crypt window. -/
theorem test_encreg_crypt :
    (run 0x12#8 { State.reset with arg0 := 4#8, cfg := { cfgA with crypth := 0x12#8, cryptl := 0x34#8 } }).map
      (fun t => (t.tbuf.readBytes 0 2, t.dlen)) = some ([0x12#8, 0x34#8], 2#16) := by decide +kernel

/-- V12. -/
theorem test_encreg_bad_window :
    (run 0x12#8 { State.reset with arg0 := 6#8 }).map (fun t => (t.dlen, t.status)) =
      some (0#16, .invalidParameter) := by decide +kernel

/-- V13, transmission-mode window: its fields and no other. -/
theorem test_decreg_transmode :
    (run 0x13#8 (delivered [0xC3#8] { State.reset with arg0 := 5#8, cfg := cfgA })).map (fun t => t.cfg) =
      some { cfgA with rssiEn := 1#1, fixed := 1#1, lbt := 0#1, wor := 3#3 } := by decide +kernel

/-- V12: the window code is checked before the length. -/
theorem test_decreg_window_before_length :
    (run 0x13#8 (delivered [0xC3#8, 0xC3#8] State.reset)).map (fun t => t.status) = some .invalidParameter := by
  decide +kernel

/-- V13a. -/
theorem test_decinfo :
    (run 0x14#8 (delivered [0xC1#8, 0x08#8, 0x03#8, 0x20#8, 0x0A#8, 0x16#8] State.reset)).map (fun t => t.info) =
      some ⟨⟨0xC1#8, 0x08#8, 0x03#8⟩, 0x20#8, 0x0A#8, 0x16#8⟩ := by decide +kernel

/-! ## Mode commands -/

/-- V18: five samples, the pins changed, the mode not. -/
theorem test_setmode_timeout :
    (run 0x20#8 (busyAux { State.reset with
      arg0 := 3#8, mode := .normal, params := { Config.board with tSettleTimeout := 10, tPoll := 3 } })).map
      (fun t => (t.status, t.mode, t.link.hist, t.link.ticks)) =
      some (.timeout, .normal, [.pinM0 1#1, .pinM1 1#1, .auxSample false, .auxSample false, .auxSample false,
        .auxSample false, .auxSample false], 10) := by decide +kernel

/-- V20: AUX not wired, WOR transmitter is M0 = 1, M1 = 0. -/
theorem test_setmode_unwired :
    (run 0x20#8 { State.reset with arg0 := 1#8, params := { Config.board with auxWired := false } }).map
      (fun t => (t.status, t.mode, t.link.hist, t.link.ticks)) =
      some (.success, .worTransmitter, [.pinM0 1#1, .pinM1 0#1], 40) := by decide +kernel

/-- V21, after reset. -/
theorem test_getmode_after_reset :
    (run 0x21#8 State.reset).map (fun t => (t.result, t.status)) = some (4#16, .success) := by decide +kernel

/-! ## Transport commands -/

/-- V27. -/
theorem test_sendstruct_timeout :
    (run 0x30#8 (busyAux (loaded [0xC1#8, 0x00#8, 0x08#8] State.reset))).map
      (fun t => (t.status, sent t.link.hist, (samples t.link.hist).length, t.link.ticks)) =
      some (.timeout, [0xC1#8, 0x00#8, 0x08#8], 11, 100) := by decide +kernel

/-- V26, 201 bytes. -/
theorem test_sendstruct_too_big :
    (run 0x30#8 { State.reset with dlen := 201#16 }).map (fun t => (t.status, t.link.hist)) =
      some (.packetTooBig, []) := by decide +kernel

/-- V28 f: the length is checked before the head. -/
theorem test_recvstruct_short :
    (run 0x31#8 { withRx [0xFF#8, 0x08#8, 0x03#8] with arg0 := 6#8, arg1 := 0xC1#8 }).map
      (fun t => (t.status, t.rlen, t.link.rxfifo, t.link.ticks)) = some (.dataSizeMismatch, 0#8, [], 50) := by
  decide +kernel

/-- V28 g. -/
theorem test_recvstruct_leaves_the_rest :
    (run 0x31#8 { withRx [0xC1#8, 0x08#8, 0x03#8, 0x20#8, 0x0A#8, 0x16#8, 0x99#8] with
      arg0 := 6#8, arg1 := 0xC1#8 }).map (fun t => (t.status, t.rbuf.readBytes 0 6, t.rlen, t.link.rxfifo)) =
      some (.success, [0xC1#8, 0x08#8, 0x03#8, 0x20#8, 0x0A#8, 0x16#8], 6#8, [0x99#8]) := by decide +kernel

/-- V23: AUX rises during tick 7. -/
theorem test_waitcomplete_ready_at_seven :
    (run 0x32#8 (scripted (List.replicate 9 [] ++ [[.aux true]]) (busyAux { State.reset with argt := 10, argp := 3 }))).map
      (fun t => (t.status, t.link.hist, t.link.ticks)) =
      some (.success, [.auxSample false, .auxSample false, .auxSample false, .auxSample true], 9) := by decide +kernel

/-- V24. -/
theorem test_waitcomplete_zero_interval :
    (run 0x32#8 { State.reset with argt := 10 }).map (fun t => (t.status, t.link.hist)) =
      some (.invalidParameter, []) := by decide +kernel

/-- V29a. -/
theorem test_drain : (run 0x33#8 (withRx [0x41#8, 0x42#8, 0x43#8])).map (fun t => (t.status, t.link.rxfifo, t.rlen)) =
    some (.success, [], 0#8) := by decide +kernel

/-- V29: the third byte arrives during tick 5, availability being tested before expiry. -/
theorem test_readExactly_in_the_last_tick :
    bytesAndTicks (readExactly Config.board 3 5
      { State.reset.link with rxfifo := [0x41#8, 0x42#8], dev := List.replicate 13 [] ++ [[.arrive 0x43#8]] }) =
      ([0x41#8, 0x42#8, 0x43#8], 5) := by decide +kernel

/-- V29: the third byte arrives during tick 6, too late. -/
theorem test_readExactly_too_late :
    bytesAndTicks (readExactly Config.board 3 5
      { State.reset.link with rxfifo := [0x41#8, 0x42#8], dev := List.replicate 15 [] ++ [[.arrive 0x43#8]] }) =
      ([0x41#8, 0x42#8], 5) := by decide +kernel

/-! ## Messaging commands -/

/-- V30: an empty message is sent: no byte, but the completion wait runs. -/
theorem test_sendmsg_empty :
    (run 0x40#8 State.reset).map (fun t => (t.status, t.link.hist)) = some (.success, [.auxSample true]) := by
  decide +kernel

/-- V31, 65535 bytes. -/
theorem test_sendmsg_too_big :
    (run 0x40#8 { State.reset with dlen := 65535#16 }).map (fun t => (t.status, t.link.hist)) =
      some (.packetTooBig, []) := by decide +kernel

/-- V32. -/
theorem test_sendfixed :
    (run 0x41#8 (loaded [0x48#8, 0x69#8] { State.reset with arg0 := 0#8, arg1 := 3#8, arg2 := 0x17#8 })).map
      (fun t => (t.status, sent t.link.hist)) = some (.success, [0x00#8, 0x03#8, 0x17#8, 0x48#8, 0x69#8]) := by
  decide +kernel

/-- V32: 198 is one too many. -/
theorem test_sendfixed_too_big :
    (run 0x41#8 { State.reset with dlen := 198#16 }).map (fun t => (t.status, t.link.hist)) =
      some (.packetTooBig, []) := by decide +kernel

/-- V34: 255/255 whatever ARG0, ARG1 and the address fields hold. -/
theorem test_sendbcast :
    (run 0x42#8 (loaded [0x48#8, 0x69#8] { State.reset with arg0 := 0x12#8, arg1 := 0x34#8, arg2 := 0x17#8, cfg := cfgA })).map
      (fun t => sent t.link.hist) = some [0xFF#8, 0xFF#8, 0x17#8, 0x48#8, 0x69#8] := by decide +kernel

/-- V37. -/
theorem test_recvmsg :
    (run 0x43#8 { withRx [0x48#8, 0x69#8, 0x21#8] with arg0 := 2#8, rssiValid := 1#1 }).map
      (fun t => (t.rbuf.readBytes 0 2, t.rlen, t.rssiValid, t.link.rxfifo, t.status)) =
      some ([0x48#8, 0x69#8], 2#8, 0#1, [0x21#8], .success) := by decide +kernel

/-- V38: a size above the buffer changes nothing. -/
theorem test_recvmsg_too_large :
    (run 0x43#8 { withRx [0x48#8] with arg0 := 201#8, rssiValid := 1#1 }).map
      (fun t => (t.status, t.rssiValid, t.link.rxfifo)) = some (.bufferTooSmall, 1#1, [0x48#8]) := by decide +kernel

/-- V40. -/
theorem test_recvmsgrssi :
    (run 0x44#8 { withRx [0x48#8, 0x69#8, 0xB0#8] with arg0 := 2#8 }).map
      (fun t => (t.rbuf.readBytes 0 2, t.rlen, t.rssi, t.rssiValid)) =
      some ([0x48#8, 0x69#8], 2#8, 0xB0#8, 1#1) := by decide +kernel

/-- V41. -/
theorem test_recvmsgrssi_short :
    (run 0x44#8 { withRx [0x48#8, 0x69#8] with arg0 := 2#8, rssi := 0x55#8, rssiValid := 1#1 }).map
      (fun t => (t.status, t.rlen, t.rssi, t.rssiValid, t.link.rxfifo)) =
      some (.dataSizeMismatch, 0#8, 0x55#8, 0#1, []) := by decide +kernel

/-- V46: the last byte is the RSSI byte, after a wait of 5 ticks. -/
theorem test_recvcomplete_quiet :
    (run 0x45#8 { withRx [1#8, 2#8, 3#8, 4#8, 5#8] with arg0 := 10#8, arg1 := 1#8 }).map
      (fun t => (t.rbuf.readBytes 0 4, t.rlen, t.rssi, t.rssiValid, t.link.ticks)) =
      some ([1#8, 2#8, 3#8, 4#8], 4#8, 5#8, 1#1, 5) := by decide +kernel

/-- V48: size 0 without RSSI succeeds at once. -/
theorem test_recvcomplete_nothing_wanted :
    (run 0x45#8 { withRx [7#8] with arg0 := 0#8, arg1 := 0xFE#8 }).map
      (fun t => (t.status, t.rlen, t.link.rxfifo, t.link.ticks)) = some (.success, 0#8, [7#8], 0) := by decide +kernel

/-- V49 a. -/
theorem test_recvuntil_delimiter :
    (run 0x46#8 { withRx [0x4F#8, 0x4B#8, 0x0A#8, 0x58#8] with arg0 := 0x0A#8 }).map
      (fun t => (t.rbuf.readBytes 0 2, t.rlen, t.link.rxfifo, t.status)) =
      some ([0x4F#8, 0x4B#8], 2#8, [0x58#8], .success) := by decide +kernel

/-- V49 c: on Timeout the bytes so far are delivered. -/
theorem test_recvuntil_timeout :
    (run 0x46#8 { withRx [0x41#8, 0x42#8] with arg0 := 0x0A#8 }).map
      (fun t => (t.rbuf.readBytes 0 2, t.rlen, t.status, t.link.ticks)) =
      some ([0x41#8, 0x42#8], 2#8, .timeout, 50) := by decide +kernel

/-- V49a. -/
theorem test_available :
    (run 0x47#8 (withRx [0x48#8, 0x69#8])).map (fun t => (t.result, t.link.rxfifo)) =
      some (2#16, [0x48#8, 0x69#8]) := by decide +kernel

/-! ## Configuration commands -/

/-- V50: the stale bytes are dropped, the order of the actions. -/
theorem test_getcfg :
    (run 0x50#8 (scripted (answering echoA) { withRx [0x99#8, 0x98#8] with mode := .configuration })).map
      (fun t => (t.status, t.cfgHdr, t.cfg, t.link.hist)) =
      some (.success, ⟨0xC1#8, 0#8, 8#8⟩, cfgA,
        [.rxClear, .tx 0xC1#8, .tx 0x00#8, .tx 0x08#8, .auxSample true] ++ echoA.map .rx) := by decide +kernel

/-- V55: a wrong first byte gives no partial Configuration. -/
theorem test_getcfg_bad_head :
    (run 0x50#8 (scripted (answering (0xFF#8 :: echoA.tail)) { State.reset with mode := .configuration })).map
      (fun t => (t.status, t.rlen, t.cfg, t.link.rxfifo)) = some (.headNotRecognized, 0#8, zeroCfg, []) := by
  decide +kernel

/-- V56. -/
theorem test_setcfg :
    (run 0x51#8 (scripted (answering echoA) { configured with arg0 := 0xC0#8 })).map
      (fun t => (t.status, sent t.link.hist, t.rbuf.readBytes 0 11, t.rlen, t.cfgHdr)) =
      some (.success, 0xC0#8 :: echoA.tail, echoA, 11#8, zeroHeader) := by decide +kernel

/-- V58: the save type is checked before the mode. -/
theorem test_setcfg_operand_before_mode :
    (run 0x51#8 { State.reset with arg0 := 0xC1#8 }).map (fun t => (t.status, t.link.hist)) =
      some (.invalidParameter, []) := by decide +kernel

/-- V59. -/
theorem test_getinfo :
    (run 0x52#8 (scripted (answering [0xC1#8, 0x08#8, 0x03#8, 0x20#8, 0x0A#8, 0x16#8]) configured)).map
      (fun t => (t.status, sent t.link.hist, t.info, t.rlen)) =
      some (.success, [0xC1#8, 0x08#8, 0x03#8], ⟨⟨0xC1#8, 0x08#8, 0x03#8⟩, 0x20#8, 0x0A#8, 0x16#8⟩, 6#8) := by
  decide +kernel

/-- V59 in Normal mode. -/
theorem test_getinfo_needs_configuration :
    (run 0x52#8 { State.reset with mode := .normal }).map (fun t => (t.status, t.link.hist)) =
      some (.notInitialized, []) := by decide +kernel

/-- V60. -/
theorem test_resetmod :
    (run 0x53#8 (withRx [1#8])).map (fun t => (t.status, t.link.hist, t.link.rxfifo, t.mode)) =
      some (.notImplemented, [], [1#8], .uninitialized) := by decide +kernel

/-- V61: AUX busy, no wait. -/
theorem test_sendcfgmsg :
    (run 0x54#8 (busyAux { State.reset with arg0 := 0#8, arg1 := 3#8, arg2 := 0x17#8, arg3 := 0xC2#8, cfg := cfgA })).map
      (fun t => (t.status, t.link.hist)) =
      some (.success, ([0x00#8, 0x03#8, 0x17#8, 0xC2#8] ++ echoA.tail).map .tx) := by decide +kernel

/-- V61, program command 0xCF. -/
theorem test_sendcfgmsg_bad_code :
    (run 0x54#8 { State.reset with arg3 := 0xCF#8 }).map (fun t => (t.status, t.link.hist)) =
      some (.invalidParameter, []) := by decide +kernel

/-- V62, channel window. -/
theorem test_readreg_channel :
    (run 0x55#8 (scripted (answering [0xC1#8, 0x04#8, 0x01#8, 0x55#8]) { configured with arg0 := 3#8 })).map
      (fun t => (t.status, sent t.link.hist, t.cfg, t.rlen)) =
      some (.success, [0xC1#8, 0x04#8, 0x01#8], { cfgA with chan := 0x55#8 }, 4#8) := by decide +kernel

/-- V64. -/
theorem test_writereg_crypt :
    (run 0x56#8 (scripted (answering [0xC1#8, 0x06#8, 0x02#8, 0x12#8, 0x34#8]) { configured with
      arg0 := 4#8, arg1 := 0xC2#8, cfg := { cfgA with crypth := 0x12#8, cryptl := 0x34#8 } })).map
      (fun t => (t.status, sent t.link.hist, t.rlen)) =
      some (.success, [0xC2#8, 0x06#8, 0x02#8, 0x12#8, 0x34#8], 5#8) := by decide +kernel

/-- V64, an echo with byte 0 = 0xFF. -/
theorem test_writereg_wrong_format :
    (run 0x56#8 (scripted (answering [0xFF#8, 0x06#8, 0x02#8, 0x00#8, 0x00#8]) { configured with
      arg0 := 4#8, arg1 := 0xC2#8 })).map (fun t => (t.status, t.rlen)) = some (.wrongFormat, 0#8) := by decide +kernel

/-- V66. -/
theorem test_reserved_opcode :
    run 0x57#8 State.reset = some { State.reset with cmd := 0x57#8, status := .notSupported } := by decide +kernel

/-! ## Frames, parts and pins -/

/-- A request frame is transmitted, then AUX sampled (R66, R148), a response arrives (R71). -/
theorem test_items_frames :
    (after (exec .regReadReqCrypt State.reset)).map (fun t => (t.link.hist, t.status)) =
      some ([.tx 0xC1#8, .tx 0x06#8, .tx 0x02#8, .auxSample true], .success) ∧
    (after (exec (.regRespChannel 4#8 1#8 0x17#8) (withRx [0x99#8]))).map (fun t => t.link.rxfifo) =
      some [0x99#8, 0xC1#8, 0x04#8, 0x01#8, 0x17#8] := by decide +kernel

/-- A full FIFO loses the rest (R71, R245). -/
theorem test_items_overflow :
    (after (exec (.msgReceived [1#8, 2#8, 3#8] none)
      { withRx (List.replicate 200 0#8) with params := { Config.board with rxDepth := some 201 } })).map
      (fun t => (t.link.rxfifo.length, t.link.rxfifo.getLast?)) = some (201, some 1#8) := by decide +kernel

/-- The parts go where the codec keeps them (R37, R120 to R122), the pin pair of WOR transmitter is M0 = 1, M1 = 0. -/
theorem test_items_parts :
    (after (exec (.transmode 1#1 0#1 1#1 6#3) State.reset)).map (fun t => (t.cfg.rssiEn, t.cfg.fixed, t.cfg.lbt, t.cfg.wor)) =
      some (1#1, 0#1, 1#1, 6#3) ∧
    (after (exec .cmdWrongFormat State.reset)).map (fun t => (t.cfgHdr, t.status)) = some (⟨0xFF#8, 0#8, 0#8⟩, .success) ∧
    (after (exec .modeWorTx State.reset)).map (fun t => (t.link.m0, t.link.m1, t.mode)) =
      some (1#1, 0#1, .worTransmitter) := by decide +kernel

/-! ## The host, the schedule and the frequency function -/

/-- P2 line 1: `W 27, 0x12`; and the low 3 bits of register 21 (R26). -/
theorem test_host_writes :
    (after (hostAccess (.write (.reg 27) 0x12) configured)).map (fun t => t.cfg.chan) = some 0x12#8 ∧
    (after (hostAccess (.write (.reg 21) 0xFD) configured)).map (fun t => t.cfg.airrate) = some 5#3 ∧
    (after (hostAccess (.read (.reg 3)) State.reset)).map (fun t => t.reads) = some [(.reg 3, 4)] := by decide +kernel

/-- A write of CMD starts its command (R27); a host that reads STATUS then is outside the contract (U1). -/
theorem test_host_starts_a_command :
    (after (step { State.reset with sched := [.host (.write (.reg 0) 0x21)] })).map (fun t => (t.busy, t.seq, t.cmd)) =
      some (1#1, .run, 0x21#8) ∧
    refusalOf (step { State.reset.start 0x21#8 with sched := [.hostNow (.read (.reg 1))] }) =
      some (.hostAccessWhileBusy (.read (.reg 1))) := by decide +kernel

/-- The host's probe runs the word it places. -/
theorem test_withFetchWord_runs_it :
    (after (step (State.reset.withFetchWord 8 0x21))).map (fun t => t.result) = some 4#16 ∧
    (after (step (State.reset.withFetchWord 24 0xC10008))).map (fun t => sent t.link.hist) =
      some [0xC1#8, 0x00#8, 0x08#8] ∧
    (after (step (State.reset.withFetchWord 8 0x02))).map (fun t => (t.link.m0, t.link.m1, t.mode)) =
      some (1#1, 0#1, .worTransmitter) ∧
    (after (step (State.reset.withFetchWord 8 0x01))).map (fun t => (t.link.m0, t.link.m1, t.mode)) =
      some (0#1, 1#1, .worReceiver) := by
  decide +kernel

/-- The parts reach the registers through DECCFG (R60): a header with the sentinel (R92), the wire code 0xFF, the body of V8. -/
theorem test_withFetchWord_runs_parts_as_commands :
    (after (step (configured.withFetchWord 24 0xFF0201))).map (fun t => (t.cfgHdr, t.cfg, t.status)) =
      some (⟨0xFF#8, 2#8, 1#8⟩, cfgA, .success) ∧
    (after (step (configured.withFetchWord 8 0xFF))).map (fun t => (t.cfgHdr.command, t.cfg)) = some (0xFF#8, cfgA) ∧
    (after (step (State.reset.withFetchWord 64 0x0001621C172B0000))).map (fun t => (t.cfg, t.status)) =
      some (cfgA, .success) ∧
    refusalOf (step (State.reset.withFetchWord 8 0xCF)) = some .specialExtendedPath := by decide +kernel

/-- R60, R140: a part, a request frame and a pin pair are no moves of their own. -/
theorem test_parts_frames_and_pins_are_no_items :
    [Move.wire .pins [2#8], .wire .option [0xFF#8], .wire .header [0xC1#8, 0#8, 8#8], .wire .code [0xFF#8],
      .wire .request [0xC1#8, 0#8, 8#8]].map (fun m => refusalOf (step { State.reset with sched := [m] })) =
      List.replicate 5 (some (.undecodable .notAnItem)) := by decide +kernel

/-- S12: 850 + 23 = 873. -/
theorem test_freq : freq Config.board 23#8 = 873 := by decide

/-! ## Witnesses: for each obligation with hypotheses, states and operands that meet them, at the boundaries of its ranges

Where a clause's hypotheses are about one command's operands, the witness names the operands at the boundary. -/

/-- A step or a meaning that answers a next state. -/
theorem next_of_isSome {a : Answer} (h : (after a).isSome = true) : ∃ t, a = .next t := by
  cases a with
  | next t => exact ⟨t, rfl⟩
  | fault _ => cases h
  | refused _ => cases h

/-- A state at the edges of the invariant: ARGT at `2^16 - 1`, RLEN 200, a byte buffered. -/
def edge : State := { withRx [7#8] with argt := 65535, rlen := 200#8, status := .success }

theorem edge_inv : edge.Inv :=
  ⟨by decide, by decide, by decide, by decide, by decide, by decide, by decide, by decide, by decide⟩

theorem witness_InvariantHoldsAfterReset :
    ({ Config.board with tPoll := 1, nUntilMax := 1, tw := 1, rxDepth := some 201 } : Params).wf = true ∧
    ({ Config.board with nUntilMax := 200, rxDepth := none } : Params).wf = true := by decide

theorem witness_EveryStepKeepsTheInvariant : edge.Inv ∧ ∃ t, step edge = .next t :=
  ⟨edge_inv, next_of_isSome (by decide +kernel)⟩

/-- A lawful schedule: the host writes the last index of TBUF, polls BUSY, the device answers. -/
def lawfulState : State := { edge with sched :=
  [.host (.write (.tbuf 199) 5), .hostNow (.read (.reg 2)), .wire .respInfo [0xC1#8, 8#8, 3#8, 1#8, 2#8, 3#8],
    .linkBaud 115200, .host (.read (.rbuf 0))] }

theorem witness_LawfulStepsNeverStop : lawfulState.Inv ∧ lawfulState.lawful = true :=
  ⟨⟨by decide, by decide, by decide, by decide, by decide, by decide, by decide, by decide, by decide⟩,
    by decide +kernel⟩

theorem witness_StepRunsTheCommandInCmd :
    (edge.start 0x47#8).seq = .run ∧ (edge.start 0x47#8).undisturbed = true ∧ decodeOpcode (edge.start 0x47#8).cmd = .available := by
  decide +kernel

theorem witness_StepRunsTheScheduledItem : edge.seq = .idle ∧
    ({ edge with sched := [.wire .option [0xFF#8]] } : State).sched = .wire .option [0xFF#8] :: [] ∧
    decode .option [0xFF#8] = .ok (.option 3#2 1#1 3#2) ∧ (Instr.option 3#2 1#1 3#2).fromDevice = false ∧
    decode (.respWindow .channel) [0xC1#8, 4#8, 1#8, 9#8] = .ok (.regRespChannel 4#8 1#8 9#8) ∧
    (Instr.regRespChannel 4#8 1#8 9#8).fromDevice = true ∧ decode .code [0xCF#8] = .ok .cmdSpecialExtended ∧
    decode .header [0xC3#8, 0#8, 0#8] = .error .unknownCode := by decide +kernel

theorem witness_StepRunsTheRowItIsStartedOn :
    (Instr.msgTransparent (List.replicate 200 1#8)).wf = true ∧ (Instr.msgTransparent (List.replicate 200 1#8)).fromDevice = false ∧
    (Instr.wfHeader 0xCF#8 1#8 2#8).wf = true ∧ Instr.wfHeader 0xCF#8 1#8 2#8 ≠ .cmdSpecialExtended ∧
    (Instr.msgReceived (List.replicate 200 1#8) (some 2#8)).wf = true ∧
    (Instr.msgReceived (List.replicate 200 1#8) (some 2#8)).fromDevice = true ∧
    decodeTableWord 24 0xFF0201 = some (.wfHeader 0xFF#8 2#8 1#8) := by decide +kernel

theorem witness_WriteOfCmdStartsItsCommand : edge.seq = .idle ∧
    ({ edge with sched := [.host (.write (.reg 0) 0x147)] } : State).sched = .host (.write (.reg 0) 0x147) :: [] ∧
    (edge.start 0x47#8).undisturbed = true := by decide

theorem witness_WhileRunningTheHostReadsBusyOnly : (edge.start 0x47#8).seq = .run ∧
    ({ edge.start 0x47#8 with sched := [.hostNow (.read (.reg 2))] } : State).sched = .hostNow (.read (.reg 2)) :: [] ∧
    HostAct.read (.reg 1) ≠ .read (.reg 2) ∧ HostAct.read (.reg 3) ≠ .read (.reg 2) := by decide

theorem witness_IdleStepsAreTheOtherAgents : edge.seq = .idle ∧ edge.sched = [] ∧
    ({ edge with sched := [.hostNow (.read (.reg 2))] } : State).sched = .hostNow (.read (.reg 2)) :: [] ∧
    ({ edge with sched := [.linkBaud 9600] } : State).sched = .linkBaud 9600 :: [] := by decide

theorem witness_EveryCommandCompletes : (edge.start 0xFF#8).seq = .run ∧ (edge.start 0xFF#8).undisturbed = true := by
  decide

theorem witness_RegisterNumbersNameTheirRegisters :
    [15, 34, 39, 46].all unassignedRegister = true ∧ [14, 16, 33, 40, 45].any unassignedRegister = false := by decide

theorem witness_HostWriteReadsBackAtItsWidth :
    (5, 8) ∈ writableRegisters edge.params.tw ∧ (9, edge.params.tw) ∈ writableRegisters edge.params.tw ∧
    (33, 8) ∈ writableRegisters edge.params.tw := by decide

theorem witness_ReadOnlyAndUnassignedNumbersIgnoreWrites : 1 ∈ readOnlyRegisters ∧ 45 ∈ readOnlyRegisters ∧
    unassignedRegister 46 = true := by decide

theorem witness_HostReachesBothBuffersByIndex : (0 < 200 ∧ 199 < 200 ∧ (1 : Nat) ≠ 0) ∧ (200 ≤ 200) ∧
    (HostAct.read (.rbuf 200)).loc = .rbuf 200 ∧ (HostAct.write (.tbuf 200) 0).loc = .tbuf 200 := by decide

theorem witness_DecodeOfEncodeIsTheInstruction :
    (Instr.msgTransparent (List.replicate 200 0#8)).wf = true ∧ (Instr.msgFixed 0#8 0#8 0#8 (List.replicate 197 0#8)).wf = true ∧
    (Instr.msgReceived (List.replicate 200 0#8) (some 0#8)).wf = true ∧ (Instr.reserved 0x57#8).wf = true ∧
    (Instr.wfHeader 0xC2#8 0#8 0#8).wf = true := by decide +kernel

theorem witness_DecodedInstructionsAreWellFormed :
    decode .option [0xFF#8] = .ok (.option 3#2 1#1 3#2) ∧ decode .request [0xC1#8, 0#8, 8#8] = .ok .cfgReadReq ∧
    decode .transmode [0xFF#8] = .ok (.transmode 1#1 1#1 1#1 7#3) ∧
    decode .body (List.replicate 8 0xFF#8) = .ok (.cfgBody
      ⟨0xFF#8, 0xFF#8, 7#3, 3#2, 7#3, 3#2, 1#1, 3#2, 0xFF#8, 7#3, 1#1, 1#1, 1#1, 0xFF#8, 0xFF#8⟩) := by decide +kernel

theorem witness_FramesAreTheBytesTheSpecWrites :
    (SaveType.volatile, 0xC2#8) ∈ [(SaveType.persistent, 0xC0#8), (SaveType.volatile, 0xC2#8)] ∧
    (ProgCmd.writeVolatile, 0xC2#8) ∈
      [(ProgCmd.writePersistent, 0xC0#8), (ProgCmd.readConfiguration, 0xC1#8), (ProgCmd.writeVolatile, 0xC2#8)] := by
  decide

/-- The three clauses of DECCFG and of DECREG, at their lengths and next to them. -/
theorem witness_DeccfgDecodesTheBuffer :
    ((delivered (List.replicate 8 0#8) edge).arg0.toNat % 2 = 0 ∧ (delivered (List.replicate 8 0#8) edge).rlen.toNat = 8) ∧
    ((delivered echoA { edge with arg0 := 0xFF#8 }).arg0.toNat % 2 = 1 ∧
      (delivered echoA { edge with arg0 := 0xFF#8 }).rlen.toNat = 11) ∧
    (delivered echoA edge).rlen.toNat ≠ 8 := by decide +kernel

theorem witness_EncregEncodesOneWindow :
    ((1#8).toNat ≥ 1 ∧ (5#8).toNat ≤ 5) ∧ (0#8).toNat = 0 ∧ 6 ≤ (6#8).toNat ∧ 6 ≤ (0xFF#8).toNat ∧
    ({ edge with arg0 := 5#8 } : State).arg0.toNat = 5 := by decide

theorem witness_DecregDecodesOneWindow :
    ({ edge with arg0 := 4#8, rlen := 2#8 } : State).rlen.toNat = windowCount 4 ∧
    ({ edge with arg0 := 4#8, rlen := 1#8 } : State).rlen.toNat ≠ windowCount 4 ∧
    ({ edge with arg0 := 5#8, rlen := 1#8 } : State).rlen.toNat = windowCount 5 := by decide

theorem witness_DecinfoDecodesTheIdentity :
    ({ edge with rlen := 6#8 } : State).rlen.toNat = 6 ∧ edge.rlen.toNat ≠ 6 := by decide

theorem witness_CodecCommandsNeverTouchTheLink :
    Instr.enccfg ∈ [Instr.enccfg, .deccfg, .encreg, .decreg, .decinfo] ∧
    Instr.decinfo ∈ [Instr.enccfg, .deccfg, .encreg, .decreg, .decinfo] := by decide

theorem witness_SetmodeFollowsTheTransitionTable : 1 ≤ edge.params.tPoll ∧
    4 ≤ ({ edge with arg0 := 4#8 } : State).arg0.toNat ∧
    (({ edge with arg0 := 3#8, linkBaud := 9601 } : State).arg0.toNat = 3 ∧
      ({ edge with arg0 := 3#8, linkBaud := 9601 } : State).linkBaud ≠ 9600) ∧
    (({ edge with arg0 := 3#8 } : State).arg0.toNat ≤ 3 ∧ edge.linkBaud = 9600) ∧
    ({ edge with arg0 := 0#8, linkBaud := 115200 } : State).arg0.toNat ≤ 3 := by decide

theorem witness_OnlySetmodeChangesModeAndPins :
    (∃ t, step (edge.start 0x21#8) = .next t) ∧ (edge.start 0x21#8).seq = .run ∧ (edge.start 0x21#8).cmd ≠ 0x20#8 ∧
    (∃ t, step edge = .next t) ∧ edge.seq ≠ .run :=
  ⟨next_of_isSome (by decide +kernel), rfl, by decide, next_of_isSome (by decide +kernel), by decide⟩

theorem witness_WaitcompleteFollowsTheSchedule : edge.argp = 0 ∧ 1 ≤ ({ edge with argp := 1 } : State).argp := by decide

/-- The limits 200 and 197 and one above each. -/
theorem witness_SendsTransmitOneWholeFrameThenWait : 1 ≤ edge.params.tPoll ∧
    (∃ f, sendTable .sendmsg { edge with dlen := 201#16 } = some (200, f)) ∧ 200 < ({ edge with dlen := 201#16 } : State).dlen.toNat ∧
    (∃ f, sendTable .sendfixed { edge with dlen := 197#16 } = some (197, f)) ∧
    ({ edge with dlen := 197#16 } : State).dlen.toNat ≤ 197 ∧ 197 < ({ edge with dlen := 198#16 } : State).dlen.toNat ∧
    ({ edge with dlen := 200#16 } : State).dlen.toNat ≤ 200 :=
  ⟨by decide, ⟨_, rfl⟩, by decide, ⟨_, rfl⟩, by decide, by decide, by decide⟩

theorem witness_RecvstructReadsAFramedReply : edge.arg0.toNat = 0 ∧ 200 < ({ edge with arg0 := 201#8 } : State).arg0.toNat ∧
    (1 ≤ ({ edge with arg0 := 1#8 } : State).arg0.toNat ∧ ({ edge with arg0 := 200#8 } : State).arg0.toNat ≤ 200) ∧
    (run 0x31#8 { edge with arg0 := 1#8, arg1 := 7#8 }).map (fun t => t.status) = some .success ∧
    (run 0x31#8 { edge with arg0 := 1#8, arg1 := 8#8 }).map (fun t => t.status) = some .headNotRecognized := by
  decide +kernel

/-- RECVMSG, RECVMSGRSSI and RECVCOMPLETE have the same bound; a read that is full and one that is short. -/
theorem witness_RecvmsgReadsExactlyItsSize :
    200 < ({ edge with arg0 := 201#8 } : State).arg0.toNat ∧ ({ edge with arg0 := 200#8 } : State).arg0.toNat ≤ 200 ∧
    (run 0x43#8 { edge with arg0 := 1#8 }).map (fun t => t.status) = some .success ∧
    (run 0x43#8 { edge with arg0 := 2#8 }).map (fun t => t.status) = some .dataSizeMismatch := by decide +kernel

theorem witness_RecvmsgrssiTakesTheLastByteAsRssi :
    (run 0x44#8 { edge with arg0 := 0#8 }).map (fun t => t.status) = some .success ∧
    (run 0x44#8 { edge with arg0 := 1#8 }).map (fun t => t.status) = some .dataSizeMismatch := by decide +kernel

/-- Nothing obtained; a byte with the RSSI flag; a byte without; nothing wanted. -/
theorem witness_RecvcompleteDrainsUntilQuiet :
    (run 0x45#8 { State.reset with arg0 := 1#8 }).map (fun t => t.status) = some .noResponseFromDevice ∧
    (run 0x45#8 { edge with arg0 := 1#8, arg1 := 1#8 }).map (fun t => (t.rlen, t.rssi)) = some (0#8, 7#8) ∧
    (run 0x45#8 { edge with arg0 := 1#8 }).map (fun t => t.rlen) = some 1#8 ∧
    (run 0x45#8 { edge with arg0 := 0#8 }).map (fun t => t.rlen) = some 0#8 := by decide +kernel

/-- R172: each byte restarts the window of 5 ticks, so bytes 10 points apart are all read after the 7 that waits. -/
theorem test_recvcomplete_window_restarts :
    (run 0x45#8 (scripted (spaced [(10, 1#8), (10, 2#8), (10, 3#8)])
      { edge with arg0 := 11#8, params := { Config.board with tQuiesce := 5 } })).map (fun t => (t.rlen, t.rbuf.readBytes 0 4, t.status)) =
      some (4#8, [7#8, 1#8, 2#8, 3#8], .success) := by decide +kernel

/-- Two bytes, each as late as a window of 5 ticks allows. -/
theorem witness_paced_device :
    (scripted (spaced [(10, 1#8), (10, 2#8)]) State.reset).link.sendsWithin Config.board 5 [1#8, 2#8] :=
  ⟨[(10, 1#8), (10, 2#8)], rfl, rfl, by decide, by decide⟩

theorem witness_RecvuntilStopsAtTheDelimiter : edge.params.nUntilMax ≤ 200 := by decide

theorem witness_MessagingNeverReadsMode :
    Instr.available ∈ [Instr.sendmsg, .sendfixed, .sendbcast, .recvmsg, .recvmsgrssi, .recvcomplete, .recvuntil, .available] := by
  decide

theorem witness_ReadyDevicesLetWaitingCommandsSucceed : 1 ≤ edge.params.tPoll ∧ edge.link.auxHolds true = true ∧
    (({ edge with arg0 := 3#8 } : State).arg0.toNat ≤ 3 ∧ edge.linkBaud = 9600) ∧ 1 ≤ ({ edge with argp := 1 } : State).argp ∧
    (∃ f, sendTable .sendbcast edge = some (197, f)) ∧ edge.dlen.toNat ≤ 197 :=
  ⟨by decide, by decide, by decide, by decide, ⟨_, rfl⟩, by decide⟩

/-- Two bytes and what follows them; the delimiter after them, within the bound. -/
theorem witness_BufferedReceivesSucceedAtOnce :
    (withRx [1#8, 2#8, 3#8]).params.nUntilMax ≤ 200 ∧ (withRx [1#8, 2#8, 3#8]).link.rxfifo = [1#8, 2#8] ++ [3#8] ∧
    ({ withRx [1#8, 2#8, 3#8] with arg0 := 2#8, arg1 := 1#8 } : State).arg0.toNat = [1#8, 2#8].length ∧
    [1#8, 2#8].head? = some ({ withRx [1#8, 2#8, 3#8] with arg1 := 1#8 } : State).arg1 ∧ (1#8).toNat % 2 = 1 ∧
    ({ withRx [1#8, 2#8, 3#8] with arg0 := 3#8 } : State).arg0 ∉ [1#8, 2#8] ∧
    [1#8, 2#8].length < ({ withRx [1#8, 2#8, 3#8] with params := { Config.board with nUntilMax := 3 } } : State).params.nUntilMax := by
  decide

theorem witness_LocalConfigurationChecksOperandsThenMode :
    localRequest .readreg { edge with arg0 := 6#8 } = none ∧ localRequest .readreg { edge with arg0 := 5#8 } ≠ none ∧
    localRequest .setcfg { edge with arg0 := 0xC1#8 } = none ∧ localRequest .getcfg edge ≠ none ∧
    edge.mode ≠ .configuration := by decide +kernel

theorem witness_LocalConfigurationIsOneExchange :
    localRequest .getinfo configured = some ([0xC1#8, 0x08#8, 0x03#8], 6, .headNotRecognized) ∧
    configured.mode = .configuration ∧ 1 ≤ configured.params.tPoll := by decide

/-- An answer that comes after the 3 bytes of the request, its first byte at the AUX sample and its last at the last point
the statement allows; and one that comes with the request. -/
theorem witness_AnsweredRequestsSucceed :
    localRequest .getinfo configured = some ([0xC1#8, 0x08#8, 0x03#8], 6, .headNotRecognized) ∧
    configured.mode = .configuration ∧ configured.params.wf = true ∧
    (scripted lateAnswer configured).link.auxHolds true = true ∧
    (scripted lateAnswer configured).link.answers (3 + 1 + 2 * 50) [0xC1#8, 1#8, 2#8, 3#8, 4#8, 5#8] ∧
    (scripted (answering [0xC1#8, 1#8, 2#8, 3#8, 4#8, 5#8]) configured).link.answers (3 + 1 + 2 * 50)
      [0xC1#8, 1#8, 2#8, 3#8, 4#8, 5#8] ∧
    [0xC1#8, 1#8, 2#8, 3#8, 4#8, 5#8].length = 6 ∧ [0xC1#8, 1#8, 2#8, 3#8, 4#8, 5#8].head? = some 0xC1#8 :=
  ⟨by decide, by decide, by decide, by decide, ⟨[.arrive 0x99#8], lateAnswer.drop 1, [], rfl, by decide, by decide⟩,
    ⟨[], (answering [0xC1#8, 1#8, 2#8, 3#8, 4#8, 5#8]).drop 1, [], rfl, by decide, by decide⟩, by decide, by decide⟩

theorem witness_SendcfgmsgTransmitsFourteenBytes : ({ edge with arg3 := 0xC2#8 } : State).arg3 = 0xC2#8 ∧
    ¬ (({ edge with arg3 := 0xC3#8 } : State).arg3 = 0xC0#8 ∨ ({ edge with arg3 := 0xC3#8 } : State).arg3 = 0xC1#8 ∨
      ({ edge with arg3 := 0xC3#8 } : State).arg3 = 0xC2#8) := by decide

theorem witness_ReservedOpcodesAreNotSupported :
    [0x00#8, 0x0F#8, 0x15#8, 0x1F#8, 0x22#8, 0x2F#8, 0x34#8, 0x3F#8, 0x48#8, 0x4F#8, 0x57#8, 0xFF#8].all (fun op =>
      op.toNat ≤ 0x0F ∨ (0x15 ≤ op.toNat ∧ op.toNat ≤ 0x1F) ∨ (0x22 ≤ op.toNat ∧ op.toNat ≤ 0x2F) ∨
      (0x34 ≤ op.toNat ∧ op.toNat ≤ 0x3F) ∨ (0x48 ≤ op.toNat ∧ op.toNat ≤ 0x4F) ∨ 0x57 ≤ op.toNat) = true := by
  decide +kernel

theorem witness_FramesToTheDeviceAreTransmitted : 1 ≤ edge.params.tPoll ∧ Instr.cfgReadReq.toDevice = true ∧
    (Instr.msgTransparent (List.replicate 200 0#8)).toDevice = true ∧ (Instr.msgTransparent (List.replicate 200 0#8)).wf = true ∧
    (Instr.msgTransparent (List.replicate 201 0#8)).wf = false ∧
    (Instr.msgRemoteCfg 0#8 3#8 4#8 .writeVolatile cfgA).toDevice = true := by decide +kernel

theorem witness_FramesFromTheDeviceArrive : (Instr.infoResp 8#8 3#8 1#8 2#8 3#8).fromDevice = true ∧
    (Instr.msgReceived [] none).fromDevice = true := by decide

theorem witness_PinPairsDriveBothPins : 1 ≤ edge.params.tPoll ∧
    (Instr.modeConfiguration, Mode.configuration, 1#1, 1#1) ∈ [(Instr.modeNormal, Mode.normal, 0#1, 0#1),
      (Instr.modeWorTx, Mode.worTransmitter, 1#1, 0#1), (Instr.modeWorRx, Mode.worReceiver, 0#1, 1#1),
      (Instr.modeConfiguration, Mode.configuration, 1#1, 1#1)] ∧
    ({ edge with linkBaud := 9601 } : State).linkBaud ≠ 9600 ∧ edge.linkBaud = 9600 ∧ edge.link.auxHolds true = true ∧
    (({ edge with arg0 := 3#8 } : State).start 0x20#8).arg0.toNat = Mode.configuration.code.toNat ∧
    (({ edge with arg0 := 3#8 } : State).start 0x20#8).undisturbed = true := by decide

/-- A refusal, a command that waits, and one with AUX not wired, each with its next state. -/
theorem witness_commands :
    (Instr.reserved 0xFF#8).isCommand = true ∧ Instr.recvuntil.isCommand = true ∧
    (∃ t, exec .getcfg edge = .next t) ∧
    (after (exec .getcfg edge)).map (fun t => t.status.isRefusal) = some true ∧
    (∃ t, exec .recvuntil { State.reset with params := { Config.board with auxWired := false } } = .next t) ∧
    (after (exec .recvuntil { State.reset with params := { Config.board with auxWired := false } })).map
      (fun t => t.status) = some .timeout :=
  ⟨by decide, by decide, next_of_isSome (by decide +kernel), by decide +kernel, next_of_isSome (by decide +kernel),
    by decide +kernel⟩

/-- One changed register for each case: a host write, BUSY at a CMD write, the running command's. -/
theorem witness_RegistersAreReachedByHostAndNamedCommandsOnly :
    (after (step { edge with sched := [.host (.write (.reg 33) 9)] })).map (fun t => decide (t.readReg 33 ≠ edge.readReg 33)) =
      some true ∧
    (after (step { edge with sched := [.hostNow (.write (.reg 0) 9)] })).map (fun t => decide (t.readReg 2 ≠ edge.readReg 2)) =
      some true ∧
    (after (step (edge.startRow (.option 3#2 1#1 3#2)))).map (fun t => decide (t.readReg 26 ≠ edge.readReg 26)) =
      some true := by decide +kernel

theorem witness_HistoryAndTimeOnlyGrow :
    (∃ t, step (edge.start 0x43#8) = .next t) ∧ (∃ t, step edge = .next t) :=
  ⟨next_of_isSome (by decide +kernel), next_of_isSome (by decide +kernel)⟩

end Sys2Proof.Tests
end

section
/-! PROOFS. What the decoder accepts: every instruction it answers is well formed, and a value written to `CMD` is always a
command. -/

namespace Sys2Proof.Machine

/-! ## Opcodes (R86, R112) -/

/-- An opcode is a row of the map, or reserved and in no row. -/
theorem decodeOpcode_cases (op : Byte) :
    (op, decodeOpcode op) ∈ opcodeTable ∨ (decodeOpcode op = .reserved op ∧ op ∉ opcodeTable.map Prod.fst) := by
  unfold decodeOpcode
  cases hf : opcodeTable.find? (fun row => row.1 == op) with
  | some row =>
    have hop : row.1 = op := by simpa using List.find?_some hf
    exact .inl (hop ▸ List.mem_of_find?_eq_some hf)
  | none =>
    refine .inr ⟨rfl, fun hm => ?_⟩
    obtain ⟨row, hrow, hop⟩ := List.mem_map.mp hm
    exact List.find?_eq_none.mp hf row hrow (beq_iff_eq.mpr hop)

theorem opcodeTable_port : ∀ row ∈ opcodeTable, row.2.port = .cmd := by decide

theorem opcodeTable_wf : ∀ row ∈ opcodeTable, row.2.wf = true := by decide

theorem opcodeTable_opcodes : opcodeTable.map Prod.fst = assignedOpcodes := rfl

theorem decodeOpcode_port (op : Byte) : (decodeOpcode op).port = .cmd := by
  rcases decodeOpcode_cases op with hm | ⟨he, -⟩
  · exact opcodeTable_port _ hm
  · rw [he]; rfl

theorem decodeOpcode_wf (op : Byte) : (decodeOpcode op).wf = true := by
  rcases decodeOpcode_cases op with hm | ⟨he, hn⟩
  · exact opcodeTable_wf _ hm
  · rw [opcodeTable_opcodes] at hn
    rw [he]
    simpa [Instr.wf] using hn

/-- The fetch never fails: any byte is an opcode (R85, R112). -/
theorem fetchCommand_eq (s : State) : fetchCommand s = .ok (decodeOpcode s.cmd) := rfl

/-! ## Frames and parts of frames -/

theorem decodeHeader_wf {c a n : Byte} {i : Instr} (h : decodeHeader c a n = .ok i) : i.wf = true := by
  unfold decodeHeader at h
  split_ifs at h with hc
  cases h
  simpa [Instr.wf, codeWritePersistent, codeRead, codeWriteVolatile, codeWrongFormat, codeSpecialExtended, or_assoc]
    using hc

theorem decodeReadRequest_wf {c a n : Byte} {i : Instr} (h : decodeReadRequest c a n = .ok i) : i.wf = true := by
  unfold decodeReadRequest at h
  split_ifs at h <;> cases h <;> rfl

theorem decodeWriteRequest1_wf {c a n x : Byte} {i : Instr} (h : decodeWriteRequest1 c a n x = .ok i) :
    i.wf = true := by
  unfold decodeWriteRequest1 at h
  split at h
  · cases h
  · split_ifs at h <;> cases h <;> rfl

theorem decodeWriteRequest2_wf {c a n x y : Byte} {i : Instr} (h : decodeWriteRequest2 c a n x y = .ok i) :
    i.wf = true := by
  unfold decodeWriteRequest2 at h
  split at h
  · cases h
  · split_ifs at h
    cases h
    rfl

theorem decodeFullWrite_wf {c a n : Byte} {b : BodyBytes} {i : Instr} (h : decodeFullWrite c a n b = .ok i) :
    i.wf = true := by
  unfold decodeFullWrite at h
  split at h
  · cases h
  · split_ifs at h
    split at h <;> cases h
    rfl

theorem decodeRequest_wf {bs : List Byte} {i : Instr} (h : decodeRequest bs = .ok i) : i.wf = true := by
  unfold decodeRequest at h
  split at h
  · exact decodeReadRequest_wf h
  · exact decodeWriteRequest1_wf h
  · exact decodeWriteRequest2_wf h
  · exact decodeFullWrite_wf h
  · cases h

theorem decodeWindowResponse_wf {w : Window} {bs : List Byte} {i : Instr} (h : decodeWindowResponse w bs = .ok i) :
    i.wf = true := by
  unfold decodeWindowResponse at h
  split at h
  case h_6 => cases h
  all_goals
    split_ifs at h
    cases h
    rfl

theorem decodeCode_wf {b : Byte} {i : Instr} (h : decodeCode b = .ok i) : i.wf = true := by
  unfold decodeCode at h
  split_ifs at h <;> cases h <;> rfl

theorem decodePins_wf {b : Byte} {i : Instr} (h : decodePins b = .ok i) : i.wf = true := by
  unfold decodePins at h
  split_ifs at h <;> cases h <;> rfl

/-! ## Messages -/

theorem decodeFixed_wf {bs : List Byte} {i : Instr} (h : decodeFixed bs = .ok i) : i.wf = true := by
  unfold decodeFixed at h
  split at h
  · split_ifs at h with hl
    cases h
    exact decide_eq_true hl
  · cases h

theorem decodeBroadcast_wf {bs : List Byte} {i : Instr} (h : decodeBroadcast bs = .ok i) : i.wf = true := by
  unfold decodeBroadcast at h
  split at h
  · split_ifs at h with _ hl
    cases h
    exact decide_eq_true hl
  · cases h

theorem decodeRemote_wf {bs : List Byte} {i : Instr} (h : decodeRemote bs = .ok i) : i.wf = true := by
  unfold decodeRemote at h
  split at h
  · split at h
    · cases h
    · split_ifs at h
      split at h <;> cases h
      rfl
  · cases h

theorem decodeReceived_wf {n : Nat} {rssi : Bool} {bs : List Byte} {i : Instr} (h : decodeReceived n rssi bs = .ok i) :
    i.wf = true := by
  unfold decodeReceived at h
  split_ifs at h with hn hr hl hl <;> cases h
  · exact decide_eq_true ((List.length_take_le n bs).trans hn)
  · exact decide_eq_true (hl ▸ hn)

/-- What decodes, at whatever port, is well formed. -/
theorem decode_wf {p : Port} {bs : List Byte} {i : Instr} (h : decode p bs = .ok i) : i.wf = true := by
  unfold decode at h
  cases p with
  | cmd =>
    dsimp only at h
    split at h <;> cases h
    exact decodeOpcode_wf _
  | header =>
    dsimp only at h
    split at h
    · exact decodeHeader_wf h
    · cases h
  | sped | option | transmode | body =>
    dsimp only at h
    split at h <;> cases h
    rfl
  | code =>
    dsimp only at h
    split at h
    · exact decodeCode_wf h
    · cases h
  | request => exact decodeRequest_wf h
  | respFull | respInfo =>
    dsimp only at h
    split at h
    · split_ifs at h
      cases h
      rfl
    · cases h
  | respWindow w => exact decodeWindowResponse_wf h
  | transparent =>
    dsimp only at h
    split_ifs at h with hl
    cases h
    exact decide_eq_true hl
  | fixedMsg => exact decodeFixed_wf h
  | broadcast => exact decodeBroadcast_wf h
  | remote => exact decodeRemote_wf h
  | received n rssi => exact decodeReceived_wf h
  | pins =>
    dsimp only at h
    split at h
    · exact decodePins_wf h
    · cases h

end Sys2Proof.Machine
end

section
/-! PROOFS. What the body of a command, an arrival or a host access can do to a state, said once: `Grows` for the link,
`Effect` for the state, and `Completes` for a command's answer. Each operation's lemma says that it keeps within them. -/

namespace Sys2Proof.Machine

/-! ## The link -/

/-- What any run of link operations does: time does not go back, the FIFO stays within its capacity, and the history is
appended to, the bytes consumed coming off the FIFO's head unless a discard is among them. -/
structure Grows (p : Params) (l l' : Link) : Prop where
  ticks : l.ticks ≤ l'.ticks
  fits : p.fits l.rxfifo.length = true → p.fits l'.rxfifo.length = true
  hist : ∃ obs, l'.hist = l.hist ++ obs ∧
    (.rxClear ∉ obs → ∃ extra, taken obs ++ l'.rxfifo = l.rxfifo ++ extra)

theorem Flow.grows {p : Params} {l l' : Link} {obs : List Obs} {k : Nat} (f : Flow p l l' obs k) : Grows p l l' := by
  obtain ⟨extra, hx, -⟩ := f.rx
  exact ⟨f.ticksLow, f.fits, obs, f.hist, fun _ => ⟨extra, hx⟩⟩

theorem Grows.refl (p : Params) (l : Link) : Grows p l l := (Flow.refl p l).grows

theorem Grows.trans {p : Params} {a b c : Link} (f : Grows p a b) (g : Grows p b c) : Grows p a c := by
  obtain ⟨o₁, h₁, x₁⟩ := f.hist
  obtain ⟨o₂, h₂, x₂⟩ := g.hist
  refine ⟨f.ticks.trans g.ticks, g.fits ∘ f.fits, o₁ ++ o₂, by rw [h₂, h₁, List.append_assoc], fun hn => ?_⟩
  rw [List.mem_append, not_or] at hn
  obtain ⟨e₁, hx₁⟩ := x₁ hn.1
  obtain ⟨e₂, hx₂⟩ := x₂ hn.2
  exact ⟨e₁ ++ e₂, by rw [taken_append, List.append_assoc, hx₂, ← List.append_assoc, hx₁, List.append_assoc]⟩

/-- An empty FIFO is within every capacity. -/
theorem fits_zero (p : Params) : p.fits 0 = true := by
  unfold Params.fits
  split
  · rfl
  · exact decide_eq_true (Nat.zero_le _)

/-- A discard is an entry of the history, so nothing is said of the FIFO across it. -/
theorem rxClear_grows (p : Params) (l : Link) : Grows p l (l.rxClear p) := by
  obtain ⟨hrx, hhist, -, -, hticks, -⟩ := rxClear_spec p l
  exact ⟨hticks.ge, fun _ => hrx ▸ fits_zero p, [.rxClear], hhist, fun hn => absurd (List.mem_singleton_self _) hn⟩

theorem setPins_grows (p : Params) (v0 v1 : Bit) (l : Link) : Grows p l (l.setPins p v0 v1) := by
  obtain ⟨-, -, hhist, hticks, -, ⟨extra, hrx⟩, hfits, -⟩ := setPins_spec p v0 v1 l
  exact ⟨hticks.ge, hfits, _, hhist, fun _ => ⟨extra, by simpa [taken] using hrx⟩⟩

theorem acts_grows (p : Params) (as : List DevAct) (l : Link) : Grows p l (l.acts p as) := by
  have acted := acts_spec p as l
  obtain ⟨extra, hrx⟩ := acted.rx
  exact ⟨by rw [acted.same], acted.fits, [], by rw [acted.same]; simp, fun _ => ⟨extra, by simpa [taken] using hrx⟩⟩

/-- Arrivals one after another are acts of the device. -/
theorem foldl_arrive_eq_acts (p : Params) (bs : List Byte) (l : Link) :
    bs.foldl (Link.arrive p) l = l.acts p (bs.map .arrive) := by
  rw [Link.acts, List.foldl_map]
  rfl

theorem waitComplete_grows (p : Params) (T P : Nat) (l : Link) : Grows p l (waitComplete p T P l).2 := by
  obtain ⟨_, f⟩ := waitComplete_flow p T P l
  exact f.grows

theorem sendStruct_grows (p : Params) (bs : List Byte) (l : Link) : Grows p l (sendStruct p bs l).2 := by
  obtain ⟨_, f, -⟩ := sendStruct_spec p bs l
  exact f.grows

theorem settle_grows (p : Params) (l : Link) : Grows p l (settle p l).2 := by
  unfold settle
  split
  · exact waitComplete_grows p _ _ l
  · exact (sleep_flow p _ l).grows

/-! ## Statuses a command raises (R199, R202) -/

/-- A status some command completes with: neither the reset value nor one that nothing causes. -/
def Status.raised (st : Status) : Bool := st != .none && !st.uncaused

theorem Status.raised_iff (st : Status) : st.raised = true ↔ st ≠ .none ∧ st.uncaused = false := by
  simp [Status.raised]

theorem shortRead_raised (got : List Byte) (n : Nat) : (shortRead got n).raised = true := by
  unfold shortRead
  split_ifs <;> rfl

theorem readStatus_raised (got : List Byte) (n : Nat) : (readStatus got n).raised = true := by
  unfold readStatus
  split_ifs
  · rfl
  · exact shortRead_raised got n

theorem headStatus_raised (got : List Byte) (n : Nat) (h : Byte) {m : Status} (hm : m.raised = true) :
    (headStatus got n h m).raised = true := by
  unfold headStatus
  split_ifs
  · exact shortRead_raised got n
  · rfl
  · exact hm

theorem waitComplete_raised (p : Params) (T P : Nat) (l : Link) : (waitComplete p T P l).1.raised = true := by
  rcases waitComplete_status p T P l with h | h <;> rw [h] <;> rfl

theorem sendStruct_raised (p : Params) (bs : List Byte) (l : Link) : (sendStruct p bs l).1.raised = true :=
  waitComplete_raised p _ _ _

theorem settle_raised (p : Params) (l : Link) : (settle p l).1.raised = true := by
  unfold settle
  split
  · exact waitComplete_raised p _ _ l
  · rfl

/-! ## The state -/

/-- What a command's body, an arrival or a host access other than a register write does: the parameters, the schedule, the
timer operands and the command's phase stay, the buffers keep their canonical form, `RLEN` its bound, and the link grows.
Of the other registers it says nothing. -/
structure Effect (s t : State) : Prop where
  params : t.params = s.params
  sched : t.sched = s.sched
  argt : t.argt = s.argt
  argp : t.argp = s.argp
  busy : t.busy = s.busy
  seq : t.seq = s.seq
  status : t.status = s.status
  tbuf : s.tbuf.wf = true → t.tbuf.wf = true
  rbuf : s.rbuf.wf = true → t.rbuf.wf = true
  rlen : s.params.nUntilMax ≤ 200 → s.rlen.toNat ≤ 200 → t.rlen.toNat ≤ 200
  link : Grows s.params s.link t.link

section
variable {s t : State}

theorem Effect.refl (s : State) : Effect s s :=
  ⟨rfl, rfl, rfl, rfl, rfl, rfl, rfl, id, id, fun _ => id, Grows.refl _ _⟩

theorem Effect.withLink {l : Link} (g : Grows s.params s.link l) : Effect s (s.withLink l) :=
  { Effect.refl s with link := g }

theorem Effect.clearRssi (h : Effect s t) : Effect s t.clearRssi := { h with }

theorem Effect.setRssi (h : Effect s t) (b : Byte) : Effect s (t.setRssi b) := { h with }

theorem Effect.failReceive (h : Effect s t) : Effect s t.failReceive :=
  { h with rbuf := fun _ => Memory.unspecified_wf _, rlen := fun _ _ => Nat.zero_le _ }

theorem Effect.deliver (h : Effect s t) {bs : List Byte} (hl : s.params.nUntilMax ≤ 200 → bs.length ≤ 200) :
    Effect s (t.deliver bs) :=
  { h with
    rbuf := fun hw => Memory.writeBytes_wf (h.rbuf hw) 0 bs
    rlen := fun hn _ => by
      rw [State.deliver_rlen, BitVec.toNat_ofNat]
      exact (Nat.mod_le _ _).trans (hl hn) }

theorem Effect.load (h : Effect s t) (bs : List Byte) : Effect s (t.load bs) :=
  { h with tbuf := fun hw => Memory.writeBytes_wf (h.tbuf hw) 0 bs }

theorem Effect.received (h : Effect s t) (st : Status) {bs : List Byte} (hl : bs.length ≤ 200) :
    Effect s (t.received st bs) := by
  unfold State.received
  split
  · exact h.deliver fun _ => hl
  · exact h.failReceive

/-- The last byte of a delivery with a trailing RSSI byte does not go to `RBUF` (R169). -/
theorem Effect.deliverRssi (h : Effect s t) {got : List Byte} (hl : got.length ≤ 201) :
    Effect s ((t.deliver got.dropLast).setRssi (got.getLastD 0#8)) :=
  (h.deliver fun _ => by rw [List.length_dropLast]; omega).setRssi _

theorem Effect.receivedRssi (h : Effect s t) (st : Status) {got : List Byte} (hl : got.length ≤ 201) :
    Effect s (t.receivedRssi st got) := by
  unfold State.receivedRssi
  split
  · exact h.deliverRssi hl
  · exact h.failReceive

theorem Effect.recordMode (h : Effect s t) (st : Status) (m : Mode) : Effect s (t.recordMode st m) := by
  unfold State.recordMode
  split
  · exact { h with }
  · exact h

end

/-! ## Completions -/

/-- The answer of a command started at `s`: a completion with a raised status, after an effect on `s`. -/
def Completes (s : State) (a : Answer) : Prop :=
  ∃ (st : Status) (t : State), a = raise st t ∧ st.raised = true ∧ Effect s t

theorem Completes.raise {s t : State} {st : Status} (hst : st.raised = true) (h : Effect s t) :
    Completes s (raise st t) :=
  ⟨st, t, rfl, hst, h⟩

/-- A completion that did nothing else: a refusal, or a status alone. -/
theorem Completes.unchanged {s : State} {st : Status} (hst : st.raised = true) : Completes s (Machine.raise st s) :=
  .raise hst (Effect.refl s)

end Sys2Proof.Machine
end

section
/-! PROOFS. Every host command and every reserved opcode completes (R23, R199), whatever the state; a frame from the device
arrives (R71). -/

namespace Sys2Proof.Machine

variable (s : State)

/-! ## Codec commands -/

theorem execEnccfg_completes : Completes s (execEnccfg s) := by
  unfold execEnccfg
  split <;> exact .raise rfl ((Effect.refl s).load _)

theorem execDeccfg_completes : Completes s (execDeccfg s) := by
  unfold execDeccfg
  split_ifs
  · exact .raise rfl { Effect.refl s with }
  · exact .unchanged rfl
  · exact .raise rfl { Effect.refl s with }
  · exact .unchanged rfl

theorem execEncreg_completes : Completes s (execEncreg s) := by
  unfold execEncreg
  split
  · exact .unchanged rfl
  · exact .raise rfl ((Effect.refl s).load _)

theorem execDecreg_completes : Completes s (execDecreg s) := by
  unfold execDecreg
  split
  · exact .unchanged rfl
  · split_ifs
    · exact .raise rfl { Effect.refl s with }
    · exact .unchanged rfl

theorem execDecinfo_completes : Completes s (execDecinfo s) := by
  unfold execDecinfo
  split_ifs
  · exact .raise rfl { Effect.refl s with }
  · exact .unchanged rfl

/-! ## Mode commands -/

theorem setModeTo_completes (t : Byte) : Completes s (setModeTo t s) := by
  unfold setModeTo
  split
  · exact .unchanged rfl
  · split_ifs
    · exact .unchanged rfl
    · have g := (setPins_grows s.params (pinM0Of t) (pinM1Of t) s.link).trans (settle_grows s.params _)
      exact .raise (settle_raised _ _) ((Effect.withLink g).recordMode _ _)

theorem execGetmode_completes : Completes s (execGetmode s) :=
  .raise rfl { Effect.refl s with }

/-! ## Sends -/

theorem sendFrame_completes (bs : List Byte) : Completes s (sendFrame bs s) :=
  .raise (sendStruct_raised s.params bs s.link) (Effect.withLink (sendStruct_grows _ _ _))

/-- A send of `TBUF[0..DLEN)` is refused for its length or is a `SendStruct` (R162). -/
theorem sendWithin_completes (limit : Nat) (bs : List Byte) :
    Completes s (if s.tooBig limit then raise .packetTooBig s else sendFrame bs s) := by
  split
  · exact .unchanged rfl
  · exact sendFrame_completes s bs

theorem execSendstruct_completes : Completes s (execSendstruct s) := sendWithin_completes s _ _

theorem execSendmsg_completes : Completes s (execSendmsg s) := sendWithin_completes s _ _

theorem execSendfixed_completes : Completes s (execSendfixed s) := sendWithin_completes s _ _

theorem execSendbcast_completes : Completes s (execSendbcast s) := sendWithin_completes s _ _

theorem execSendcfgmsg_completes : Completes s (execSendcfgmsg s) := by
  unfold execSendcfgmsg
  split
  · exact .unchanged rfl
  · exact .raise rfl (Effect.withLink (txWrite_flow _ _ _).grows)

/-! ## Waits and the FIFO -/

theorem execWaitcomplete_completes : Completes s (execWaitcomplete s) := by
  unfold execWaitcomplete
  split
  · exact .unchanged rfl
  · exact .raise (waitComplete_raised _ _ _ _) (Effect.withLink (waitComplete_grows _ _ _ _))

theorem execDrain_completes : Completes s (execDrain s) :=
  .raise rfl (Effect.withLink (rxClear_grows s.params s.link))

theorem execAvailable_completes : Completes s (execAvailable s) :=
  .raise rfl { Effect.withLink (point_flow s.params s.link).grows with }

/-! ## Receives -/

theorem receiveSize_le {n : Byte} (h : ¬ sizeTooLarge n = true) : n.toNat ≤ 200 := by
  rw [sizeTooLarge_iff] at h
  omega

theorem execRecvstruct_completes : Completes s (execRecvstruct s) := by
  unfold execRecvstruct
  split_ifs with _ hn
  · exact .unchanged rfl
  · exact .unchanged rfl
  · rw [receiveStruct_eq]
    obtain ⟨hl, f⟩ := readExactly_spec s.params s.arg0.toNat s.params.tReadTimeout s.link
    exact .raise (headStatus_raised _ _ _ rfl)
      ((Effect.withLink f.grows).received _ (hl.trans (receiveSize_le hn)))

theorem execRecvmsg_completes : Completes s (execRecvmsg s) := by
  unfold execRecvmsg
  split_ifs with hn
  · exact .unchanged rfl
  · obtain ⟨hl, f⟩ := readExactly_spec s.params s.arg0.toNat s.params.tReadTimeout s.link
    exact .raise (readStatus_raised _ _)
      ((Effect.withLink f.grows).clearRssi.received _ (hl.trans (receiveSize_le hn)))

theorem execRecvmsgrssi_completes : Completes s (execRecvmsgrssi s) := by
  unfold execRecvmsgrssi
  split_ifs with hn
  · exact .unchanged rfl
  · obtain ⟨hl, f⟩ := readExactly_spec s.params (s.arg0.toNat + 1) s.params.tReadTimeout s.link
    exact .raise (shortRead_raised _ _)
      ((Effect.withLink f.grows).clearRssi.receivedRssi _ (hl.trans (Nat.succ_le_succ (receiveSize_le hn))))

theorem execRecvcomplete_completes : Completes s (execRecvcomplete s) := by
  unfold execRecvcomplete
  split_ifs with hn
  · exact .unchanged rfl
  · have hsize := receiveSize_le hn
    obtain ⟨new, hgot, hlen, f⟩ :=
      completeLoop_spec s.params (s.arg0.toNat + s.rssiFlag.toNat) [] s.link
    rw [List.nil_append] at hgot
    rw [← hgot] at hlen
    have e := (Effect.withLink f.grows).clearRssi
    dsimp only
    split_ifs with hnone hrssi
    · exact .raise rfl e.failReceive
    · have := Bool.toNat_le s.rssiFlag
      exact .raise rfl (e.deliverRssi (by omega))
    · refine .raise rfl (e.deliver fun _ => ?_)
      rcases Bool.eq_false_or_eq_true s.rssiFlag with hf | hf
      · have : ¬ 1 ≤ _ := fun h1 => hrssi ⟨hf, h1⟩
        omega
      · have : s.rssiFlag.toNat = 0 := by rw [hf]; rfl
        omega

theorem execRecvuntil_completes : Completes s (execRecvuntil s) := by
  obtain ⟨new, tail, hgot, hlen, -, -, hst, f⟩ := untilLoop_spec s.params s.arg0 s.params.nUntilMax [] s.link
  rw [List.nil_append] at hgot
  refine .raise ?_ ((Effect.withLink f.grows).clearRssi.deliver fun hn => ?_)
  · rcases hst with h | h <;> rw [h] <;> rfl
  · rw [hgot]
    exact hlen.trans hn

/-! ## Local configuration commands -/

/-- A local exchange completes when its mismatch status is one that is raised, its response fits `RBUF`, and its stores
keep to the registers (R180, R188). -/
theorem localExchange_completes (req : List Byte) {n : Nat} {m : Status} {store : List Byte → State → State}
    (hn : n ≤ 200) (hm : m.raised = true) (hstore : ∀ bs t, Effect s t → Effect s (store bs t)) :
    Completes s (localExchange req n m store s) := by
  unfold localExchange
  split
  · exact .unchanged rfl
  · obtain ⟨vs, got, l1, st, he, f, hl, hst⟩ := exchange_spec s.params req n m s.link
    rw [he]
    have hraised : st.raised = true := by
      rcases hst with ⟨rfl, -⟩ | rfl
      · rfl
      · exact headStatus_raised _ _ _ hm
    have e := (Effect.withLink ((rxClear_grows _ _).trans f.grows)).received st (hl.trans hn)
    dsimp only
    split
    · exact .raise hraised (hstore _ _ e)
    · exact .raise hraised e

theorem windowFrameLen_le (w : Window) : windowFrameLen w ≤ 200 := by cases w <;> decide

theorem execGetcfg_completes : Completes s (execGetcfg s) :=
  localExchange_completes s _ (by decide) rfl fun _ _ h => { h with }

theorem execGetinfo_completes : Completes s (execGetinfo s) :=
  localExchange_completes s _ (by decide) rfl fun _ _ h => { h with }

theorem execSetcfg_completes : Completes s (execSetcfg s) := by
  unfold execSetcfg
  split
  · exact .unchanged rfl
  · exact localExchange_completes s _ (by decide) rfl fun _ _ h => h

theorem execReadreg_completes : Completes s (execReadreg s) := by
  unfold execReadreg
  split
  · exact .unchanged rfl
  · rename_i w _
    exact localExchange_completes s _ (windowFrameLen_le w) rfl fun _ _ h => { h with }

theorem execWritereg_completes : Completes s (execWritereg s) := by
  unfold execWritereg
  split
  · exact .unchanged rfl
  · rename_i w _
    split
    · exact .unchanged rfl
    · exact localExchange_completes s _ (windowFrameLen_le w) rfl fun _ _ h => h

/-! ## The dispatch -/

/-- Whatever a write of `CMD` starts completes (R23). -/
theorem exec_completes {i : Instr} (h : i.port = .cmd) : Completes s (exec i s) := by
  cases i with
  | enccfg => exact execEnccfg_completes s
  | deccfg => exact execDeccfg_completes s
  | encreg => exact execEncreg_completes s
  | decreg => exact execDecreg_completes s
  | decinfo => exact execDecinfo_completes s
  | setmode => exact setModeTo_completes s s.arg0
  | getmode => exact execGetmode_completes s
  | sendstruct => exact execSendstruct_completes s
  | recvstruct => exact execRecvstruct_completes s
  | waitcomplete => exact execWaitcomplete_completes s
  | drain => exact execDrain_completes s
  | sendmsg => exact execSendmsg_completes s
  | sendfixed => exact execSendfixed_completes s
  | sendbcast => exact execSendbcast_completes s
  | recvmsg => exact execRecvmsg_completes s
  | recvmsgrssi => exact execRecvmsgrssi_completes s
  | recvcomplete => exact execRecvcomplete_completes s
  | recvuntil => exact execRecvuntil_completes s
  | available => exact execAvailable_completes s
  | getcfg => exact execGetcfg_completes s
  | setcfg => exact execSetcfg_completes s
  | getinfo => exact execGetinfo_completes s
  | resetmod => exact .unchanged rfl
  | sendcfgmsg => exact execSendcfgmsg_completes s
  | readreg => exact execReadreg_completes s
  | writereg => exact execWritereg_completes s
  | reserved op => exact .unchanged rfl
  | _ => cases h

theorem runCommand_completes : Completes s (runCommand s) := by
  unfold runCommand
  rw [fetchCommand_eq]
  exact exec_completes s (decodeOpcode_port s.cmd)

/-! ## Arrivals -/

theorem exec_fromDevice {i : Instr} (h : i.fromDevice = true) : exec i s = arriveAll (encode i) s := by
  cases i with
  | cfgResp | infoResp | regRespSpeed | regRespOption | regRespChannel | regRespCrypt | regRespTransmode
  | msgReceived => rfl
  | _ => cases h

/-- A frame from the device is taken without a stop, and only the link changes (R71). -/
theorem arriveAll_effect (bs : List Byte) : ∃ t, arriveAll bs s = .next t ∧ Effect s t := by
  refine ⟨_, rfl, Effect.withLink ?_⟩
  rw [foldl_arrive_eq_acts]
  exact acts_grows _ _ _

end Sys2Proof.Machine
end

section
/-! PROOFS. Who moves in a step, one equation per kind of move; what any step can do, said once (`step_cases`); and that a
lawful step always has a next state. -/

namespace Sys2Proof.Machine

variable {s t : State}

/-! ## The step's equations -/

theorem step_idle (h : s.seq = .idle) : step s = stepIdle s := by
  unfold step stepOnce
  rw [h]

theorem step_run (h : s.seq = .run) : step s = stepRun s := by
  unfold step stepOnce
  rw [h]

theorem stepIdle_nil (hs : s.sched = []) : stepIdle s = .next (s.withLink (s.link.point s.params)) := by
  simp only [stepIdle, hs]

/-- A host access in IDLE takes effect at once, whether or not the host would have waited (R50, R236). -/
theorem stepIdle_host {a : HostAct} {rest : List Move} (hs : s.sched = .host a :: rest ∨ s.sched = .hostNow a :: rest) :
    stepIdle s = hostAccess a ({ s with sched := rest }.withLink (s.link.point s.params)) := by
  rcases hs with hs | hs <;> simp only [stepIdle, hs]

theorem stepIdle_linkBaud {n : Nat} {rest : List Move} (hs : s.sched = .linkBaud n :: rest) :
    stepIdle s = .next { s with sched := rest, linkBaud := n } := by
  simp only [stepIdle, hs]

theorem stepIdle_wire {p : Port} {bs : List Byte} {rest : List Move} (hs : s.sched = .wire p bs :: rest) :
    stepIdle s = runItem p bs { s with sched := rest } := by
  simp only [stepIdle, hs]

theorem stepRun_hostNow {a : HostAct} {rest : List Move} (hs : s.sched = .hostNow a :: rest) :
    stepRun s = hostDuring a { s with sched := rest } := by
  simp only [stepRun, hs]

theorem stepRun_undisturbed (hu : s.undisturbed = true) : stepRun s = runCommand s := by
  unfold State.undisturbed at hu
  unfold stepRun
  cases hs : s.sched with
  | nil => rfl
  | cons m rest =>
    cases m with
    | hostNow a => rw [hs] at hu; cases hu
    | host | linkBaud | wire => rfl

/-- Either no host access comes first, or one does. -/
theorem undisturbed_or_hostNow (s : State) :
    s.undisturbed = true ∨ ∃ a rest, s.sched = .hostNow a :: rest := by
  unfold State.undisturbed
  split
  · rename_i a rest hs
    exact .inr ⟨a, rest, hs⟩
  · exact .inl rfl

/-! ## Items (R71, log entry 4) -/

theorem runItem_arrives {p : Port} {bs : List Byte} {i : Instr} (hd : decode p bs = .ok i) (hi : i.fromDevice = true) :
    runItem p bs s = exec i s := by
  simp only [runItem, hd, (isItem_iff i).mpr (.inl hi), if_true]

theorem runItem_special {p : Port} {bs : List Byte} (hd : decode p bs = .ok .cmdSpecialExtended) :
    runItem p bs s = .refused .specialExtendedPath := by
  simp only [runItem, hd, (isItem_iff _).mpr (.inr rfl), if_true]
  rfl

theorem runItem_notAnItem {p : Port} {bs : List Byte} {i : Instr} (hd : decode p bs = .ok i)
    (hi : i.fromDevice = false) (hne : i ≠ .cmdSpecialExtended) : runItem p bs s = .refused (.undecodable .notAnItem) := by
  have hn : ¬ isItem i = true := fun h => ((isItem_iff i).mp h).elim (by simp [hi]) hne
  simp only [runItem, hd, if_neg hn]

theorem runItem_undecodable {p : Port} {bs : List Byte} {e : DecodeError} (hd : decode p bs = .error e) :
    runItem p bs s = .refused (.undecodable e) := by
  simp only [runItem, hd]

/-- An item that answers a next state is a frame from the device. -/
theorem runItem_effect {p : Port} {bs : List Byte} (h : runItem p bs s = .next t) : Effect s t := by
  cases hd : decode p bs with
  | error e => rw [runItem_undecodable hd] at h; cases h
  | ok i =>
    by_cases hi : i.fromDevice = true
    · rw [runItem_arrives hd hi, exec_fromDevice s hi] at h
      obtain ⟨t', he, effect⟩ := arriveAll_effect s (encode i)
      cases he.symm.trans h
      exact effect
    · by_cases hne : i = .cmdSpecialExtended
      · subst hne
        rw [runItem_special hd] at h
        cases h
      · rw [runItem_notAnItem hd (by simpa using hi) hne] at h
        cases h

/-! ## Host accesses (R26, R50) -/

/-- What a write of a register can do: start a command, set a timer operand within `TW` bits, or set registers of which the
invariant says nothing. -/
theorem writeReg_cases (s : State) (r v : Nat) :
    s.writeReg r v = s.start (byteOf v) ∨
    (∃ n, n < 2 ^ s.params.tw ∧ s.writeReg r v = { s with argt := n }) ∨
    (∃ n, n < 2 ^ s.params.tw ∧ s.writeReg r v = { s with argp := n }) ∨
    ∃ a0 a1 a2 a3 d hdr c, s.writeReg r v =
      { s with arg0 := a0, arg1 := a1, arg2 := a2, arg3 := a3, dlen := d, cfgHdr := hdr, cfg := c } := by
  have hmod : v % 2 ^ s.params.tw < 2 ^ s.params.tw := Nat.mod_lt _ (Nat.two_pow_pos _)
  unfold State.writeReg
  split
  case h_1 => exact .inl rfl
  case h_6 => exact .inr (.inl ⟨_, hmod, rfl⟩)
  case h_7 => exact .inr (.inr (.inl ⟨_, hmod, rfl⟩))
  all_goals exact .inr (.inr (.inr ⟨_, _, _, _, _, _, _, rfl⟩))

theorem writeReg_link (s : State) (r v : Nat) : (s.writeReg r v).link = s.link := by
  rcases writeReg_cases s r v with h | ⟨n, -, h⟩ | ⟨n, -, h⟩ | ⟨_, _, _, _, _, _, _, h⟩
  all_goals simp only [h, State.start_link]

theorem writeReg_sched (s : State) (r v : Nat) : (s.writeReg r v).sched = s.sched := by
  rcases writeReg_cases s r v with h | ⟨n, -, h⟩ | ⟨n, -, h⟩ | ⟨_, _, _, _, _, _, _, h⟩
  all_goals simp only [h, State.start_sched]

/-- A host access to a place that exists has a next state: a register write, or an effect that keeps every register. -/
theorem hostAccess_present {a : HostAct} (s : State) (h : a.loc.present = true) :
    (∃ r v, hostAccess a s = .next (s.writeReg r v)) ∨ ∃ t, hostAccess a s = .next t ∧ Effect s t := by
  have noted (l : HostLoc) (v : Nat) : Effect s (s.noteRead l v) := { Effect.refl s with }
  cases a with
  | read l =>
    cases l with
    | reg r => exact .inr ⟨_, rfl, noted _ _⟩
    | tbuf i | rbuf i => exact .inr ⟨_, if_pos (of_decide_eq_true h), noted _ _⟩
  | write l v =>
    cases l with
    | reg r => exact .inl ⟨r, v, rfl⟩
    | tbuf i =>
      exact .inr ⟨_, if_pos (of_decide_eq_true h),
        { Effect.refl s with tbuf := fun hw => Memory.write_wf hw i (byteOf v) }⟩
    | rbuf i => exact .inr ⟨s, if_pos (of_decide_eq_true h), Effect.refl s⟩

/-- A host access to a place that does not exist is a fault (R34, R35). -/
theorem hostAccess_absent {a : HostAct} (s : State) (h : ¬ a.loc.present = true) :
    hostAccess a s = .fault (.noSuchIndex a.loc) := by
  cases a with
  | read l =>
    cases l with
    | reg r => exact absurd rfl h
    | tbuf i | rbuf i => exact if_neg fun hi => h (decide_eq_true hi)
  | write l v =>
    cases l with
    | reg r => exact absurd rfl h
    | tbuf i | rbuf i => exact if_neg fun hi => h (decide_eq_true hi)

/-- While a command runs only a read of `BUSY` has a next state (U1). -/
theorem hostDuring_effect {a : HostAct} (h : hostDuring a s = .next t) : Effect s t := by
  unfold hostDuring at h
  split at h <;> cases h
  exact { Effect.refl s with }

/-! ## What a step can do -/

/-- The state with other moves still to come. -/
def State.withSched (s : State) (rest : List Move) : State := { s with sched := rest }

@[simp] theorem State.withSched_sched (s : State) (rest : List Move) : (s.withSched rest).sched = rest := rfl

theorem State.withSched_inv (s : State) (h : s.Inv) (rest : List Move) : (s.withSched rest).Inv := { h with }

/-- What a move leaves of the state `u` it was taken in: a command completed, a register was written by the host, or an
effect that keeps the phase. -/
inductive Moved (u : State) : State → Prop
  | completed {v : State} {st : Status} (effect : Effect u v) (raised : st.raised = true) : Moved u (v.completed st)
  | wrote {v : State} (effect : Effect u v) (r x : Nat) : Moved u (v.writeReg r x)
  | other {v : State} (effect : Effect u v) : Moved u v

theorem Completes.moved {a : Answer} (h : Completes s a) : ∃ t, a = .next t ∧ Moved s t := by
  obtain ⟨st, t, rfl, raised, effect⟩ := h
  exact ⟨_, rfl, .completed effect raised⟩

/-- The device's point before a host access is part of its move. -/
theorem hostAccess_moved {a : HostAct} {l : Link} (g : Grows s.params s.link l)
    (h : hostAccess a (s.withLink l) = .next t) : Moved s t := by
  by_cases ha : a.loc.present = true
  · rcases hostAccess_present (s.withLink l) ha with ⟨r, v, he⟩ | ⟨t', he, effect⟩
    · cases he.symm.trans h
      exact .wrote (Effect.withLink g) r v
    · cases he.symm.trans h
      exact .other { effect with link := g.trans effect.link }
  · rw [hostAccess_absent _ ha] at h
    cases h

/-- What a step can do: it takes at most the next scheduled move, and then moves as one of `Moved`. -/
theorem step_cases (h : step s = .next t) :
    ∃ rest, rest <:+ s.sched ∧ Moved (s.withSched rest) t := by
  cases hseq : s.seq with
  | run =>
    rw [step_run hseq] at h
    rcases undisturbed_or_hostNow s with hu | ⟨a, rest, hs⟩
    · rw [stepRun_undisturbed hu] at h
      obtain ⟨t', he, moved⟩ := (runCommand_completes s).moved
      cases he.symm.trans h
      exact ⟨s.sched, List.suffix_rfl, moved⟩
    · rw [stepRun_hostNow hs] at h
      exact ⟨rest, hs ▸ List.suffix_cons _ _, .other (hostDuring_effect h)⟩
  | idle =>
    rw [step_idle hseq] at h
    have point := (point_flow s.params s.link).grows
    cases hs : s.sched with
    | nil =>
      rw [stepIdle_nil hs] at h
      cases h
      exact ⟨[], List.suffix_rfl, .other { Effect.withLink point with sched := hs }⟩
    | cons m rest =>
      refine ⟨rest, List.suffix_cons _ _, ?_⟩
      cases m with
      | host a =>
        rw [stepIdle_host (.inl hs)] at h
        exact hostAccess_moved point h
      | hostNow a =>
        rw [stepIdle_host (.inr hs)] at h
        exact hostAccess_moved point h
      | linkBaud n =>
        rw [stepIdle_linkBaud hs] at h
        cases h
        exact .other { Effect.refl (s.withSched rest) with }
      | wire p bs =>
        rw [stepIdle_wire hs] at h
        exact .other (runItem_effect h)

/-! ## What every move keeps -/

theorem Params.nUntilMax_le {p : Params} (h : p.wf = true) : p.nUntilMax ≤ 200 := by
  simp only [Params.wf, Bool.and_eq_true, decide_eq_true_eq] at h
  obtain ⟨⟨⟨_, hmax⟩, _⟩, _⟩ := h
  exact hmax

theorem Effect.inv (e : Effect s t) (h : s.Inv) : t.Inv where
  params := e.params ▸ h.params
  tbuf := e.tbuf h.tbuf
  rbuf := e.rbuf h.rbuf
  rlen := e.rlen (Params.nUntilMax_le h.params) h.rlen
  argt := by rw [e.argt, e.params]; exact h.argt
  argp := by rw [e.argp, e.params]; exact h.argp
  fifo := e.params ▸ e.link.fits h.fifo
  busy := by rw [e.busy, e.seq]; exact h.busy
  status := e.status ▸ h.status

theorem completed_inv (h : s.Inv) {st : Status} (hst : st.raised = true) : (s.completed st).Inv :=
  { h with
    busy := by simp
    status := ((Status.raised_iff st).mp hst).2 }

theorem writeReg_inv (h : s.Inv) (r v : Nat) : (s.writeReg r v).Inv := by
  rcases writeReg_cases s r v with he | ⟨n, hn, he⟩ | ⟨n, hn, he⟩ | ⟨_, _, _, _, _, _, _, he⟩ <;> rw [he]
  · exact { h with busy := by simp }
  · exact { h with argt := hn }
  · exact { h with argp := hn }
  · exact { h with }

theorem Moved.inv (m : Moved s t) (h : s.Inv) : t.Inv := by
  cases m with
  | completed effect raised => exact completed_inv (effect.inv h) raised
  | wrote effect r x => exact writeReg_inv (effect.inv h) r x
  | other effect => exact effect.inv h

theorem Moved.sched (m : Moved s t) : t.sched = s.sched := by
  cases m with
  | completed effect raised => exact effect.sched
  | wrote effect r x => rw [writeReg_sched, effect.sched]
  | other effect => exact effect.sched

theorem Moved.grows (m : Moved s t) : Grows s.params s.link t.link := by
  cases m with
  | completed effect raised => exact effect.link
  | wrote effect r x => rw [writeReg_link]; exact effect.link
  | other effect => exact effect.link

/-- A step keeps the invariant. -/
theorem step_inv (hi : s.Inv) (h : step s = .next t) : t.Inv := by
  obtain ⟨rest, -, moved⟩ := step_cases h
  exact moved.inv (s.withSched_inv hi rest)

/-- A step schedules nothing new, so lawful moves stay so. -/
theorem step_lawful (hl : s.lawful = true) (h : step s = .next t) : t.lawful = true := by
  obtain ⟨rest, hrest, moved⟩ := step_cases h
  unfold State.lawful at hl ⊢
  rw [moved.sched, State.withSched_sched, List.all_eq_true]
  exact fun m hm => List.all_eq_true.mp hl m (hrest.subset hm)

/-! ## Progress -/

theorem lawful_head {m : Move} {rest : List Move} (hl : s.lawful = true) (hs : s.sched = m :: rest) : m.lawful = true :=
  List.all_eq_true.mp hl m (hs ▸ List.mem_cons_self)

theorem step_completes (hseq : s.seq = .run) (hu : s.undisturbed = true) : Completes s (step s) := by
  rw [step_run hseq, stepRun_undisturbed hu]
  exact runCommand_completes s

theorem hostAccess_next {a : HostAct} (s : State) (h : a.loc.present = true) : ∃ t, hostAccess a s = .next t := by
  rcases hostAccess_present s h with ⟨r, v, he⟩ | ⟨t, he, -⟩
  · exact ⟨_, he⟩
  · exact ⟨t, he⟩

theorem runItem_next {p : Port} {bs : List Byte} (s : State) (h : arrivalItem p bs = true) :
    ∃ t, runItem p bs s = .next t := by
  unfold arrivalItem at h
  split at h
  · rename_i i hd
    rw [runItem_arrives hd h, exec_fromDevice s h]
    exact ⟨_, rfl⟩
  · cases h

/-- A state whose scheduled moves are lawful has a next state (R23, R236). -/
theorem lawful_step_next (hl : s.lawful = true) : ∃ t, step s = .next t := by
  cases hseq : s.seq with
  | run =>
    rcases undisturbed_or_hostNow s with hu | ⟨a, rest, hs⟩
    · obtain ⟨t, he, -⟩ := (step_completes hseq hu).moved
      exact ⟨t, he⟩
    · have ha : a = .read (.reg 2) := by simpa [Move.lawful] using lawful_head hl hs
      rw [step_run hseq, stepRun_hostNow hs, ha]
      exact ⟨_, rfl⟩
  | idle =>
    rw [step_idle hseq]
    cases hs : s.sched with
    | nil => exact ⟨_, stepIdle_nil hs⟩
    | cons m rest =>
      have hm := lawful_head hl hs
      cases m with
      | host a =>
        rw [stepIdle_host (.inl hs)]
        exact hostAccess_next _ hm
      | hostNow a =>
        rw [stepIdle_host (.inr hs)]
        have ha : a = .read (.reg 2) := by simpa [Move.lawful] using hm
        exact hostAccess_next _ (ha ▸ rfl)
      | linkBaud n => exact ⟨_, stepIdle_linkBaud hs⟩
      | wire p bs =>
        rw [stepIdle_wire hs]
        exact runItem_next _ hm

end Sys2Proof.Machine
end

section
/-! PROOFS. The obligations of spec/00_scope.md. -/

namespace Sys2Proof.Machine

theorem resetWith_inv {p : Params} (hp : p.wf = true) : (State.resetWith p).Inv where
  params := hp
  tbuf := Memory.unspecified_wf 0
  rbuf := Memory.unspecified_wf 1
  rlen := Nat.zero_le _
  argt := Nat.two_pow_pos _
  argp := Nat.two_pow_pos _
  fifo := fits_zero p
  busy := by simp [State.resetWith]
  status := rfl

/-- Settles O2. -/
theorem invariantHoldsAfterReset : Obligations.InvariantHoldsAfterReset :=
  ⟨fun _ hp => resetWith_inv hp, resetWith_inv (by decide)⟩

/-- Settles O3, by what a step can do (`step_cases`). -/
theorem everyStepKeepsTheInvariant : Obligations.EveryStepKeepsTheInvariant :=
  fun _ _ hi h => step_inv hi h

/-- Settles O4: progress by the kind of the next move, preservation by O3 and because nothing new is scheduled. -/
theorem lawfulStepsNeverStop : Obligations.LawfulStepsNeverStop := by
  intro s hi hl
  obtain ⟨t, h⟩ := lawful_step_next hl
  exact ⟨t, h, step_inv hi h, step_lawful hl h⟩

/-- Settles O6. -/
theorem stepRunsTheScheduledItem : Obligations.StepRunsTheScheduledItem := by
  intro s p bs rest hseq hs
  rw [step_idle hseq, stepIdle_wire hs]
  refine ⟨fun i hd => ⟨decode_wf hd, runItem_arrives hd, ?_, runItem_notAnItem hd⟩, fun e hd => runItem_undecodable hd⟩
  rintro rfl
  exact runItem_special hd

/-- Settles O9. -/
theorem idleStepsAreTheOtherAgents : Obligations.IdleStepsAreTheOtherAgents := by
  intro s hseq
  rw [step_idle hseq]
  exact ⟨stepIdle_nil, fun a rest hs => stepIdle_host hs, fun n rest hs => stepIdle_linkBaud hs⟩

/-- Settles O10: every command's answer is a completion with a raised status. -/
theorem everyCommandCompletes : Obligations.EveryCommandCompletes := by
  intro s hseq hu
  obtain ⟨st, t, he, raised, -⟩ := step_completes hseq hu
  exact ⟨t.completed st, he, rfl, rfl, ((Status.raised_iff st).mp raised).1⟩

/-- Settles O58: whatever a step does, its link grows (`Grows`). -/
theorem historyAndTimeOnlyGrow : Obligations.HistoryAndTimeOnlyGrow := by
  intro s t h
  obtain ⟨rest, -, moved⟩ := step_cases h
  exact ⟨moved.grows.ticks, moved.grows.hist⟩

end Sys2Proof.Machine
end

section
/-! PROOFS. The host's side: the register map of spec/10_state.md R26, what a host write leaves unchanged, the buffers by
index, and reset. -/

namespace Sys2Proof.Machine

/-! ## The register map (R26) -/

/-- The link is no part of the register map. -/
theorem readReg_withLink (s : State) (l : Link) (r : Nat) : (s.withLink l).readReg r = s.readReg r := rfl

/-- A host read reaches no register (R50). -/
theorem readReg_noteRead (s : State) (x : HostLoc) (v r : Nat) : (s.noteRead x v).readReg r = s.readReg r := rfl

theorem readReg_unassigned (s : State) {r : Nat} (h : unassignedRegister r = true) : s.readReg r = 0 := by
  unfold State.readReg
  split
  case h_39 => rfl
  all_goals exact absurd h (by decide)

/-- Which numbers are writable does not depend on the width of the timer operands. -/
theorem writableRegisters_numbers (tw : Nat) :
    (writableRegisters tw).map Prod.fst = (writableRegisters 0).map Prod.fst := rfl

theorem writable_mem {r w tw : Nat} (h : (r, w) ∈ writableRegisters tw) : r ∈ (writableRegisters tw).map Prod.fst :=
  List.mem_map_of_mem (f := Prod.fst) h

theorem writable_ne_zero {r tw : Nat} (h : r ∈ (writableRegisters tw).map Prod.fst) : r ≠ 0 := by
  rintro rfl
  rw [writableRegisters_numbers] at h
  exact absurd h (by decide)

/-- A written register reads back the low bits that fit its width. -/
theorem readReg_writeReg_same (s : State) {r w : Nat} (h : (r, w) ∈ writableRegisters s.params.tw) (v : Nat) :
    (s.writeReg r v).readReg r = v % 2 ^ w := by
  unfold writableRegisters at h
  fin_cases h <;> rfl

/-- No two registers share storage (R51): a write of one leaves every other as it reads, but that a write of `CMD` sets
`BUSY` (R27). -/
theorem readReg_writeReg_other (s : State) (k v : Nat) {r : Nat} (hr : r ≠ k) (hbusy : ¬ (k = 0 ∧ r = 2)) :
    (s.writeReg k v).readReg r = s.readReg r := by
  unfold State.writeReg
  split
  case h_1 =>
    unfold State.readReg
    split
    case h_2 => exact absurd ⟨rfl, rfl⟩ hbusy
    all_goals rfl
  all_goals
    unfold State.readReg
    split <;> first | rfl | exact absurd rfl hr

/-- A write of a register other than `CMD` sets operand, length and configuration registers only. -/
theorem writeReg_operands (s : State) {r : Nat} (hr : r ≠ 0) (v : Nat) :
    ∃ a0 a1 a2 a3 n m d hdr c, s.writeReg r v =
      { s with arg0 := a0, arg1 := a1, arg2 := a2, arg3 := a3, argt := n, argp := m, dlen := d, cfgHdr := hdr, cfg := c } := by
  unfold State.writeReg
  split
  case h_1 => exact absurd rfl hr
  all_goals exact ⟨_, _, _, _, _, _, _, _, _, rfl⟩

/-- A write of a number that is neither `CMD` nor a writable register changes nothing. -/
theorem writeReg_ignored (s : State) {r : Nat} (h0 : r ≠ 0) (h : r ∉ (writableRegisters s.params.tw).map Prod.fst)
    (v : Nat) : s.writeReg r v = s := by
  rw [writableRegisters_numbers] at h
  unfold State.writeReg
  split
  case h_1 => exact absurd rfl h0
  case h_27 => rfl
  all_goals exact absurd (by decide) h

theorem readOnly_not_writable (tw : Nat) :
    ∀ r ∈ readOnlyRegisters, r ≠ 0 ∧ r ∉ (writableRegisters tw).map Prod.fst := by
  rw [writableRegisters_numbers]
  decide

theorem unassigned_not_writable (tw : Nat) {r : Nat} (h : unassignedRegister r = true) :
    r ≠ 0 ∧ r ∉ (writableRegisters tw).map Prod.fst := by
  have assigned : ∀ k ∈ 0 :: (writableRegisters tw).map Prod.fst, unassignedRegister k = false := by
    rw [writableRegisters_numbers]
    decide
  rw [← not_or, ← List.mem_cons]
  exact fun hm => Bool.false_ne_true ((assigned r hm).symm.trans h)

/-! ## The obligations -/

/-- Settles O1. -/
theorem resetLeavesTheSpecsValues : Obligations.ResetLeavesTheSpecsValues :=
  fun _ => ⟨rfl, rfl, rfl, rfl, rfl, rfl, rfl, rfl, rfl, rfl, rfl, rfl⟩

/-- Settles O11: the map number by number, each number being its own case of the model's two functions. -/
theorem registerNumbersNameTheirRegisters : Obligations.RegisterNumbersNameTheirRegisters :=
  fun s _ => ⟨⟨rfl, rfl, rfl, rfl, rfl, rfl, rfl⟩,
    ⟨rfl, rfl, rfl, rfl, rfl, rfl, rfl, rfl, rfl, rfl, rfl, rfl, rfl, rfl, rfl, rfl, rfl, rfl⟩,
    rfl, rfl, rfl, fun _ => readReg_unassigned s⟩

/-- Settles O13. -/
theorem readOnlyAndUnassignedNumbersIgnoreWrites : Obligations.ReadOnlyAndUnassignedNumbersIgnoreWrites := by
  intro s r v h
  obtain ⟨h0, hw⟩ := h.elim (unassigned_not_writable s.params.tw) (readOnly_not_writable s.params.tw r)
  exact congrArg _ (writeReg_ignored s h0 hw v)

/-- Settles O12: a read is noted and nothing else; a write is read back, and reaches no other register. -/
theorem hostWriteReadsBackAtItsWidth : Obligations.HostWriteReadsBackAtItsWidth := by
  refine fun s r => ⟨rfl, fun w v hw => ⟨s.writeReg r v, rfl, readReg_writeReg_same s hw v, ?_, ?_⟩⟩
  · have h0 := writable_ne_zero (writable_mem hw)
    exact fun q hq => readReg_writeReg_other s r v hq fun hcmd => h0 hcmd.1
  · obtain ⟨_, _, _, _, _, _, _, _, _, he⟩ := writeReg_operands s (writable_ne_zero (writable_mem hw)) v
    rw [he]
    exact ⟨rfl, rfl, rfl, rfl, rfl, rfl, rfl⟩

/-- Settles O14, by the laws of a buffer; an index that does not exist is `hostAccess_absent`. -/
theorem hostReachesBothBuffersByIndex : Obligations.HostReachesBothBuffersByIndex := by
  intro s i v
  refine ⟨fun hi => ⟨⟨{ s with tbuf := s.tbuf.write i (byteOf v) }, if_pos hi, rfl, ?_, ?_⟩, if_pos hi, if_pos hi, if_pos hi⟩,
    fun hi a ha => hostAccess_absent s ?_⟩
  · exact Memory.read_write_same _ hi _
  · exact fun a ha => Memory.read_write_other _ ha _
  · have absent : ¬ i < Config.bufSize := Nat.not_lt.mpr hi
    rcases ha with ha | ha <;> simpa [ha, HostLoc.present] using absent

end Sys2Proof.Machine
end

section
/-! PROOFS. The command held in `CMD` and the host's accesses around it (spec/10_state.md R27, R29, R50). -/

namespace Sys2Proof.Machine

/-- In RUN, with no host access waiting to come first, a step is the command of the opcode in `CMD` (R83, R85). -/
theorem step_command {s : State} (hseq : s.seq = .run) (hu : s.undisturbed = true) :
    step s = exec (decodeOpcode s.cmd) s := by
  rw [step_run hseq, stepRun_undisturbed hu, runCommand, fetchCommand_eq]

/-- While a command runs, every access but a read of `BUSY` is refused (U1). -/
theorem hostDuring_refused {s : State} {a : HostAct} (ha : a ≠ .read (.reg 2)) :
    hostDuring a s = .refused (.hostAccessWhileBusy a) := by
  unfold hostDuring
  split
  · exact absurd rfl ha
  · rfl

/-- Settles O5. -/
theorem stepRunsTheCommandInCmd : Obligations.StepRunsTheCommandInCmd := by
  intro s i hseq hu hd
  have hi : decodeOpcode s.cmd = i := Except.ok.inj hd
  exact ⟨decode_wf hd, hi ▸ step_command hseq hu⟩

/-- Settles O7: the write is a host access in IDLE, and it leaves the state in RUN with its opcode in `CMD`. -/
theorem writeOfCmdStartsItsCommand : Obligations.WriteOfCmdStartsItsCommand := by
  intro s v rest hseq hs
  exact ⟨_, (step_idle hseq).trans (stepIdle_host (.inl hs)), rfl, step_command rfl⟩

/-- Settles O8. -/
theorem whileRunningTheHostReadsBusyOnly : Obligations.WhileRunningTheHostReadsBusyOnly := by
  intro s a rest hseq hs
  rw [step_run hseq, stepRun_hostNow hs]
  refine ⟨?_, hostDuring_refused⟩
  rintro rfl
  rfl

end Sys2Proof.Machine
end

section
/-! PROOFS. Started on a row, the machine runs that row (spec/10_state.md R27, log entries 4 and 5): the packed bytes read
back as their fields, each command that stands for a row finds the row's operands, and a frame from the device is decoded
back from its bytes. -/

namespace Sys2Proof.Machine

/-! ## The packed bytes (R100 to R102) -/

@[simp] theorem spedBaud_packSped (b : BitVec 3) (p : BitVec 2) (a : BitVec 3) : spedBaud (packSped b p a) = b := by
  revert b p a; decide

@[simp] theorem spedParity_packSped (b : BitVec 3) (p : BitVec 2) (a : BitVec 3) : spedParity (packSped b p a) = p := by
  revert b p a; decide

@[simp] theorem spedAirrate_packSped (b : BitVec 3) (p : BitVec 2) (a : BitVec 3) : spedAirrate (packSped b p a) = a := by
  revert b p a; decide

@[simp] theorem optionSubpkt_packOption (k : BitVec 2) (n : Bit) (w : BitVec 2) : optionSubpkt (packOption k n w) = k := by
  revert k n w; decide

@[simp] theorem optionNoise_packOption (k : BitVec 2) (n : Bit) (w : BitVec 2) : optionNoise (packOption k n w) = n := by
  revert k n w; decide

@[simp] theorem optionPower_packOption (k : BitVec 2) (n : Bit) (w : BitVec 2) : optionPower (packOption k n w) = w := by
  revert k n w; decide

@[simp] theorem transmodeRssiEn_packTransmode (r f t : Bit) (k : BitVec 3) : transmodeRssiEn (packTransmode r f t k) = r := by
  revert r f t k; decide

@[simp] theorem transmodeFixed_packTransmode (r f t : Bit) (k : BitVec 3) : transmodeFixed (packTransmode r f t k) = f := by
  revert r f t k; decide

@[simp] theorem transmodeLbt_packTransmode (r f t : Bit) (k : BitVec 3) : transmodeLbt (packTransmode r f t k) = t := by
  revert r f t k; decide

@[simp] theorem transmodeWor_packTransmode (r f t : Bit) (k : BitVec 3) : transmodeWor (packTransmode r f t k) = k := by
  revert r f t k; decide

/-- A body that was packed unpacks to itself (R123, R124). -/
@[simp] theorem unpackBody_packBody (c : CfgBody) : unpackBody (packBody c) = c := by
  simp only [unpackBody, packBody, spedAirrate_packSped, spedParity_packSped, spedBaud_packSped, optionPower_packOption,
    optionNoise_packOption, optionSubpkt_packOption, transmodeWor_packTransmode, transmodeLbt_packTransmode,
    transmodeFixed_packTransmode, transmodeRssiEn_packTransmode]

theorem unpackSped_packSped (b : BitVec 3) (p : BitVec 2) (a : BitVec 3) (c : CfgBody) :
    unpackSped (packSped b p a) c = { c with baud := b, parity := p, airrate := a } := by
  simp only [unpackSped, spedBaud_packSped, spedParity_packSped, spedAirrate_packSped]

theorem unpackOption_packOption (k : BitVec 2) (n : Bit) (w : BitVec 2) (c : CfgBody) :
    unpackOption (packOption k n w) c = { c with subpkt := k, rssiNoise := n, power := w } := by
  simp only [unpackOption, optionSubpkt_packOption, optionNoise_packOption, optionPower_packOption]

theorem unpackTransmode_packTransmode (r f t : Bit) (k : BitVec 3) (c : CfgBody) :
    unpackTransmode (packTransmode r f t k) c = { c with rssiEn := r, fixed := f, lbt := t, wor := k } := by
  simp only [unpackTransmode, transmodeRssiEn_packTransmode, transmodeFixed_packTransmode, transmodeLbt_packTransmode,
    transmodeWor_packTransmode]

/-- Settles O51: a packed part unpacks to the fields it was packed from. -/
theorem partsGoWhereTheCodecPutsThem : Obligations.PartsGoWhereTheCodecPutsThem := by
  refine fun s c x y z => ⟨rfl, ?_, ?_, ?_, ?_, rfl, rfl, rfl, rfl⟩
  · simp only [exec, execSped, storeFields, unpackSped_packSped]; rfl
  · simp only [exec, execOption, storeFields, unpackOption_packOption]; rfl
  · simp only [exec, execTransmode, storeFields, unpackTransmode_packTransmode]; rfl
  · simp only [exec, execCfgBody, storeFields, unpackBody_packBody]; rfl

/-! ## Frames from the device decode back (R104, R105, R111) -/

/-- An item's bytes are that item at its port. -/
theorem decode_encode_item {i : Instr} (hi : i.fromDevice = true ∨ i = .cmdSpecialExtended) (hw : i.wf = true) :
    decode i.port (encode i) = .ok i := by
  rcases hi with hi | rfl
  · cases i with
    | cfgResp | infoResp | regRespSpeed | regRespOption | regRespChannel | regRespCrypt | regRespTransmode => rfl
    | msgReceived payload trailer =>
      have hlen : payload.length ≤ 200 := of_decide_eq_true hw
      cases trailer <;> simp [Instr.port, encode, decode, decodeReceived, hlen]
    | _ => cases hi
  · rfl

/-- A frame from the device, and the 0xCF code, are started as the next item (R71, log entry 4). -/
theorem startRow_item {i : Instr} (hi : i.fromDevice = true ∨ i = .cmdSpecialExtended) (s : State) :
    s.startRow i = s.startItem i.port (encode i) := by
  rcases hi with hi | rfl
  · cases i with
    | cfgResp | infoResp | regRespSpeed | regRespOption | regRespChannel | regRespCrypt | regRespTransmode
    | msgReceived => rfl
    | _ => cases hi
  · rfl

theorem step_startItem (p : Port) (bs : List Byte) (s : State) :
    step (s.startItem p bs) = runItem p bs { s with busy := 0#1, seq := .idle } := rfl

theorem runItem_encode {i : Instr} (hi : i.fromDevice = true ∨ i = .cmdSpecialExtended) (hw : i.wf = true) (s : State) :
    runItem i.port (encode i) s = exec i s := by
  rw [runItem, decode_encode_item hi hw]
  exact if_pos ((isItem_iff i).mpr hi)

/-! ## The command a row is started as -/

/-- `u` is started on a row `i`: a command is about to run, alone, whose meaning at `u` is that of `i`. -/
def StartedAs (i : Instr) (u : State) : Prop :=
  ∃ (op : Byte) (v : State), u = v.startAlone op ∧ exec (decodeOpcode op) u = exec i u

theorem StartedAs.runs {i : Instr} {u : State} (h : StartedAs i u) :
    u.seq = .run ∧ u.busy = 1#1 ∧ u.undisturbed = true ∧ step u = exec i u := by
  obtain ⟨op, v, rfl, he⟩ := h
  have hu := startAlone_undisturbed op v
  exact ⟨rfl, rfl, hu, (step_command rfl hu).trans he⟩

/-- A host command or a reserved opcode is started by its own opcode. -/
theorem startAlone_startedAs {op : Byte} {i : Instr} (h : decodeOpcode op = i) (s : State) :
    StartedAs i (s.startAlone op) :=
  ⟨op, s, rfl, by rw [h]⟩

theorem decodeOpcode_reserved {op : Byte} (h : (Instr.reserved op).wf = true) : decodeOpcode op = .reserved op := by
  rcases decodeOpcode_cases op with hm | ⟨he, -⟩
  · have : op ∈ assignedOpcodes := List.mem_map_of_mem (f := Prod.fst) hm
    simp [Instr.wf, this] at h
  · exact he

/-- A send that finds `payload` in `TBUF` is the send of that message (R162). -/
theorem sendLoaded_eq {s u : State} {payload : List Byte} (hl : payload.length ≤ 200) (ht : u.tbuf = (s.load payload).tbuf)
    (hd : u.dlen = (s.load payload).dlen) (limit : Nat) (frame : List Byte → List Byte) :
    (if u.tooBig limit then raise .packetTooBig u else sendFrame (frame u.txPayload) u) =
      sendMessage limit payload (frame payload) u := by
  have hdlen : u.dlen.toNat = payload.length := by
    rw [hd, State.load_dlen, BitVec.toNat_ofNat]
    exact Nat.mod_eq_of_lt (by omega)
  have hpayload : u.txPayload = payload := by
    rw [State.txPayload, ht, hd]
    exact load_txPayload s payload hl
  simp only [sendMessage, State.tooBig_iff, hdlen, hpayload]

/-- A frame to the device is started as the SENDSTRUCT of it (R152). -/
theorem startSend_startedAs {i : Instr} (he : exec i = sendFrame (encode i)) (hl : (encode i).length ≤ 200) (s : State) :
    StartedAs i (s.startSend (encode i)) := by
  refine ⟨0x30#8, s.load (encode i), rfl, ?_⟩
  rw [he]
  exact (sendLoaded_eq (s := s) (u := s.startSend (encode i)) hl rfl rfl 200 id).trans (if_neg (Nat.not_lt.mpr hl))

/-- DECREG finds the delivered payload of its window (R129). -/
theorem exec_startDecreg (s : State) {w : Byte} {win : Window} {bs : List Byte} (hw : windowOf w = some win)
    (hl : bs.length = win.len) :
    exec .decreg (s.startDecreg w bs) = storeFields (windowStore win bs) (s.startDecreg w bs) := by
  have hlen : win.len ≤ 2 := by cases win <;> decide
  have hread : (s.rbuf.writeBytes 0 bs).readBytes 0 win.len = bs := by
    rw [Memory.readBytes_writeBytes _ _ _ _ (by omega) (by simp only [Config.bufSize]; omega), ← hl]
    simp
  have hrlen : (s.startDecreg w bs).rlen = win.lenByte := congrArg (BitVec.ofNat 8) hl
  change execDecreg (s.startDecreg w bs) = _
  unfold execDecreg
  rw [show windowOf (s.startDecreg w bs).arg0 = some win from hw]
  dsimp only
  rw [if_pos hrlen, show (s.startDecreg w bs).rbuf = s.rbuf.writeBytes 0 bs from rfl, hread]
  rfl

/-- A part of a window is started as the DECREG of its window. -/
theorem startDecreg_startedAs {i : Instr} {w : Byte} {win : Window} (hw : windowOf w = some win)
    (hl : (encode i).length = win.len) (he : exec i = storeFields (windowStore win (encode i))) (s : State) :
    StartedAs i (s.startDecreg w (encode i)) :=
  ⟨0x13#8, _, rfl, by rw [he]; exact exec_startDecreg s hw hl⟩

theorem encodeBody_length (c : CfgBody) : (encodeBody c).length = 8 := rfl

/-- DECCFG without header finds the delivered body (R126). -/
theorem exec_startDeccfg_body (s : State) (c : CfgBody) :
    exec .deccfg (s.startDeccfg 0#8 (encodeBody c)) = storeFields (fun _ => c) (s.startDeccfg 0#8 (encodeBody c)) := by
  have hread : (s.rbuf.writeBytes 0 (encodeBody c)).readBytes 0 8 = encodeBody c :=
    Memory.readBytes_writeBytes _ (encodeBody c) 0 8 (Nat.le_refl 8) (by rw [encodeBody_length]; decide)
  have hbody : ∀ old, decodeBody (encodeBody c) old = c := fun _ => unpackBody_packBody c
  have hflag : ¬ (s.startDeccfg 0#8 (encodeBody c)).headerFlag = true :=
    (by decide : ¬ (0#8).getLsbD 0 = true)
  have hlen : (s.startDeccfg 0#8 (encodeBody c)).rlen = 8#8 := rfl
  calc exec .deccfg (s.startDeccfg 0#8 (encodeBody c))
      = storeFields (decodeBody ((s.rbuf.writeBytes 0 (encodeBody c)).readBytes 0 8)) (s.startDeccfg 0#8 (encodeBody c)) :=
        (if_neg hflag).trans (if_pos hlen)
    _ = _ := by rw [hread, funext hbody]

/-- DECCFG with header finds the delivered header, and the body the registers held (R126). -/
theorem exec_startHeader (s : State) (h : Header) :
    exec .deccfg (s.startHeader h) = raise .success { s.startHeader h with cfgHdr := h } := by
  have hlength : (h.toList ++ encodeBody s.cfg).length = 11 := rfl
  have hread (k n : Nat) (hn : k + n ≤ 11) : (s.startHeader h).rbuf.readBytes k n =
      ((h.toList ++ encodeBody s.cfg).drop k).take n :=
    Memory.readBytes_writeBytes s.rbuf (h.toList ++ encodeBody s.cfg) k n hn (by rw [hlength]; decide)
  have hbody : decodeBody (encodeBody s.cfg) s.cfg = s.cfg := unpackBody_packBody s.cfg
  have hflag : (s.startHeader h).headerFlag = true := (by decide : (1#8).getLsbD 0 = true)
  have hlen : (s.startHeader h).rlen = 11#8 := rfl
  calc exec .deccfg (s.startHeader h)
      = raise .success { s.startHeader h with
          cfgHdr := headerOf ((s.startHeader h).rbuf.readBytes 0 3) s.cfgHdr
          cfg := decodeBody ((s.startHeader h).rbuf.readBytes 3 8) s.cfg } := (if_pos hflag).trans (if_pos hlen)
    _ = raise .success { s.startHeader h with cfgHdr := h, cfg := decodeBody (encodeBody s.cfg) s.cfg } := by
        rw [hread 0 3 (by decide), hread 3 8 (by decide)]; rfl
    _ = _ := by rw [hbody]; rfl

/-- A header, or a wire command code as byte 0 of one, is started as the DECCFG with header that keeps it. -/
theorem startHeader_startedAs {i : Instr} {s : State} {h : Header}
    (he : exec i (s.startHeader h) = raise .success { s.startHeader h with cfgHdr := h }) :
    StartedAs i (s.startHeader h) :=
  ⟨0x11#8, _, rfl, by rw [he]; exact exec_startHeader s h⟩

theorem progCmdOf_code (q : ProgCmd) : progCmdOf q.code = some q := by cases q <;> rfl

/-- MSG_REMOTE_CFG is started as the SENDCFGMSG of its body (R185). -/
theorem startRemote_startedAs (h l c : Byte) (q : ProgCmd) (body : CfgBody) (s : State) :
    StartedAs (.msgRemoteCfg h l c q body) (s.startRow (.msgRemoteCfg h l c q body)) := by
  refine ⟨0x54#8, _, rfl, ?_⟩
  change execSendcfgmsg _ = execMsgRemoteCfg _ _ _ _ _ _
  unfold execSendcfgmsg
  rw [show progCmdOf (s.startRow (.msgRemoteCfg h l c q body)).arg3 = some q from progCmdOf_code q]
  rfl

/-- Every row but a frame from the device and the 0xCF code is started as a command (R45). -/
theorem startRow_startedAs {i : Instr} (hw : i.wf = true) (hi : i.fromDevice = false) (hne : i ≠ .cmdSpecialExtended)
    (s : State) : StartedAs i (s.startRow i) := by
  cases i with
  | enccfg | deccfg | encreg | decreg | decinfo | setmode | getmode | sendstruct | recvstruct | waitcomplete | drain
  | sendmsg | sendfixed | sendbcast | recvmsg | recvmsgrssi | recvcomplete | recvuntil | available | getcfg | setcfg
  | getinfo | resetmod | sendcfgmsg | readreg | writereg => exact startAlone_startedAs rfl s
  | reserved op => exact startAlone_startedAs (decodeOpcode_reserved hw) s
  | wfHeader c a n => exact startHeader_startedAs rfl
  | cmdWritePersistent | cmdRead | cmdWriteVolatile | cmdWrongFormat => exact startHeader_startedAs rfl
  | sped b p a => exact startDecreg_startedAs (win := .speed) rfl rfl rfl s
  | option k n w => exact startDecreg_startedAs (win := .option) rfl rfl rfl s
  | transmode r f t k => exact startDecreg_startedAs (win := .transmode) rfl rfl rfl s
  | cfgBody c =>
    refine ⟨0x11#8, _, rfl, (exec_startDeccfg_body s c).trans ?_⟩
    change _ = storeFields (fun _ => unpackBody (packBody c)) _
    rw [unpackBody_packBody]
    rfl
  | cfgReadReq | infoReadReq | regReadReqSpeed | regReadReqOption | regReadReqChannel | regReadReqCrypt
  | regReadReqTransmode => exact startSend_startedAs rfl (by decide) s
  | cfgWriteReq | regWriteReqSpeed | regWriteReqOption | regWriteReqChannel | regWriteReqCrypt
  | regWriteReqTransmode => exact startSend_startedAs rfl (by simp [encode, windowFrame, fullHeader, BodyBytes.toList]) s
  | msgTransparent payload =>
    exact ⟨0x40#8, _, rfl, sendLoaded_eq (s := s) (u := s.startRow (.msgTransparent payload)) (of_decide_eq_true hw)
      rfl rfl 200 id⟩
  | msgFixed h l c payload =>
    have hl : payload.length ≤ 197 := of_decide_eq_true hw
    exact ⟨0x41#8, _, rfl, sendLoaded_eq (s := s) (u := s.startRow (.msgFixed h l c payload)) (hl.trans (by decide))
      rfl rfl 197 (fixedFrame h l c)⟩
  | msgBcast c payload =>
    have hl : payload.length ≤ 197 := of_decide_eq_true hw
    exact ⟨0x42#8, _, rfl, sendLoaded_eq (s := s) (u := s.startRow (.msgBcast c payload)) (hl.trans (by decide))
      rfl rfl 197 (fixedFrame Config.broadcastAddr Config.broadcastAddr c)⟩
  | msgRemoteCfg h l c q body => exact startRemote_startedAs h l c q body s
  | modeNormal | modeWorTx | modeWorRx | modeConfiguration => exact ⟨0x20#8, _, rfl, rfl⟩
  | cmdSpecialExtended => exact absurd rfl hne
  | _ => cases hi

/-- Settles O59: a row is started as a command of the same meaning, or as the next item, which decodes back to it. -/
theorem stepRunsTheRowItIsStartedOn : Obligations.StepRunsTheRowItIsStartedOn := by
  intro i s hw
  refine ⟨fun hi hne => (startRow_startedAs hw hi hne s).runs, fun hi => ?_, fun nbits w hd => ?_⟩
  · rw [startRow_item hi]
    exact ⟨rfl, (step_startItem _ _ s).trans (runItem_encode hi hw _)⟩
  · simp only [State.withFetchWord, State.place, hd]

end Sys2Proof.Machine
end

section
/-! PROOFS. What a command writes, said once: `Passive` for the link, `Frame` for the state, whose clauses are the rows of
R26's column "written by" (`commandsWriting`), and `Answers` for the command's answer. From them who reaches a register, in a
command and in a step, and what a command does when AUX is not wired. -/

namespace Sys2Proof.Machine

/-! ## The link -/

@[simp] theorem samples_append (a b : List Obs) : samples (a ++ b) = samples a ++ samples b := by simp [samples]

@[simp] theorem samples_map_rx (bs : List Byte) : samples (bs.map .rx) = [] := by
  simp [samples, List.filterMap_map]

@[simp] theorem samples_map_tx (bs : List Byte) : samples (bs.map .tx) = [] := by
  simp [samples, List.filterMap_map]

/-- The history grows from `l` to `l'`, and by no AUX sample when AUX is not wired (R72, R243). -/
def Unsampled (p : Params) (l l' : Link) : Prop :=
  p.auxWired = false → ∃ obs, l'.hist = l.hist ++ obs ∧ samples obs = []

theorem Unsampled.trans {p : Params} {a b c : Link} (f : Unsampled p a b) (g : Unsampled p b c) : Unsampled p a c := by
  intro hw
  obtain ⟨o₁, h₁, n₁⟩ := f hw
  obtain ⟨o₂, h₂, n₂⟩ := g hw
  exact ⟨o₁ ++ o₂, by rw [h₂, h₁, List.append_assoc], by rw [samples_append, n₁, n₂]; rfl⟩

theorem Flow.unsampled {p : Params} {l l' : Link} {obs : List Obs} {k : Nat} (f : Flow p l l' obs k)
    (h : p.auxWired = false → samples obs = []) : Unsampled p l l' :=
  fun hw => ⟨obs, f.hist, h hw⟩

/-- Link operations that drive no pin and, when AUX is not wired, do not sample it. -/
structure Passive (p : Params) (l l' : Link) : Prop where
  m0 : l'.m0 = l.m0
  m1 : l'.m1 = l.m1
  unsampled : Unsampled p l l'

theorem Passive.trans {p : Params} {a b c : Link} (f : Passive p a b) (g : Passive p b c) : Passive p a c :=
  ⟨g.m0.trans f.m0, g.m1.trans f.m1, f.unsampled.trans g.unsampled⟩

theorem Flow.passive {p : Params} {l l' : Link} {obs : List Obs} {k : Nat} (f : Flow p l l' obs k)
    (h : p.auxWired = false → samples obs = []) : Passive p l l' :=
  ⟨f.m0, f.m1, f.unsampled h⟩

theorem rxClear_passive (p : Params) (l : Link) : Passive p l (l.rxClear p) := by
  obtain ⟨-, hhist, hm0, hm1, -⟩ := rxClear_spec p l
  exact ⟨hm0, hm1, fun _ => ⟨_, hhist, rfl⟩⟩

theorem txWrite_passive (p : Params) (bs : List Byte) (l : Link) : Passive p l (l.txWrite p bs) :=
  (txWrite_flow p bs l).passive fun _ => samples_map_tx bs

theorem readExactly_passive (p : Params) (n T : Nat) (l : Link) : Passive p l (readExactly p n T l).2 :=
  (readExactly_spec p n T l).2.passive fun _ => samples_map_rx _

theorem completeLoop_passive (p : Params) (limit : Nat) (l : Link) : Passive p l (completeLoop p limit [] l).2 := by
  obtain ⟨_, -, -, f⟩ := completeLoop_spec p limit [] l
  exact f.passive fun _ => samples_map_rx _

theorem untilLoop_passive (p : Params) (d : Byte) (room : Nat) (l : Link) : Passive p l (untilLoop p d room [] l).2.2 := by
  obtain ⟨_, _, -, -, -, -, -, f⟩ := untilLoop_spec p d room [] l
  exact f.passive fun _ => samples_map_rx _

theorem waitComplete_passive (p : Params) (T P : Nat) (l : Link) : Passive p l (waitComplete p T P l).2 := by
  cases hw : p.auxWired with
  | false => exact ((waitComplete_spec p T P l).1 hw).2.1.passive fun _ => rfl
  | true =>
    obtain ⟨_, f⟩ := waitComplete_flow p T P l
    exact f.passive fun h => absurd (hw.symm.trans h) (by decide)

theorem sendStruct_passive (p : Params) (bs : List Byte) (l : Link) : Passive p l (sendStruct p bs l).2 :=
  (txWrite_passive p bs l).trans (waitComplete_passive p _ _ _)

theorem exchange_passive (p : Params) (req : List Byte) (n : Nat) (m : Status) (l : Link) :
    Passive p l (exchange p req n m l).2.2 := by
  have sending := (rxClear_passive p l).trans (sendStruct_passive p req (l.rxClear p))
  by_cases hs : (sendStruct p req (l.rxClear p)).1 = .success
  · rw [exchange_read hs, receiveStruct_eq]
    exact sending.trans (readExactly_passive p _ _ _)
  · rw [exchange_timeout hs]
    exact sending

/-- SETMODE drives the pins, so of its link this alone is kept. -/
theorem setPins_unsampled (p : Params) (v0 v1 : Bit) (l : Link) : Unsampled p l (l.setPins p v0 v1) := by
  obtain ⟨-, -, hhist, -⟩ := setPins_spec p v0 v1 l
  exact fun _ => ⟨_, hhist, rfl⟩

/-! ## Timeouts when AUX is not wired (R243) -/

theorem shortRead_ne_timeout (got : List Byte) (n : Nat) : shortRead got n ≠ .timeout := by
  unfold shortRead
  split_ifs <;> decide

theorem readStatus_ne_timeout (got : List Byte) (n : Nat) : readStatus got n ≠ .timeout := by
  unfold readStatus
  split_ifs
  · decide
  · exact shortRead_ne_timeout got n

theorem headStatus_ne_timeout (got : List Byte) (n : Nat) (h : Byte) {m : Status} (hm : m ≠ .timeout) :
    headStatus got n h m ≠ .timeout := by
  unfold headStatus
  split_ifs
  · exact shortRead_ne_timeout got n
  · decide
  · exact hm

theorem ne_timeout_of_success {st : Status} (h : st = .success) : st ≠ .timeout := by
  rw [h]
  decide

theorem waitComplete_unwired {p : Params} (hw : p.auxWired = false) (T P : Nat) (l : Link) :
    (waitComplete p T P l).1 = .success :=
  ((waitComplete_spec p T P l).1 hw).1

theorem sendStruct_unwired {p : Params} (hw : p.auxWired = false) (bs : List Byte) (l : Link) :
    (sendStruct p bs l).1 = .success :=
  waitComplete_unwired hw _ _ _

theorem exchange_unwired {p : Params} (hw : p.auxWired = false) (req : List Byte) (n : Nat) {m : Status}
    (hm : m ≠ .timeout) (l : Link) : (exchange p req n m l).1 ≠ .timeout := by
  rw [exchange_read (sendStruct_unwired hw req _), receiveStruct_eq]
  exact headStatus_ne_timeout _ n codeRead hm

theorem settle_unwired {p : Params} (hw : p.auxWired = false) (l : Link) : (settle p l).1 = .success := by
  unfold settle
  rw [hw]
  rfl

theorem settle_passive (p : Params) (l : Link) : Passive p l (settle p l).2 := by
  unfold settle
  split
  · exact waitComplete_passive p _ _ l
  · exact (sleep_flow p _ l).passive fun _ => rfl

/-! ## The state -/

/-- No window holds the module address (R98). -/
theorem windowStore_address (w : Window) (bs : List Byte) (c : CfgBody) :
    (windowStore w bs c).addh = c.addh ∧ (windowStore w bs c).addl = c.addl := by
  unfold windowStore
  split <;> exact ⟨rfl, rfl⟩

/-- What the body of instruction `i` leaves of state `s` in `t`: the operands, the other agents' data and the parameters
stay; every other register, with the buffer or the pins that go with it, stays unless R26 names `i` for it; and the link
holds no sample of an AUX that is not wired. -/
structure Frame (i : Instr) (s t : State) : Prop where
  cmd : t.cmd = s.cmd
  arg0 : t.arg0 = s.arg0
  arg1 : t.arg1 = s.arg1
  arg2 : t.arg2 = s.arg2
  arg3 : t.arg3 = s.arg3
  argt : t.argt = s.argt
  argp : t.argp = s.argp
  linkBaud : t.linkBaud = s.linkBaud
  params : t.params = s.params
  sched : t.sched = s.sched
  reads : t.reads = s.reads
  mode : i ∉ commandsWriting 3 → t.mode = s.mode ∧ t.link.m0 = s.link.m0 ∧ t.link.m1 = s.link.m1
  result : i ∉ commandsWriting 4 → t.result = s.result
  dlen : i ∉ commandsWriting 11 → t.dlen = s.dlen ∧ t.tbuf = s.tbuf
  rlen : i ∉ commandsWriting 12 → t.rlen = s.rlen ∧ t.rbuf = s.rbuf
  rssi : i ∉ commandsWriting 13 → t.rssi = s.rssi
  rssiValid : i ∉ commandsWriting 14 → t.rssiValid = s.rssiValid
  cfgHdr : i ∉ commandsWriting 16 → t.cfgHdr = s.cfgHdr
  cfgAddr : i ∉ commandsWriting 19 → t.cfg.addh = s.cfg.addh ∧ t.cfg.addl = s.cfg.addl
  cfg : i ∉ commandsWriting 21 → t.cfg = s.cfg
  info : i ∉ commandsWriting 40 → t.info = s.info
  link : Unsampled s.params s.link t.link

section
variable {i : Instr} {s t : State}

theorem Frame.refl (i : Instr) (s : State) : Frame i s s where
  cmd := rfl
  arg0 := rfl
  arg1 := rfl
  arg2 := rfl
  arg3 := rfl
  argt := rfl
  argp := rfl
  linkBaud := rfl
  params := rfl
  sched := rfl
  reads := rfl
  mode _ := ⟨rfl, rfl, rfl⟩
  result _ := rfl
  dlen _ := ⟨rfl, rfl⟩
  rlen _ := ⟨rfl, rfl⟩
  rssi _ := rfl
  rssiValid _ := rfl
  cfgHdr _ := rfl
  cfgAddr _ := ⟨rfl, rfl⟩
  cfg _ := rfl
  info _ := rfl
  link _ := ⟨[], (List.append_nil _).symm, rfl⟩

theorem Frame.withLink {l : Link} (g : Passive s.params s.link l) : Frame i s (s.withLink l) :=
  { Frame.refl i s with
    mode := fun _ => ⟨rfl, g.m0, g.m1⟩
    link := g.unsampled }

theorem Frame.load (h : Frame i s t) (hi : i ∈ commandsWriting 11) (bs : List Byte) : Frame i s (t.load bs) :=
  { h with dlen := fun hn => absurd hi hn }

theorem Frame.deliver (h : Frame i s t) (hi : i ∈ commandsWriting 12) (bs : List Byte) : Frame i s (t.deliver bs) :=
  { h with rlen := fun hn => absurd hi hn }

theorem Frame.failReceive (h : Frame i s t) (hi : i ∈ commandsWriting 12) : Frame i s t.failReceive :=
  { h with rlen := fun hn => absurd hi hn }

theorem Frame.received (h : Frame i s t) (hi : i ∈ commandsWriting 12) (st : Status) (bs : List Byte) :
    Frame i s (t.received st bs) := by
  unfold State.received
  split
  · exact h.deliver hi bs
  · exact h.failReceive hi

theorem Frame.clearRssi (h : Frame i s t) (hi : i ∈ commandsWriting 14) : Frame i s t.clearRssi :=
  { h with rssiValid := fun hn => absurd hi hn }

theorem Frame.setRssi (h : Frame i s t) (hi : i ∈ commandsWriting 13) (hv : i ∈ commandsWriting 14) (b : Byte) :
    Frame i s (t.setRssi b) :=
  { h with
    rssi := fun hn => absurd hi hn
    rssiValid := fun hn => absurd hv hn }

theorem Frame.receivedRssi (h : Frame i s t) (hi : i ∈ commandsWriting 12) (hr : i ∈ commandsWriting 13)
    (hv : i ∈ commandsWriting 14) (st : Status) (got : List Byte) : Frame i s (t.receivedRssi st got) := by
  unfold State.receivedRssi
  split
  · exact (h.deliver hi _).setRssi hr hv _
  · exact h.failReceive hi

theorem Frame.storeWindow (h : Frame i s t) (hi : i ∈ commandsWriting 21) (w : Window)
    (bs : List Byte) : Frame i s { t with cfg := windowStore w bs t.cfg } :=
  { h with
    cfg := fun hn => absurd hi hn
    cfgAddr := fun hn => by
      obtain ⟨hh, hl⟩ := windowStore_address w bs t.cfg
      obtain ⟨hh', hl'⟩ := h.cfgAddr hn
      exact ⟨hh.trans hh', hl.trans hl'⟩ }

theorem Frame.recordMode (h : Frame .setmode s t) (st : Status) (m : Mode) :
    Frame .setmode s (t.recordMode st m) := by
  unfold State.recordMode
  split
  · exact { h with mode := fun hn => absurd (by decide) hn }
  · exact h

/-- A completion writes `STATUS`, `BUSY` and `SEQ`, of which a frame says nothing. -/
theorem Frame.completed (h : Frame i s t) (st : Status) : Frame i s (t.completed st) := { h with }

end

/-! ## Answers -/

/-- The answer of instruction `i` started at `s`: a completion after a body within `i`'s frame, which when AUX is not wired is
no Timeout unless `i` is RECVUNTIL. -/
def Answers (i : Instr) (s : State) (a : Answer) : Prop :=
  ∃ (st : Status) (t : State), a = raise st t ∧ Frame i s t ∧ (s.params.auxWired = false → st = .timeout → i = .recvuntil)

section
variable {i : Instr} {s t : State} {st : Status}

theorem Answers.raise (h : Frame i s t) (hst : s.params.auxWired = false → st ≠ .timeout) :
    Answers i s (raise st t) :=
  ⟨st, t, rfl, h, fun hw he => absurd he (hst hw)⟩

/-- A status fixed in the command's text. -/
theorem Answers.raiseFixed (h : Frame i s t) (hst : st ≠ .timeout) : Answers i s (Machine.raise st t) :=
  .raise h fun _ => hst

theorem Answers.unchanged (hst : st ≠ .timeout) : Answers i s (Machine.raise st s) := .raiseFixed (Frame.refl i s) hst

end

variable (s : State)

/-! ## Codec commands -/

theorem execEnccfg_answers : Answers .enccfg s (execEnccfg s) := by
  unfold execEnccfg
  split <;> exact .raiseFixed ((Frame.refl _ s).load (by decide) _) (by decide)

theorem execDeccfg_answers : Answers .deccfg s (execDeccfg s) := by
  have decoded (hdr : Header) (c : CfgBody) : Frame .deccfg s { s with cfgHdr := hdr, cfg := c } :=
    { Frame.refl .deccfg s with
      cfgHdr := fun hn => absurd (by decide) hn
      cfgAddr := fun hn => absurd (by decide) hn
      cfg := fun hn => absurd (by decide) hn }
  unfold execDeccfg
  split_ifs
  · exact .raiseFixed (decoded _ _) (by decide)
  · exact .unchanged (by decide)
  · exact .raiseFixed (decoded _ _) (by decide)
  · exact .unchanged (by decide)

theorem execEncreg_answers : Answers .encreg s (execEncreg s) := by
  unfold execEncreg
  split
  · exact .unchanged (by decide)
  · exact .raiseFixed ((Frame.refl _ s).load (by decide) _) (by decide)

theorem execDecreg_answers : Answers .decreg s (execDecreg s) := by
  unfold execDecreg
  split
  · exact .unchanged (by decide)
  · split_ifs
    · exact .raiseFixed ((Frame.refl _ s).storeWindow (by decide) _ _) (by decide)
    · exact .unchanged (by decide)

theorem execDecinfo_answers : Answers .decinfo s (execDecinfo s) := by
  unfold execDecinfo
  split_ifs
  · exact .raiseFixed { Frame.refl .decinfo s with info := fun hn => absurd (by decide) hn } (by decide)
  · exact .unchanged (by decide)

/-! ## Mode commands -/

theorem execSetmode_answers : Answers .setmode s (execSetmode s) := by
  unfold execSetmode setModeTo
  split
  · exact .unchanged (by decide)
  · split_ifs
    · exact .unchanged (by decide)
    · let l := s.link.setPins s.params (pinM0Of s.arg0) (pinM1Of s.arg0)
      have driven : Frame .setmode s (s.withLink (settle s.params l).2) :=
        { Frame.refl .setmode s with
          mode := fun hn => absurd (by decide) hn
          link := (setPins_unsampled s.params _ _ s.link).trans (settle_passive s.params l).unsampled }
      exact .raise (driven.recordMode _ _) fun hw => ne_timeout_of_success (settle_unwired hw l)

theorem execGetmode_answers : Answers .getmode s (execGetmode s) :=
  .raiseFixed { Frame.refl .getmode s with result := fun hn => absurd (by decide) hn } (by decide)

/-! ## Sends -/

theorem sendFrame_answers (i : Instr) (bs : List Byte) : Answers i s (sendFrame bs s) :=
  .raise (Frame.withLink (sendStruct_passive _ _ _)) fun hw =>
    ne_timeout_of_success (sendStruct_unwired hw bs s.link)

theorem sendWithin_answers (i : Instr) (limit : Nat) (bs : List Byte) :
    Answers i s (if s.tooBig limit then raise .packetTooBig s else sendFrame bs s) := by
  split
  · exact .unchanged (by decide)
  · exact sendFrame_answers s i bs

theorem execSendcfgmsg_answers : Answers .sendcfgmsg s (execSendcfgmsg s) := by
  unfold execSendcfgmsg
  split
  · exact .unchanged (by decide)
  · exact .raiseFixed (Frame.withLink (txWrite_passive _ _ _)) (by decide)

/-! ## Waits and the FIFO -/

theorem execWaitcomplete_answers : Answers .waitcomplete s (execWaitcomplete s) := by
  unfold execWaitcomplete
  split
  · exact .unchanged (by decide)
  · exact .raise (Frame.withLink (waitComplete_passive _ _ _ _)) fun hw =>
      ne_timeout_of_success (waitComplete_unwired hw s.argt s.argp s.link)

theorem execDrain_answers : Answers .drain s (execDrain s) :=
  .raiseFixed (Frame.withLink (rxClear_passive _ _)) (by decide)

theorem execAvailable_answers : Answers .available s (execAvailable s) :=
  .raiseFixed
    { Frame.withLink (i := .available) ((point_flow s.params s.link).passive fun _ => rfl) with
      result := fun hn => absurd (by decide) hn }
    (by decide)

/-! ## Receives -/

theorem execRecvstruct_answers : Answers .recvstruct s (execRecvstruct s) := by
  unfold execRecvstruct
  split_ifs
  · exact .unchanged (by decide)
  · exact .unchanged (by decide)
  · rw [receiveStruct_eq]
    exact .raiseFixed ((Frame.withLink (readExactly_passive _ _ _ _)).received (by decide) _ _)
      (headStatus_ne_timeout _ _ _ (by decide))

theorem execRecvmsg_answers : Answers .recvmsg s (execRecvmsg s) := by
  unfold execRecvmsg
  split_ifs
  · exact .unchanged (by decide)
  · have frame : Frame .recvmsg s _ :=
      Frame.withLink (readExactly_passive s.params s.arg0.toNat s.params.tReadTimeout s.link)
    exact .raiseFixed ((frame.clearRssi (by decide)).received (by decide) _ _) (readStatus_ne_timeout _ _)

theorem execRecvmsgrssi_answers : Answers .recvmsgrssi s (execRecvmsgrssi s) := by
  unfold execRecvmsgrssi
  split_ifs
  · exact .unchanged (by decide)
  · have frame : Frame .recvmsgrssi s _ :=
      Frame.withLink (readExactly_passive s.params (s.arg0.toNat + 1) s.params.tReadTimeout s.link)
    exact .raiseFixed ((frame.clearRssi (by decide)).receivedRssi (by decide) (by decide) (by decide) _ _)
      (shortRead_ne_timeout _ _)

theorem execRecvcomplete_answers : Answers .recvcomplete s (execRecvcomplete s) := by
  unfold execRecvcomplete
  split_ifs
  · exact .unchanged (by decide)
  · have frame : Frame .recvcomplete s _ :=
      (Frame.withLink (completeLoop_passive s.params (s.arg0.toNat + s.rssiFlag.toNat) s.link)).clearRssi (by decide)
    dsimp only
    split_ifs
    · exact .raiseFixed (frame.failReceive (by decide)) (by decide)
    · exact .raiseFixed ((frame.deliver (by decide) _).setRssi (by decide) (by decide) _) (by decide)
    · exact .raiseFixed (frame.deliver (by decide) _) (by decide)

theorem execRecvuntil_answers : Answers .recvuntil s (execRecvuntil s) :=
  ⟨_, _, rfl, ((Frame.withLink (untilLoop_passive _ _ _ _)).clearRssi (by decide)).deliver (by decide) _, fun _ _ => rfl⟩

/-! ## Local configuration commands -/

theorem localExchange_answers {i : Instr} (hi : i ∈ commandsWriting 12) (req : List Byte) (n : Nat) {m : Status}
    (hm : m ≠ .timeout) {store : List Byte → State → State} (hstore : ∀ bs t, Frame i s t → Frame i s (store bs t)) :
    Answers i s (localExchange req n m store s) := by
  unfold localExchange
  split
  · exact .unchanged (by decide)
  · have frame := (Frame.withLink (i := i) (exchange_passive s.params req n m s.link)).received hi
      (exchange s.params req n m s.link).1 (exchange s.params req n m s.link).2.1
    refine .raise ?_ fun hw => exchange_unwired hw req n hm s.link
    split
    · exact hstore _ _ frame
    · exact frame

theorem execGetcfg_answers : Answers .getcfg s (execGetcfg s) :=
  localExchange_answers s (by decide) _ _ (by decide) fun _ _ h =>
    { h with
      cfgHdr := fun hn => absurd (by decide) hn
      cfgAddr := fun hn => absurd (by decide) hn
      cfg := fun hn => absurd (by decide) hn }

theorem execGetinfo_answers : Answers .getinfo s (execGetinfo s) :=
  localExchange_answers s (by decide) _ _ (by decide) fun _ _ h => { h with info := fun hn => absurd (by decide) hn }

theorem execSetcfg_answers : Answers .setcfg s (execSetcfg s) := by
  unfold execSetcfg
  split
  · exact .unchanged (by decide)
  · exact localExchange_answers s (by decide) _ _ (by decide) fun _ _ h => h

theorem execReadreg_answers : Answers .readreg s (execReadreg s) := by
  unfold execReadreg
  split
  · exact .unchanged (by decide)
  · exact localExchange_answers s (by decide) _ _ (by decide) fun _ _ h => h.storeWindow (by decide) _ _

theorem execWritereg_answers : Answers .writereg s (execWritereg s) := by
  unfold execWritereg
  split
  · exact .unchanged (by decide)
  · split
    · exact .unchanged (by decide)
    · exact localExchange_answers s (by decide) _ _ (by decide) fun _ _ h => h

/-! ## The dispatch -/

/-- Whatever a write of `CMD` starts answers within its frame. -/
theorem exec_answers {i : Instr} (h : i.port = .cmd) : Answers i s (exec i s) := by
  cases i with
  | enccfg => exact execEnccfg_answers s
  | deccfg => exact execDeccfg_answers s
  | encreg => exact execEncreg_answers s
  | decreg => exact execDecreg_answers s
  | decinfo => exact execDecinfo_answers s
  | setmode => exact execSetmode_answers s
  | getmode => exact execGetmode_answers s
  | sendstruct => exact sendWithin_answers s _ _ _
  | recvstruct => exact execRecvstruct_answers s
  | waitcomplete => exact execWaitcomplete_answers s
  | drain => exact execDrain_answers s
  | sendmsg => exact sendWithin_answers s _ _ _
  | sendfixed => exact sendWithin_answers s _ _ _
  | sendbcast => exact sendWithin_answers s _ _ _
  | recvmsg => exact execRecvmsg_answers s
  | recvmsgrssi => exact execRecvmsgrssi_answers s
  | recvcomplete => exact execRecvcomplete_answers s
  | recvuntil => exact execRecvuntil_answers s
  | available => exact execAvailable_answers s
  | getcfg => exact execGetcfg_answers s
  | setcfg => exact execSetcfg_answers s
  | getinfo => exact execGetinfo_answers s
  | resetmod => exact .unchanged (by decide)
  | sendcfgmsg => exact execSendcfgmsg_answers s
  | readreg => exact execReadreg_answers s
  | writereg => exact execWritereg_answers s
  | reserved op => exact .unchanged (by decide)
  | _ => cases h

/-- A command that answers a next state has completed, within its frame. -/
theorem exec_next {i : Instr} {s t : State} (hi : i.port = .cmd) (h : exec i s = .next t) :
    t.busy = 0#1 ∧ t.seq = .idle ∧ Frame i s t ∧ (s.params.auxWired = false → t.status = .timeout → i = .recvuntil) := by
  obtain ⟨st, u, ha, frame, hst⟩ := exec_answers s hi
  cases ha.symm.trans h
  exact ⟨rfl, rfl, frame.completed st, hst⟩

theorem isCommand_port {i : Instr} (h : i.isCommand = true) : i.port = .cmd := beq_iff_eq.mp h

/-- Settles O55: the clauses of `Frame` are those of the statement, its lists being rows of `commandsWriting`. -/
theorem commandsWriteOnlyTheRegistersNamedForThem : Obligations.CommandsWriteOnlyTheRegistersNamedForThem := by
  intro i s t hi h
  obtain ⟨hbusy, hseq, f, -⟩ := exec_next (isCommand_port hi) h
  refine ⟨⟨hbusy, hseq, f.cmd, f.arg0, f.arg1, f.arg2, f.arg3, f.argt, f.argp, f.linkBaud, f.params, f.sched, f.reads⟩,
    f.mode, f.result, fun hn => ?_, fun hn => ?_, f.rssi, f.rssiValid, f.cfgHdr, f.cfgAddr, f.cfg, f.info⟩
  · obtain ⟨hdlen, htbuf⟩ := f.dlen hn
    exact ⟨hdlen, fun _ => by rw [htbuf]⟩
  · obtain ⟨hrlen, hrbuf⟩ := f.rlen hn
    exact ⟨hrlen, fun _ => by rw [hrbuf]⟩

/-- Settles O57. -/
theorem unwiredAuxIsNeverSampled : Obligations.UnwiredAuxIsNeverSampled := by
  intro i s t hi hw h
  obtain ⟨-, -, frame, hst⟩ := exec_next (isCommand_port hi) h
  exact ⟨frame.link hw, hst hw⟩

/-! ## Steps -/

/-- Within a command's frame a register keeps its value, but `STATUS`, `BUSY` and those R26 names the command for. -/
theorem Frame.readReg {i : Instr} {s t : State} (f : Frame i s t) {r : Nat} (h1 : r ≠ 1) (h2 : r ≠ 2)
    (hi : i ∉ commandsWriting r) : t.readReg r = s.readReg r := by
  unfold State.readReg
  split
  case h_1 => exact absurd rfl h1
  case h_2 => exact absurd rfl h2
  case h_3 => rw [(f.mode hi).1]
  case h_4 => rw [f.result hi]
  case h_5 => rw [f.arg0]
  case h_6 => rw [f.arg1]
  case h_7 => rw [f.arg2]
  case h_8 => rw [f.arg3]
  case h_9 => exact f.argt
  case h_10 => exact f.argp
  case h_11 => rw [(f.dlen hi).1]
  case h_12 => rw [(f.rlen hi).1]
  case h_13 => rw [f.rssi hi]
  case h_14 => rw [f.rssiValid hi]
  case h_15 | h_16 | h_17 => rw [f.cfgHdr hi]
  case h_18 => rw [(f.cfgAddr hi).1]
  case h_19 => rw [(f.cfgAddr hi).2]
  case h_33 | h_34 | h_35 | h_36 | h_37 | h_38 => rw [f.info hi]
  case h_39 => rfl
  all_goals rw [f.cfg hi]

/-- A host write of a register changes that register at most, and a write of `CMD` changes `BUSY` (R27, R51). -/
theorem writeReg_changes (s : State) {k v r : Nat} (hr : (s.writeReg k v).readReg r ≠ s.readReg r) :
    k = r ∧ r ∈ (writableRegisters s.params.tw).map Prod.fst ∨ k = 0 ∧ r = 2 := by
  by_cases hcmd : k = 0 ∧ r = 2
  · exact .inr hcmd
  · have same : r = k := by_contra fun hne => hr (readReg_writeReg_other s k v hne hcmd)
    subst same
    refine .inl ⟨rfl, by_contra fun hm => ?_⟩
    by_cases h0 : r = 0
    · subst h0
      exact hr rfl
    · exact hr (by rw [writeReg_ignored s h0 hm])

/-- A host access in IDLE that changes a register is a write: of that register, or for `BUSY` of `CMD`. -/
theorem hostAccess_readReg {a : HostAct} {u t : State} {r : Nat} (h : hostAccess a u = .next t)
    (hr : t.readReg r ≠ u.readReg r) : ∃ k v, a = .write (.reg k) v ∧
      (k = r ∧ r ∈ (writableRegisters u.params.tw).map Prod.fst ∨ k = 0 ∧ r = 2) := by
  by_cases ha : a.loc.present = true
  · cases a with
    | read l =>
      cases l with
      | reg k =>
        cases h
        exact absurd (readReg_noteRead _ _ _ _) hr
      | tbuf j | rbuf j =>
        cases (if_pos (of_decide_eq_true ha)).symm.trans h
        exact absurd (readReg_noteRead _ _ _ _) hr
    | write l v =>
      cases l with
      | reg k =>
        cases h
        exact ⟨k, v, rfl, writeReg_changes u hr⟩
      | tbuf j | rbuf j =>
        cases (if_pos (of_decide_eq_true ha)).symm.trans h
        exact absurd rfl hr
  · rw [hostAccess_absent u ha] at h
    cases h

/-- While a command runs a host access reaches no register (R50). -/
theorem hostDuring_readReg {a : HostAct} {s t : State} (h : hostDuring a s = .next t) (r : Nat) :
    t.readReg r = s.readReg r := by
  unfold hostDuring at h
  split at h <;> cases h
  rfl

/-- An arrival changes the link only (R71). -/
theorem runItem_withLink {p : Port} {bs : List Byte} {s t : State} (h : runItem p bs s = .next t) :
    ∃ l, t = s.withLink l := by
  cases hd : decode p bs with
  | error e => rw [runItem_undecodable hd] at h; cases h
  | ok i =>
    by_cases hi : i.fromDevice = true
    · rw [runItem_arrives hd hi, exec_fromDevice s hi] at h
      cases h
      exact ⟨_, rfl⟩
    · by_cases hne : i = .cmdSpecialExtended
      · subst hne
        rw [runItem_special hd] at h
        cases h
      · rw [runItem_notAnItem hd (by simpa using hi) hne] at h
        cases h

/-- A step in RUN changes `STATUS`, `BUSY` and the registers R26 names the running command for. -/
theorem stepRun_readReg {s t : State} {r : Nat} (hseq : s.seq = .run) (h : step s = .next t)
    (hr : t.readReg r ≠ s.readReg r) : r = 1 ∨ r = 2 ∨ decodeOpcode s.cmd ∈ commandsWriting r := by
  rcases undisturbed_or_hostNow s with hu | ⟨a, rest, hs⟩
  · rw [step_command hseq hu] at h
    obtain ⟨-, -, frame, -⟩ := exec_next (decodeOpcode_port s.cmd) h
    by_contra hn
    push Not at hn
    obtain ⟨h1, h2, hi⟩ := hn
    exact hr (frame.readReg h1 h2 hi)
  · rw [step_run hseq, stepRun_hostNow hs] at h
    exact absurd (hostDuring_readReg h r) hr

/-- A step in IDLE changes a register by a host write only. -/
theorem stepIdle_readReg {s t : State} {r : Nat} (h : stepIdle s = .next t) (hr : t.readReg r ≠ s.readReg r) :
    ∃ (k v : Nat) (rest : List Move),
      (s.sched = .host (.write (.reg k) v) :: rest ∨ s.sched = .hostNow (.write (.reg k) v) :: rest) ∧
      (k = r ∧ r ∈ (writableRegisters s.params.tw).map Prod.fst ∨ k = 0 ∧ r = 2) := by
  have access {a : HostAct} {rest : List Move} (hs : s.sched = .host a :: rest ∨ s.sched = .hostNow a :: rest) :
      ∃ k v, a = .write (.reg k) v ∧
        (k = r ∧ r ∈ (writableRegisters s.params.tw).map Prod.fst ∨ k = 0 ∧ r = 2) := by
    rw [stepIdle_host hs] at h
    exact hostAccess_readReg (u := (s.withSched rest).withLink (s.link.point s.params)) h hr
  cases hs : s.sched with
  | nil =>
    rw [stepIdle_nil hs] at h
    cases h
    exact absurd (readReg_withLink _ _ _) hr
  | cons m rest =>
    cases m with
    | host a =>
      obtain ⟨k, v, rfl, reached⟩ := access (.inl hs)
      exact ⟨k, v, rest, .inl rfl, reached⟩
    | hostNow a =>
      obtain ⟨k, v, rfl, reached⟩ := access (.inr hs)
      exact ⟨k, v, rest, .inr rfl, reached⟩
    | linkBaud n =>
      rw [stepIdle_linkBaud hs] at h
      cases h
      exact absurd rfl hr
    | wire p bs =>
      rw [stepIdle_wire hs] at h
      obtain ⟨l, rfl⟩ := runItem_withLink h
      exact absurd (readReg_withLink (s.withSched rest) l r) hr

/-- Settles O60. -/
theorem registersAreReachedByHostAndNamedCommandsOnly : Obligations.RegistersAreReachedByHostAndNamedCommandsOnly := by
  intro s t r h hr
  cases hseq : s.seq with
  | idle => exact .inl ⟨rfl, stepIdle_readReg (step_idle hseq ▸ h) hr⟩
  | run => exact .inr ⟨rfl, stepRun_readReg hseq h hr⟩

end Sys2Proof.Machine
end

section
/-! PROOFS. What leaves and reaches the UPC on the link (spec/20_memory.md R64 to R77): the sends and the frames to the
device, the frames from it, the discard of the FIFO, and the two mode pins. Each is stated as the whole next state. -/

namespace Sys2Proof.Machine

/-! ## The completion wait -/

/-- A wait with AUX unwired, or ready throughout, succeeds: it samples nothing, or once (R146). -/
theorem WaitOutcome.ready {p : Params} {T P : Nat} {l l' : Link} {before : List Obs} {vs : List Bool} {st : Status}
    (h : WaitOutcome p T P l l' before vs st) (hr : p.auxWired = true → l.auxHolds true = true) :
    st = .success ∧ vs = if p.auxWired then [true] else [] := by
  obtain ⟨-, -, -, -, -, -, unwired, wired⟩ := h
  cases hw : p.auxWired with
  | false =>
    obtain ⟨hvs, hst, -⟩ := unwired hw
    exact ⟨hst, hvs⟩
  | true =>
    obtain ⟨-, -, hst, -, -, hvs, -⟩ := wired hw
    have one : vs = [true] := hvs (hr hw)
    subst one
    exact ⟨hst, rfl⟩

/-! ## Sends (R148, R152, R162 to R165) -/

variable (s : State)

/-- The next state of a `SendStruct`: the bytes, then the completion wait, which decides the status (R148). -/
theorem sendFrame_outcome (bs : List Byte) (hP : 1 ≤ s.params.tPoll) : ∃ (l : Link) (vs : List Bool) (st : Status),
    WaitOutcome s.params s.params.tRespTimeout s.params.tPoll s.link l (bs.map .tx) vs st ∧
    sendFrame bs s = .next { s with link := l, status := st, busy := 0#1, seq := .idle } := by
  obtain ⟨vs, outcome⟩ := sendStruct_outcome s.params bs s.link hP
  exact ⟨_, vs, _, outcome, rfl⟩

theorem txPayload_eq : s.txPayload = (List.range s.dlen.toNat).map s.tbuf.read := Memory.readBytes_zero _ _

variable {s}

/-- The four sends are one command at the limit and the frame of their row (R162). -/
theorem exec_send {i : Instr} {limit : Nat} {frame : List Byte} (h : sendTable i s = some (limit, frame)) :
    exec i s = if s.tooBig limit then raise .packetTooBig s else sendFrame frame s := by
  cases i with
  | sendstruct | sendmsg | sendfixed | sendbcast =>
    simp only [sendTable, ← txPayload_eq, Option.some.injEq, Prod.mk.injEq] at h
    obtain ⟨rfl, rfl⟩ := h
    rfl
  | _ => cases h

/-- Settles O31. -/
theorem sendsTransmitOneWholeFrameThenWait : Obligations.SendsTransmitOneWholeFrameThenWait := by
  intro i s limit frame h hP
  rw [exec_send h]
  refine ⟨fun hbig => ?_, fun hfits => ?_⟩
  · rw [if_pos ((s.tooBig_iff limit).mpr hbig)]
    rfl
  · rw [if_neg fun hbig => Nat.not_lt.mpr hfits ((s.tooBig_iff limit).mp hbig)]
    exact sendFrame_outcome s frame hP

/-- Settles O32. -/
theorem drainEmptiesTheFifo : Obligations.DrainEmptiesTheFifo := by
  intro s
  obtain ⟨hrx, hhist, hm0, hm1, hticks, -⟩ := rxClear_spec s.params s.link
  exact ⟨_, hrx, hhist, hm0, hm1, hticks, rfl⟩

/-! ## Frames to the device (R148, R163 to R165, R185) -/

/-- A frame to the device that is no remote configuration is sent whole, or refused for its payload's length. -/
theorem exec_toDevice {i : Instr} (hi : i.toDevice = true) (hr : ∀ h l c q body, i ≠ .msgRemoteCfg h l c q body) :
    exec i s = if i.wf = true then sendFrame (encode i) s else raise .packetTooBig s := by
  have message (limit : Nat) (payload frame : List Byte) : sendMessage limit payload frame s =
      if decide (payload.length ≤ limit) = true then sendFrame frame s else raise .packetTooBig s := by
    simp only [sendMessage, decide_eq_true_eq, ← Nat.not_lt, ite_not]
  cases i with
  | cfgReadReq | cfgWriteReq | infoReadReq | regReadReqSpeed | regWriteReqSpeed | regReadReqOption | regWriteReqOption
  | regReadReqChannel | regWriteReqChannel | regReadReqCrypt | regWriteReqCrypt | regReadReqTransmode
  | regWriteReqTransmode => rfl
  | msgTransparent | msgFixed | msgBcast => exact message _ _ _
  | msgRemoteCfg h l c q body => exact absurd rfl (hr h l c q body)
  | _ => cases hi

/-- The remote configuration message is transmitted and not waited for (R185). -/
theorem exec_msgRemoteCfg (h l c : Byte) (q : ProgCmd) (body : CfgBody) : exec (.msgRemoteCfg h l c q body) s =
    raise .success (s.withLink (s.link.txWrite s.params (encode (.msgRemoteCfg h l c q body)))) := rfl

/-- Settles O48. -/
theorem framesToTheDeviceAreTransmitted : Obligations.FramesToTheDeviceAreTransmitted := by
  intro i s hi hP
  refine ⟨fun hw hr => ?_, ?_, fun hw => ?_⟩
  · rw [exec_toDevice hi hr, if_pos hw]
    exact sendFrame_outcome s _ hP
  · rintro ⟨h, l, c, q, body, rfl⟩
    have f := txWrite_flow s.params (encode (.msgRemoteCfg h l c q body)) s.link
    obtain ⟨extra, hrx, -⟩ := f.rx
    rw [taken_map_tx, List.nil_append] at hrx
    exact ⟨_, f.hist, ⟨extra, hrx⟩, f.m0, f.m1, Nat.le_antisymm f.ticks f.ticksLow, exec_msgRemoteCfg h l c q body⟩
  · have hr : ∀ h l c q body, i ≠ .msgRemoteCfg h l c q body := by
      rintro h l c q body rfl
      cases hw
    rw [exec_toDevice hi hr, if_neg (Bool.eq_false_iff.mp hw)]
    rfl

/-! ## Frames from the device (R71) -/

/-- Into an unbounded FIFO every byte arrives. -/
theorem foldl_arrive_unbounded {p : Params} (hp : p.rxDepth = none) (bs : List Byte) (l : Link) :
    bs.foldl (Link.arrive p) l = { l with rxfifo := l.rxfifo ++ bs } := by
  induction bs generalizing l with
  | nil => rw [List.append_nil]; rfl
  | cons b bs ih =>
    have arrived : l.arrive p b = { l with rxfifo := l.rxfifo ++ [b] } := by
      simp only [Link.arrive, Params.hasRoom, hp, if_true]
    rw [List.foldl_cons, arrived, ih, List.append_assoc, List.singleton_append]

/-- Into a FIFO of `d` bytes as many arrive as still fit, the later ones being lost. -/
theorem foldl_arrive_bounded {p : Params} {d : Nat} (hp : p.rxDepth = some d) (bs : List Byte) (l : Link) :
    bs.foldl (Link.arrive p) l = { l with rxfifo := l.rxfifo ++ bs.take (d - l.rxfifo.length) } := by
  induction bs generalizing l with
  | nil => rw [List.take_nil, List.append_nil]; rfl
  | cons b bs ih =>
    rw [List.foldl_cons, ih]
    by_cases hroom : l.rxfifo.length < d
    · have arrived : l.arrive p b = { l with rxfifo := l.rxfifo ++ [b] } := by
        simp only [Link.arrive, Params.hasRoom, hp, hroom, decide_true, if_true]
      obtain ⟨k, hk⟩ := Nat.exists_eq_add_of_lt hroom
      have left : d - l.rxfifo.length = k + 1 := by omega
      have left' : d - (l.rxfifo ++ [b]).length = k := by simp only [List.length_append, List.length_singleton]; omega
      rw [arrived, left, List.take_succ_cons, left', List.append_assoc, List.singleton_append]
    · have lost : l.arrive p b = l := by
        simp only [Link.arrive, Params.hasRoom, hp, hroom, decide_false, Bool.false_eq_true, if_false]
      have full : d - l.rxfifo.length = 0 := by omega
      rw [lost, full, List.take_zero, List.take_zero]

/-- Settles O49. -/
theorem framesFromTheDeviceArrive : Obligations.FramesFromTheDeviceArrive := by
  intro i s hi
  rw [exec_fromDevice s hi, arriveAll]
  cases hp : s.params.rxDepth with
  | none => rw [foldl_arrive_unbounded hp]; rfl
  | some d => rw [foldl_arrive_bounded hp]; rfl

/-! ## The mode pins (R106, R135, R136) -/

/-- Settling is a completion wait, of the settle timeout when AUX is wired and of the fixed delay when not (conflict C8). -/
theorem settle_eq (p : Params) (l : Link) :
    settle p l = waitComplete p (if p.auxWired then p.tSettleTimeout else p.tSettleDelay) p.tPoll l := by
  unfold settle waitComplete
  cases p.auxWired <;> rfl

theorem State.recordMode_eq (st : Status) (m : Mode) (s : State) :
    s.recordMode st m = { s with mode := if st = .success then m else s.mode } := by
  unfold State.recordMode
  split <;> rfl

/-- A request of Configuration mode at another link speed drives nothing (R136). -/
theorem setModeTo_wrongBaud {t : Byte} (ht : requestableMode t = some .configuration) (hb : s.linkBaud ≠ 9600) :
    setModeTo t s = .next { s with status := .wrongUartConfig, busy := 0#1, seq := .idle } := by
  simp only [setModeTo, ht]
  rw [if_pos ⟨trivial, hb⟩]
  rfl

/-- Any other request drives M0, then M1, settles, and records the mode if that succeeds (R135 to R137). -/
theorem setModeTo_drives {t : Byte} {m : Mode} (ht : requestableMode t = some m)
    (hb : m = .configuration → s.linkBaud = 9600) (hP : 1 ≤ s.params.tPoll) :
    ∃ (l1 l : Link) (vs : List Bool) (st : Status),
      l1.m0 = pinM0Of t ∧ l1.m1 = pinM1Of t ∧ l1.hist = s.link.hist ++ [.pinM0 (pinM0Of t), .pinM1 (pinM1Of t)] ∧
      l1.ticks = s.link.ticks ∧ (∃ extra, l1.rxfifo = s.link.rxfifo ++ extra) ∧
      WaitOutcome s.params (if s.params.auxWired then s.params.tSettleTimeout else s.params.tSettleDelay)
        s.params.tPoll l1 l [] vs st ∧
      ((s.params.auxWired = true → s.link.auxHolds true = true) → st = .success) ∧
      setModeTo t s = .next { s with
        link := l, mode := if st = .success then m else s.mode, status := st, busy := 0#1, seq := .idle } := by
  obtain ⟨hm0, hm1, hhist, hticks, -, hrx, -, haux⟩ := setPins_spec s.params (pinM0Of t) (pinM1Of t) s.link
  obtain ⟨vs, outcome⟩ := waitComplete_outcome s.params
    (if s.params.auxWired then s.params.tSettleTimeout else s.params.tSettleDelay) s.params.tPoll
    (s.link.setPins s.params (pinM0Of t) (pinM1Of t)) hP
  refine ⟨_, _, vs, _, hm0, hm1, hhist, hticks, hrx, outcome,
    fun hr => (outcome.ready fun hw => haux true (hr hw)).1, ?_⟩
  simp only [setModeTo, ht]
  rw [if_neg fun hn => hn.2 (hb hn.1), settle_eq, State.recordMode_eq]
  rfl

/-- The mode a mode code requests has that code (R88). -/
theorem requestableMode_code {t : Byte} {m : Mode} (h : requestableMode t = some m) : t.toNat = m.code.toNat := by
  unfold requestableMode at h
  split_ifs at h with h0 h1 h2 h3
  all_goals
    cases h
    subst t
    rfl

/-- What a pin-pair row is: the SETMODE of a mode code, which drives the row's levels (R106). -/
theorem pinPair_code {i : Instr} {m : Mode} {v0 v1 : BitVec 1}
    (h : (i, m, v0, v1) ∈ [(Instr.modeNormal, Mode.normal, 0#1, 0#1), (Instr.modeWorTx, Mode.worTransmitter, 1#1, 0#1),
      (Instr.modeWorRx, Mode.worReceiver, 0#1, 1#1), (Instr.modeConfiguration, Mode.configuration, 1#1, 1#1)]) :
    ∃ t : Byte, exec i = setModeTo t ∧ requestableMode t = some m ∧ pinM0Of t = v0 ∧ pinM1Of t = v1 := by
  simp only [List.mem_cons, List.not_mem_nil, or_false, Prod.mk.injEq] at h
  rcases h with ⟨rfl, rfl, rfl, rfl⟩ | ⟨rfl, rfl, rfl, rfl⟩ | ⟨rfl, rfl, rfl, rfl⟩ | ⟨rfl, rfl, rfl, rfl⟩
  · exact ⟨0#8, rfl, rfl, rfl, rfl⟩
  · exact ⟨1#8, rfl, rfl, rfl, rfl⟩
  · exact ⟨2#8, rfl, rfl, rfl, rfl⟩
  · exact ⟨3#8, rfl, rfl, rfl, rfl⟩

/-- Settles O50. -/
theorem pinPairsDriveBothPins : Obligations.PinPairsDriveBothPins := by
  intro s i m v0 v1 hrow hP
  obtain ⟨t, he, ht, rfl, rfl⟩ := pinPair_code hrow
  rw [he]
  refine ⟨fun hm hb => ?_, fun hb => setModeTo_drives ht hb hP, fun harg => ?_⟩
  · subst hm
    exact setModeTo_wrongBaud ht hb
  · have target : s.arg0 = t := BitVec.eq_of_toNat_eq (harg.trans (requestableMode_code ht).symm)
    have same : setModeTo t s = exec .setmode s := target ▸ rfl
    refine ⟨same, fun hseq hu hcmd => ?_⟩
    rw [step_command hseq hu, hcmd, same]
    rfl

end Sys2Proof.Machine
end

section
/-! PROOFS. The local configuration commands (spec/44_config.md R180 to R188) as the table `localRequest` writes them: each
is one `localExchange` of its row, and what it stores are the row's fields. -/

namespace Sys2Proof.Machine

/-! ## The packed bytes, side by side and by division (R100 to R102) -/

theorem packSped_eq_append (b : BitVec 3) (p : BitVec 2) (a : BitVec 3) : packSped b p a = b ++ p ++ a := by
  revert b p a; decide

theorem packOption_eq_append (k : BitVec 2) (n : Bit) (w : BitVec 2) :
    packOption k n w = k ++ n ++ (0#3 : BitVec 3) ++ w := by
  revert k n w; decide

theorem packTransmode_eq_append (r f t : Bit) (k : BitVec 3) :
    packTransmode r f t k = r ++ f ++ (0#1 : BitVec 1) ++ t ++ (0#1 : BitVec 1) ++ k := by
  revert r f t k; decide

theorem encodeBody_eq_wire (c : CfgBody) : encodeBody c = c.wire := by
  simp only [encodeBody, packBody, BodyBytes.toList, packSped_eq_append, packOption_eq_append, packTransmode_eq_append]
  rfl

/-- A field of a packed byte is a quotient of its number. -/
theorem extractLsb'_eq_ofNat_div (x : Byte) (k n : Nat) : x.extractLsb' k n = BitVec.ofNat n (x.toNat / 2 ^ k) := by
  rw [BitVec.extractLsb', Nat.shiftRight_eq_div_pow]

theorem unpackSped_eq (x : Byte) (c : CfgBody) : unpackSped x c = c.withWindow 1 (fun _ => x) := by
  simp [unpackSped, CfgBody.withWindow, spedBaud, spedParity, spedAirrate, extractLsb'_eq_ofNat_div]

theorem unpackOption_eq (x : Byte) (c : CfgBody) : unpackOption x c = c.withWindow 2 (fun _ => x) := by
  simp [unpackOption, CfgBody.withWindow, optionSubpkt, optionNoise, optionPower, extractLsb'_eq_ofNat_div]

theorem unpackTransmode_eq (x : Byte) (c : CfgBody) : unpackTransmode x c = c.withWindow 5 (fun _ => x) := by
  simp [unpackTransmode, CfgBody.withWindow, transmodeRssiEn, transmodeFixed, transmodeLbt, transmodeWor,
    extractLsb'_eq_ofNat_div]

/-- A decoded body has the fields of its bytes (R124). -/
theorem unpackBody_eq (b : BodyBytes) : unpackBody b = CfgBody.ofWire (fun k => b.toList.getD k 0#8) := by
  simp [unpackBody, CfgBody.ofWire, BodyBytes.toList, spedBaud, spedParity, spedAirrate, optionSubpkt, optionNoise,
    optionPower, transmodeRssiEn, transmodeFixed, transmodeLbt, transmodeWor, extractLsb'_eq_ofNat_div]

/-! ## Window codes and save types (R89, R90) -/

/-- A byte is one of the five window codes, or names no window. -/
theorem windowOf_cases (x : Byte) :
    x = 1#8 ∨ x = 2#8 ∨ x = 3#8 ∨ x = 4#8 ∨ x = 5#8 ∨
    windowOf x = none ∧ x ≠ 1#8 ∧ x ≠ 2#8 ∧ x ≠ 3#8 ∧ x ≠ 4#8 ∧ x ≠ 5#8 := by
  unfold windowOf
  split_ifs with h1 h2 h3 h4 h5
  all_goals simp [*]

/-- A save type is named by its own code, and by no other byte. -/
theorem saveTypeOf_cases (x : Byte) :
    (x = 0xC0#8 ∨ x = 0xC2#8) ∧ (∃ v, saveTypeOf x = some v ∧ v.code = x) ∨
    ¬ (x = 0xC0#8 ∨ x = 0xC2#8) ∧ saveTypeOf x = none := by
  by_cases h0 : x = 0xC0#8
  · subst h0
    exact .inl ⟨.inl rfl, .persistent, rfl, rfl⟩
  · by_cases h2 : x = 0xC2#8
    · subst h2
      exact .inl ⟨.inr rfl, .volatile, rfl, rfl⟩
    · exact .inr ⟨not_or.mpr ⟨h0, h2⟩, (if_neg h0).trans (if_neg h2)⟩

/-! ## The commands as rows of `localRequest` -/

variable {i : Instr} {s : State} {req resp : List Byte} {n : Nat} {m : Status}

/-- What Success adds to the delivered response (R181 to R183, R186, R187). -/
def localStore (i : Instr) (s : State) : List Byte → State → State :=
  match i with
  | .getcfg => storeFull
  | .getinfo => storeInfo
  | .readreg => (windowOf s.arg0).elim (fun _ t => t) storeWindow
  | _ => fun _ t => t

/-- Instruction `i` at `s` is refused for its operands, or is the exchange of its row in `localRequest`. -/
def LocalCommand (i : Instr) (s : State) : Prop :=
  (localRequest i s = none ∧ exec i s = raise .invalidParameter s) ∨
  ∃ req n m, localRequest i s = some (req, n, m) ∧ exec i s = localExchange req n m (localStore i s) s

theorem setcfg_localCommand (s : State) : LocalCommand .setcfg s := by
  rcases saveTypeOf_cases s.arg0 with ⟨hc, v, hv, hcode⟩ | ⟨hc, hv⟩
  · refine .inr ⟨_, _, _, if_pos hc, ?_⟩
    rw [← encodeBody_eq_wire, ← hcode]
    simp only [exec, execSetcfg, hv]
    rfl
  · refine .inl ⟨if_neg hc, ?_⟩
    simp only [exec, execSetcfg, hv]

theorem readreg_localCommand (s : State) : LocalCommand .readreg s := by
  rcases windowOf_cases s.arg0 with h | h | h | h | h | ⟨hw, h1, h2, h3, h4, h5⟩
  case inr.inr.inr.inr.inr =>
    refine .inl ⟨?_, ?_⟩
    · simp only [localRequest, h1, h2, h3, h4, h5, if_false]
    · simp only [exec, execReadreg, hw]
  all_goals
    refine .inr ⟨_, _, _, by simp only [localRequest, h]; rfl, ?_⟩
    simp only [exec, execReadreg, localStore, h]
    rfl

theorem writereg_localCommand (s : State) : LocalCommand .writereg s := by
  rcases windowOf_cases s.arg0 with h | h | h | h | h | ⟨hw, h1, h2, h3, h4, h5⟩
  case inr.inr.inr.inr.inr =>
    refine .inl ⟨?_, ?_⟩
    · simp only [localRequest, h1, h2, h3, h4, h5, if_false, ite_self]
    · simp only [exec, execWritereg, hw]
  all_goals
    rcases saveTypeOf_cases s.arg1 with ⟨hc, v, hv, hcode⟩ | ⟨hc, hv⟩
    · refine .inr ⟨_, _, _, by simp only [localRequest, hc, if_true, h]; rfl, ?_⟩
      simp only [exec, execWritereg, localStore, h, hv, hcode, windowOf, windowPayload, packSped_eq_append,
        packOption_eq_append, packTransmode_eq_append]
      rfl
    · refine .inl ⟨if_neg hc, ?_⟩
      simp only [exec, execWritereg, h, hv]
      rfl

theorem localCommand_of_mem (hi : i ∈ [Instr.getcfg, .setcfg, .getinfo, .readreg, .writereg]) (s : State) :
    LocalCommand i s := by
  simp only [List.mem_cons, List.not_mem_nil, or_false] at hi
  rcases hi with rfl | rfl | rfl | rfl | rfl
  · exact .inr ⟨_, _, _, rfl, rfl⟩
  · exact setcfg_localCommand s
  · exact .inr ⟨_, _, _, rfl, rfl⟩
  · exact readreg_localCommand s
  · exact writereg_localCommand s

/-- The exchange refuses every mode but Configuration (R180). -/
theorem localExchange_refused {store : List Byte → State → State} (hm : s.mode ≠ .configuration) :
    localExchange req n m store s = raise .notInitialized s := if_pos hm

/-- Settles O42. -/
theorem localConfigurationChecksOperandsThenMode : Obligations.LocalConfigurationChecksOperandsThenMode := by
  intro i s hi
  rcases localCommand_of_mem hi s with ⟨hr, he⟩ | ⟨req, n, m, hr, he⟩
  · exact ⟨fun _ => he, fun hn => absurd hr hn⟩
  · exact ⟨fun hn => by simp [hr] at hn, fun _ hm => he.trans (localExchange_refused hm)⟩

/-! ## What Success stores -/

theorem getD_drop_add (bs : List Byte) (j k : Nat) : (bs.drop j).getD k 0#8 = bs.getD (j + k) 0#8 := by
  simp only [List.getD_eq_getElem?_getD, List.getElem?_drop]

/-- A body of eight bytes decodes to the fields of its bytes (R124). -/
theorem decodeBody_eq {bs : List Byte} (h : bs.length = 8) (c : CfgBody) :
    decodeBody bs c = CfgBody.ofWire (fun k => bs.getD k 0#8) := by
  match bs, h with
  | [h, l, s, o, c, t, x, y], _ => exact unpackBody_eq ⟨h, l, s, o, c, t, x, y⟩

/-- The header is the first three bytes (R92). -/
theorem headerOf_eq {bs : List Byte} (h : 3 ≤ bs.length) (old : Header) :
    headerOf bs old = ⟨bs.getD 0 0#8, bs.getD 1 0#8, bs.getD 2 0#8⟩ := by
  match bs, h with
  | _ :: _ :: _ :: _, _ => rfl

/-- The identity block is its six bytes in order (R183). -/
theorem infoOf_eq {bs : List Byte} (h : bs.length = 6) (old : ModuleInfo) :
    infoOf bs old = ⟨⟨bs.getD 0 0#8, bs.getD 1 0#8, bs.getD 2 0#8⟩, bs.getD 3 0#8, bs.getD 4 0#8, bs.getD 5 0#8⟩ := by
  match bs, h with
  | [_, _, _, _, _, _], _ => rfl

/-- A window's payload stores the window's fields (R127). -/
theorem windowStore_eq {x : Byte} {w : Window} (hw : windowOf x = some w) {bs : List Byte} (h : bs.length = w.len)
    (c : CfgBody) : windowStore w bs c = c.withWindow x.toNat (fun k => bs.getD k 0#8) := by
  rcases windowOf_cases x with rfl | rfl | rfl | rfl | rfl | ⟨hn, -⟩
  · cases hw
    match bs, h with | [b], _ => exact unpackSped_eq b c
  · cases hw
    match bs, h with | [b], _ => exact unpackOption_eq b c
  · cases hw
    match bs, h with | [_], _ => rfl
  · cases hw
    match bs, h with | [_, _], _ => rfl
  · cases hw
    match bs, h with | [b], _ => exact unpackTransmode_eq b c
  · cases hn.symm.trans hw

/-- A legal READREG names a window, and expects its header and payload (R105, R186). -/
theorem readreg_window (h : localRequest .readreg s = some (req, n, m)) :
    ∃ w, windowOf s.arg0 = some w ∧ n = 3 + w.len := by
  rcases windowOf_cases s.arg0 with hx | hx | hx | hx | hx | ⟨-, h1, h2, h3, h4, h5⟩
  case inr.inr.inr.inr.inr =>
    simp only [localRequest, h1, h2, h3, h4, h5, if_false] at h
    cases h
  all_goals
    rw [hx]
    simp only [localRequest, hx] at h
    cases h
    exact ⟨_, rfl, rfl⟩

/-- What a command stores on Success is what `localStores` lists, every other field staying. -/
theorem localStore_eq (h : localRequest i s = some (req, n, m)) (hl : resp.length = n) {t : State}
    (hhdr : t.cfgHdr = s.cfgHdr) (hcfg : t.cfg = s.cfg) (hinfo : t.info = s.info) :
    localStore i s resp t = { t with
      cfgHdr := (localStores i s (fun k => resp.getD k 0#8)).1
      cfg := (localStores i s (fun k => resp.getD k 0#8)).2.1
      info := (localStores i s (fun k => resp.getD k 0#8)).2.2 } := by
  cases i with
  | getcfg =>
    cases h
    simp only [localStore, localStores, storeFull, headerOf_eq (bs := resp) (by omega),
      decodeBody_eq (bs := resp.drop 3) (by rw [List.length_drop, hl]), getD_drop_add, ← hinfo]
  | getinfo =>
    cases h
    simp only [localStore, localStores, storeInfo, infoOf_eq hl, ← hhdr, ← hcfg]
  | readreg =>
    obtain ⟨w, hw, rfl⟩ := readreg_window h
    simp only [localStore, localStores, hw, Option.elim_some, storeWindow,
      windowStore_eq hw (bs := resp.drop 3) (by rw [List.length_drop, hl, Nat.add_sub_cancel_left]), getD_drop_add, hcfg,
      ← hhdr, ← hinfo]
  | setcfg | writereg =>
    simp only [localStore, localStores, ← hhdr, ← hcfg, ← hinfo]
  | _ => cases h

/-! ## An answered exchange (R147, R149, R151) -/

/-- A FIFO of a legal capacity holds 201 bytes (R7). -/
theorem Params.fits_of_wf {p : Params} (hp : p.wf = true) {k : Nat} (hk : k ≤ 201) : p.fits k = true := by
  simp only [Params.wf, Bool.and_eq_true] at hp
  obtain ⟨-, hdepth⟩ := hp
  unfold Params.fits
  cases hd : p.rxDepth with
  | none => rfl
  | some d =>
    rw [hd] at hdepth
    simp only [decide_eq_true_eq] at hdepth ⊢
    omega

theorem Params.tPoll_pos {p : Params} (hp : p.wf = true) : 1 ≤ p.tPoll := by
  simp only [Params.wf, Bool.and_eq_true, decide_eq_true_eq] at hp
  obtain ⟨⟨⟨⟨hP, -⟩, -⟩, -⟩, -⟩ := hp
  exact hP

/-- Past the clear, the answer of the script is due within its points. -/
theorem answers_due {p : Params} {l : Link} {k : Nat} (h : l.answers k resp) (hf : p.fits resp.length = true) :
    Due p k (l.rxClear p) resp := by
  obtain ⟨before, mid, later, hdev, hlen, hresp⟩ := h
  refine .inr ⟨mid, later, ?_, hlen, hresp, hf⟩
  simp only [Link.rxClear, Link.log, Link.point, hdev]
  rw [(acts_spec p before _).same]

/-- A `SendStruct` uses up the points of its bytes and of its wait. -/
theorem Due.sendStruct {p : Params} (out : List Byte) {k : Nat} {l : Link} {bs : List Byte}
    (h : Due p (out.length + (if p.auxWired then 1 else p.tRespTimeout) + k) l bs) :
    Due p k (sendStruct p out l).2 bs := by
  have waited := (h.txWrite out).waitComplete p.tRespTimeout p.tPoll
  exact waited.mono (by omega)

/-- An exchange whose wait succeeded obtains a response that is due before its read gives up. -/
theorem exchange_answered {p : Params} {l : Link} (hs : (sendStruct p req (l.rxClear p)).1 = .success)
    (hd : Due p (2 * p.tReadTimeout) (sendStruct p req (l.rxClear p)).2 resp) (hh : resp.head? = some codeRead) :
    ∃ l', exchange p req resp.length m l = (.success, resp, l') ∧
      l'.hist = (sendStruct p req (l.rxClear p)).2.hist ++ resp.map .rx := by
  have got := hd.readExactly
  obtain ⟨-, f⟩ := readExactly_spec p resp.length p.tReadTimeout (sendStruct p req (l.rxClear p)).2
  have status : headStatus resp resp.length codeRead m = .success := by
    simp only [headStatus, shortRead, hh, if_true, ne_eq, not_true_eq_false, if_false]
  refine ⟨_, ?_, got ▸ f.hist⟩
  rw [exchange_read hs, receiveStruct_eq, got, status]
  exact congrArg (Prod.mk _) (Prod.ext got rfl)

theorem localRequest_command (h : localRequest i s = some (req, n, m)) :
    i ∈ [Instr.getcfg, .setcfg, .getinfo, .readreg, .writereg] := by
  cases i with
  | getcfg | setcfg | getinfo | readreg | writereg => decide
  | _ => cases h

theorem localRequest_length_le (h : localRequest i s = some (req, n, m)) : n ≤ 11 := by
  cases i with
  | getcfg | getinfo => cases h; decide
  | setcfg | readreg | writereg =>
    simp only [localRequest] at h
    split_ifs at h
    all_goals cases h; decide
  | _ => cases h

/-- In Configuration mode the command of a row is the row's exchange (R180, R188). -/
theorem exec_localExchange (h : localRequest i s = some (req, n, m)) (hm : s.mode = .configuration) :
    exec i s = raise (exchange s.params req n m s.link).1
      (if (exchange s.params req n m s.link).1 = .success then
        localStore i s (exchange s.params req n m s.link).2.1
          ((s.withLink (exchange s.params req n m s.link).2.2).deliver (exchange s.params req n m s.link).2.1)
      else (s.withLink (exchange s.params req n m s.link).2.2).failReceive) := by
  rcases localCommand_of_mem (localRequest_command h) s with ⟨hn, -⟩ | ⟨req', n', m', hr, he⟩
  · cases hn.symm.trans h
  · cases hr.symm.trans h
    rw [he, localExchange, if_neg (not_not.mpr hm)]
    dsimp only [State.received]
    split <;> rfl

/-- Settles O44: the wait decides between Success and Timeout, and after Success the answer is still due. -/
theorem answeredRequestsSucceed : Obligations.AnsweredRequestsSucceed := by
  intro i s req n m resp h hm hp ha hl hh
  subst hl
  have hlen : resp.length ≤ 11 := localRequest_length_le h
  obtain ⟨-, hhist, -, -, -, -, haux, -⟩ := rxClear_spec s.params s.link
  obtain ⟨vs, outcome⟩ := sendStruct_outcome s.params req (s.link.rxClear s.params) (Params.tPoll_pos hp)
  have ready (hr : s.params.auxWired = true → s.link.auxHolds true = true) := outcome.ready fun hw => haux true (hr hw)
  obtain ⟨sentHist, -⟩ := outcome
  by_cases hs : (sendStruct s.params req (s.link.rxClear s.params)).1 = .success
  · have due := answers_due ha (Params.fits_of_wf hp (by omega))
    obtain ⟨l', he, readHist⟩ := exchange_answered (m := m) hs due.sendStruct hh
    have next := exec_localExchange h hm
    rw [he, if_pos rfl, localStore_eq (t := (s.withLink l').deliver resp) h rfl rfl rfl rfl] at next
    refine ⟨_, vs, next, fun hr => ⟨rfl, (ready hr).2⟩, .inr ⟨rfl, fun a => ?_, ?_⟩⟩
    · exact Memory.read_writeBytes_zero _ _ (hlen.trans (by decide)) a
    · change l'.hist = _
      rw [readHist, sentHist, hhist]
  · have timeout := (sendStruct_status s.params req (s.link.rxClear s.params)).resolve_left hs
    have next := exec_localExchange h hm
    rw [exchange_timeout hs, if_neg hs] at next
    exact ⟨_, vs, next, fun hr => absurd (ready hr).1 hs, .inl timeout⟩

end Sys2Proof.Machine
end

section
/-! PROOFS. A refusal is decided before anything is done (spec/60_exceptions.md R200, R205): past its checks a command raises
no refusal's status, and what its checks refuse is as it was. -/

namespace Sys2Proof.Machine

/-! ## Statuses past the checks -/

theorem waitComplete_accepted (p : Params) (T P : Nat) (l : Link) : (waitComplete p T P l).1.isRefusal = false := by
  rcases waitComplete_status p T P l with h | h <;> rw [h] <;> rfl

theorem sendStruct_accepted (p : Params) (bs : List Byte) (l : Link) : (sendStruct p bs l).1.isRefusal = false :=
  waitComplete_accepted p _ _ _

theorem settle_accepted (p : Params) (l : Link) : (settle p l).1.isRefusal = false := by
  rw [settle_eq]
  exact waitComplete_accepted p _ _ l

theorem shortRead_accepted (got : List Byte) (n : Nat) : (shortRead got n).isRefusal = false := by
  unfold shortRead
  split_ifs <;> rfl

theorem readStatus_accepted (got : List Byte) (n : Nat) : (readStatus got n).isRefusal = false := by
  unfold readStatus
  split_ifs
  · rfl
  · exact shortRead_accepted got n

theorem headStatus_accepted (got : List Byte) (n : Nat) (h : Byte) {m : Status} (hm : m.isRefusal = false) :
    (headStatus got n h m).isRefusal = false := by
  unfold headStatus
  split_ifs
  · exact shortRead_accepted got n
  · rfl
  · exact hm

theorem receiveStruct_accepted (p : Params) (n : Nat) (h : Byte) {m : Status} (hm : m.isRefusal = false) (l : Link) :
    (receiveStruct p n h m l).1.isRefusal = false := by
  rw [receiveStruct_eq]
  exact headStatus_accepted _ n h hm

theorem exchange_accepted (p : Params) (req : List Byte) (n : Nat) {m : Status} (hm : m.isRefusal = false) (l : Link) :
    (exchange p req n m l).1.isRefusal = false := by
  by_cases hs : (sendStruct p req (l.rxClear p)).1 = .success
  · rw [exchange_read hs]
    exact receiveStruct_accepted p n _ hm _
  · rw [exchange_timeout hs]
    exact sendStruct_accepted p req _

theorem untilLoop_accepted (p : Params) (d : Byte) (room : Nat) (l : Link) :
    (untilLoop p d room [] l).1.isRefusal = false := by
  obtain ⟨_, _, -, -, -, -, hst, -⟩ := untilLoop_spec p d room [] l
  rcases hst with h | h <;> rw [h] <;> rfl

/-! ## Clean answers -/

/-- The answer of a command started at `s` is a completion which, if its status is a refusal's, did nothing else. -/
def RefusesCleanly (s : State) (a : Answer) : Prop :=
  ∃ (st : Status) (t : State), a = raise st t ∧ (st.isRefusal = true → t = s)

theorem RefusesCleanly.unchanged {s : State} (st : Status) : RefusesCleanly s (raise st s) :=
  ⟨st, s, rfl, fun _ => rfl⟩

theorem RefusesCleanly.accepted {s : State} {st : Status} (h : st.isRefusal = false) (t : State) :
    RefusesCleanly s (raise st t) :=
  ⟨st, t, rfl, fun hr => absurd (h.symm.trans hr) Bool.false_ne_true⟩

variable (s : State)

/-! ## Codec and mode commands -/

theorem execEnccfg_refusesCleanly : RefusesCleanly s (execEnccfg s) := by
  unfold execEnccfg
  split <;> exact .accepted rfl _

theorem execDeccfg_refusesCleanly : RefusesCleanly s (execDeccfg s) := by
  unfold execDeccfg
  split_ifs
  · exact .accepted rfl _
  · exact .unchanged _
  · exact .accepted rfl _
  · exact .unchanged _

theorem execEncreg_refusesCleanly : RefusesCleanly s (execEncreg s) := by
  unfold execEncreg
  split
  · exact .unchanged _
  · exact .accepted rfl _

theorem execDecreg_refusesCleanly : RefusesCleanly s (execDecreg s) := by
  unfold execDecreg
  split
  · exact .unchanged _
  · split_ifs
    · exact .accepted rfl _
    · exact .unchanged _

theorem execDecinfo_refusesCleanly : RefusesCleanly s (execDecinfo s) := by
  unfold execDecinfo
  split_ifs
  · exact .accepted rfl _
  · exact .unchanged _

theorem setModeTo_refusesCleanly (t : Byte) : RefusesCleanly s (setModeTo t s) := by
  unfold setModeTo
  split
  · exact .unchanged _
  · split_ifs
    · exact .unchanged _
    · exact .accepted (settle_accepted _ _) _

/-! ## Sends, waits and receives -/

theorem sendWithin_refusesCleanly (limit : Nat) (bs : List Byte) :
    RefusesCleanly s (if s.tooBig limit then raise .packetTooBig s else sendFrame bs s) := by
  split
  · exact .unchanged _
  · exact .accepted (sendStruct_accepted _ _ _) _

theorem execSendcfgmsg_refusesCleanly : RefusesCleanly s (execSendcfgmsg s) := by
  unfold execSendcfgmsg
  split
  · exact .unchanged _
  · exact .accepted rfl _

theorem execWaitcomplete_refusesCleanly : RefusesCleanly s (execWaitcomplete s) := by
  unfold execWaitcomplete
  split
  · exact .unchanged _
  · exact .accepted (waitComplete_accepted _ _ _ _) _

theorem execRecvstruct_refusesCleanly : RefusesCleanly s (execRecvstruct s) := by
  unfold execRecvstruct
  split_ifs
  · exact .unchanged _
  · exact .unchanged _
  · exact .accepted (receiveStruct_accepted _ _ _ rfl _) _

theorem execRecvmsg_refusesCleanly : RefusesCleanly s (execRecvmsg s) := by
  unfold execRecvmsg
  split_ifs
  · exact .unchanged _
  · exact .accepted (readStatus_accepted _ _) _

theorem execRecvmsgrssi_refusesCleanly : RefusesCleanly s (execRecvmsgrssi s) := by
  unfold execRecvmsgrssi
  split_ifs
  · exact .unchanged _
  · exact .accepted (shortRead_accepted _ _) _

theorem execRecvcomplete_refusesCleanly : RefusesCleanly s (execRecvcomplete s) := by
  unfold execRecvcomplete
  split_ifs
  · exact .unchanged _
  · dsimp only
    split_ifs <;> exact .accepted rfl _

/-! ## Local configuration commands -/

theorem localExchange_refusesCleanly (req : List Byte) (n : Nat) {m : Status} (hm : m.isRefusal = false)
    (store : List Byte → State → State) : RefusesCleanly s (localExchange req n m store s) := by
  unfold localExchange
  split
  · exact .unchanged _
  · exact .accepted (exchange_accepted _ _ _ hm _) _

theorem execSetcfg_refusesCleanly : RefusesCleanly s (execSetcfg s) := by
  unfold execSetcfg
  split
  · exact .unchanged _
  · exact localExchange_refusesCleanly s _ _ rfl _

theorem execReadreg_refusesCleanly : RefusesCleanly s (execReadreg s) := by
  unfold execReadreg
  split
  · exact .unchanged _
  · exact localExchange_refusesCleanly s _ _ rfl _

theorem execWritereg_refusesCleanly : RefusesCleanly s (execWritereg s) := by
  unfold execWritereg
  split
  · exact .unchanged _
  · split
    · exact .unchanged _
    · exact localExchange_refusesCleanly s _ _ rfl _

/-! ## The dispatch -/

/-- Whatever a write of `CMD` starts refuses cleanly. -/
theorem exec_refusesCleanly {i : Instr} (h : i.port = .cmd) : RefusesCleanly s (exec i s) := by
  cases i with
  | enccfg => exact execEnccfg_refusesCleanly s
  | deccfg => exact execDeccfg_refusesCleanly s
  | encreg => exact execEncreg_refusesCleanly s
  | decreg => exact execDecreg_refusesCleanly s
  | decinfo => exact execDecinfo_refusesCleanly s
  | setmode => exact setModeTo_refusesCleanly s s.arg0
  | getmode => exact .accepted rfl _
  | sendstruct => exact sendWithin_refusesCleanly s _ _
  | recvstruct => exact execRecvstruct_refusesCleanly s
  | waitcomplete => exact execWaitcomplete_refusesCleanly s
  | drain => exact .accepted rfl _
  | sendmsg => exact sendWithin_refusesCleanly s _ _
  | sendfixed => exact sendWithin_refusesCleanly s _ _
  | sendbcast => exact sendWithin_refusesCleanly s _ _
  | recvmsg => exact execRecvmsg_refusesCleanly s
  | recvmsgrssi => exact execRecvmsgrssi_refusesCleanly s
  | recvcomplete => exact execRecvcomplete_refusesCleanly s
  | recvuntil => exact .accepted (untilLoop_accepted _ _ _ _) _
  | available => exact .accepted rfl _
  | getcfg => exact localExchange_refusesCleanly s _ _ rfl _
  | setcfg => exact execSetcfg_refusesCleanly s
  | getinfo => exact localExchange_refusesCleanly s _ _ rfl _
  | resetmod => exact .unchanged _
  | sendcfgmsg => exact execSendcfgmsg_refusesCleanly s
  | readreg => exact execReadreg_refusesCleanly s
  | writereg => exact execWritereg_refusesCleanly s
  | reserved op => exact .unchanged _
  | _ => cases h

/-- Settles O53. -/
theorem refusalsTouchNothingButStatus : Obligations.RefusalsTouchNothingButStatus := by
  intro i s t hi h hr
  obtain ⟨st, u, ha, clean⟩ := exec_refusesCleanly s (isCommand_port hi)
  cases ha.symm.trans h
  rw [clean hr]
  rfl

end Sys2Proof.Machine
end

section
/-! PROOFS. The encodings of spec/30_encoding.md both ways: the encoder's bytes decode, at their port, to the instruction they
came from; and what decodes at a port belongs to it and is encoded as the same bytes with reserved bits 0. -/

namespace Sys2Proof.Machine

/-! ## The packed bytes (R100 to R103) -/

/-- SPED has no reserved bit, so its fields say the whole byte (R100). -/
@[simp] theorem packSped_fields (x : Byte) : packSped (spedBaud x) (spedParity x) (spedAirrate x) = x := by
  revert x; decide +kernel

/-- The fields of OPTION say its defined bits (R101, R103). -/
theorem packOption_fields (x : Byte) :
    packOption (optionSubpkt x) (optionNoise x) (optionPower x) = x &&& optionMask := by
  revert x; decide +kernel

/-- The fields of TRANSMODE say its defined bits (R102, R103). -/
theorem packTransmode_fields (x : Byte) :
    packTransmode (transmodeRssiEn x) (transmodeFixed x) (transmodeLbt x) (transmodeWor x) = x &&& transmodeMask := by
  revert x; decide +kernel

/-- A packed OPTION byte has its reserved bits 0 (R103). -/
theorem packOption_masked (k : BitVec 2) (n : Bit) (w : BitVec 2) :
    packOption k n w &&& optionMask = packOption k n w := by
  rw [← packOption_fields, optionSubpkt_packOption, optionNoise_packOption, optionPower_packOption]

/-- A packed TRANSMODE byte has its reserved bits 0 (R103). -/
theorem packTransmode_masked (r f t : Bit) (k : BitVec 3) :
    packTransmode r f t k &&& transmodeMask = packTransmode r f t k := by
  rw [← packTransmode_fields, transmodeRssiEn_packTransmode, transmodeFixed_packTransmode, transmodeLbt_packTransmode,
    transmodeWor_packTransmode]

/-- Packing what was unpacked keeps every byte but for the reserved bits of OPTION and TRANSMODE (R123, R124). -/
theorem packBody_unpackBody (b : BodyBytes) :
    packBody (unpackBody b) = { b with option := b.option &&& optionMask, transmode := b.transmode &&& transmodeMask } := by
  simp only [packBody, unpackBody, packSped_fields, packOption_fields, packTransmode_fields]

/-- The body of a frame the UPC writes is accepted exactly as the packed body of its fields (R103). -/
theorem decodeWrittenBody_eq_ok {b : BodyBytes} {c : CfgBody} : decodeWrittenBody b = .ok c ↔ packBody c = b := by
  unfold decodeWrittenBody
  constructor
  · intro h
    split_ifs at h with hmask
    cases h
    obtain ⟨hoption, htransmode⟩ := hmask
    rw [packBody_unpackBody, hoption, htransmode]
  · rintro rfl
    rw [if_pos ⟨packOption_masked _ _ _, packTransmode_masked _ _ _ _⟩, unpackBody_packBody]

/-! ## Wire codes (R90, R92, R95) -/

theorem saveTypeOf_code (v : SaveType) : saveTypeOf v.code = some v := by cases v <;> rfl

theorem code_of_saveTypeOf {b : Byte} {v : SaveType} (h : saveTypeOf b = some v) : v.code = b := by
  unfold saveTypeOf at h
  split_ifs at h with h0 h2 <;> cases h
  · exact h0.symm
  · exact h2.symm

theorem code_of_progCmdOf {b : Byte} {q : ProgCmd} (h : progCmdOf b = some q) : q.code = b := by
  unfold progCmdOf at h
  split_ifs at h with h0 h1 h2 <;> cases h
  · exact h0.symm
  · exact h1.symm
  · exact h2.symm

/-- A well-formed header is decoded as it stands (R92). -/
theorem decodeHeader_wfHeader {c a n : Byte} (h : (Instr.wfHeader c a n).wf = true) :
    decodeHeader c a n = .ok (.wfHeader c a n) := by
  refine if_pos ?_
  simpa [Instr.wf, codeWritePersistent, codeRead, codeWriteVolatile, codeWrongFormat, codeSpecialExtended, or_assoc]
    using h

/-! ## Decoding an encoding: the frames the UPC writes -/

theorem decode_cfgWriteReq (v : SaveType) (c : CfgBody) :
    decode .request (encode (.cfgWriteReq v c)) = .ok (.cfgWriteReq v c) := by
  change decodeFullWrite v.code 0x00#8 0x08#8 (packBody c) = _
  simp only [decodeFullWrite, saveTypeOf_code, decodeWrittenBody_eq_ok.mpr rfl, and_self, if_true]

theorem decode_msgRemoteCfg (h l c : Byte) (q : ProgCmd) (body : CfgBody) :
    decode .remote (encode (.msgRemoteCfg h l c q body)) = .ok (.msgRemoteCfg h l c q body) := by
  change decodeRemote ([h, l, c, q.code, 0x00#8, 0x08#8] ++ (packBody body).toList) = _
  simp only [decodeRemote, BodyBytes.toList, List.cons_append, List.nil_append, progCmdOf_code,
    decodeWrittenBody_eq_ok.mpr rfl, and_self, if_true]

theorem decode_regWriteReqSpeed (v : SaveType) (b : BitVec 3) (p : BitVec 2) (a : BitVec 3) :
    decode .request (encode (.regWriteReqSpeed v b p a)) = .ok (.regWriteReqSpeed v b p a) := by
  change decodeWriteRequest1 v.code Window.speed.addr Window.speed.lenByte (packSped b p a) = _
  simp only [decodeWriteRequest1, saveTypeOf_code, spedBaud_packSped, spedParity_packSped, spedAirrate_packSped]
  rfl

theorem decode_regWriteReqOption (v : SaveType) (k : BitVec 2) (n : Bit) (w : BitVec 2) :
    decode .request (encode (.regWriteReqOption v k n w)) = .ok (.regWriteReqOption v k n w) := by
  change decodeWriteRequest1 v.code Window.option.addr Window.option.lenByte (packOption k n w) = _
  simp only [decodeWriteRequest1, saveTypeOf_code, packOption_masked, optionSubpkt_packOption, optionNoise_packOption,
    optionPower_packOption]
  rfl

theorem decode_regWriteReqChannel (v : SaveType) (x : Byte) :
    decode .request (encode (.regWriteReqChannel v x)) = .ok (.regWriteReqChannel v x) := by
  change decodeWriteRequest1 v.code Window.channel.addr Window.channel.lenByte x = _
  simp only [decodeWriteRequest1, saveTypeOf_code]
  rfl

theorem decode_regWriteReqCrypt (v : SaveType) (x y : Byte) :
    decode .request (encode (.regWriteReqCrypt v x y)) = .ok (.regWriteReqCrypt v x y) := by
  change decodeWriteRequest2 v.code Window.crypt.addr Window.crypt.lenByte x y = _
  simp only [decodeWriteRequest2, saveTypeOf_code]
  rfl

theorem decode_regWriteReqTransmode (v : SaveType) (r f t : Bit) (k : BitVec 3) :
    decode .request (encode (.regWriteReqTransmode v r f t k)) = .ok (.regWriteReqTransmode v r f t k) := by
  change decodeWriteRequest1 v.code Window.transmode.addr Window.transmode.lenByte (packTransmode r f t k) = _
  simp only [decodeWriteRequest1, saveTypeOf_code, packTransmode_masked, transmodeRssiEn_packTransmode,
    transmodeFixed_packTransmode, transmodeLbt_packTransmode, transmodeWor_packTransmode]
  rfl

/-! ## Decoding an encoding: every row -/

/-- The bytes of a well-formed instruction are that instruction at its port. -/
theorem decode_encode {i : Instr} (hw : i.wf = true) : decode i.port (encode i) = .ok i := by
  cases i with
  -- host commands: rows of the opcode map
  | enccfg | deccfg | encreg | decreg | decinfo | setmode | getmode | sendstruct | recvstruct | waitcomplete | drain
  | sendmsg | sendfixed | sendbcast | recvmsg | recvmsgrssi | recvcomplete | recvuntil | available | getcfg | setcfg
  | getinfo | resetmod | sendcfgmsg | readreg | writereg => rfl
  | reserved op => exact congrArg Except.ok (decodeOpcode_reserved hw)
  -- parts of frames
  | wfHeader c a n => exact decodeHeader_wfHeader hw
  | sped b p a =>
    simp only [Instr.port, encode, decode, spedBaud_packSped, spedParity_packSped, spedAirrate_packSped]
  | option k n w =>
    simp only [Instr.port, encode, decode, optionSubpkt_packOption, optionNoise_packOption, optionPower_packOption]
  | transmode r f t k =>
    simp only [Instr.port, encode, decode, transmodeRssiEn_packTransmode, transmodeFixed_packTransmode,
      transmodeLbt_packTransmode, transmodeWor_packTransmode]
  | cfgBody c => exact congrArg (fun body => Except.ok (Instr.cfgBody body)) (unpackBody_packBody c)
  -- requests: a read is its literal bytes, a write holds a packed payload
  | cfgReadReq | infoReadReq | regReadReqSpeed | regReadReqOption | regReadReqChannel | regReadReqCrypt
  | regReadReqTransmode => rfl
  | cfgWriteReq v c => exact decode_cfgWriteReq v c
  | regWriteReqSpeed v b p a => exact decode_regWriteReqSpeed v b p a
  | regWriteReqOption v k n w => exact decode_regWriteReqOption v k n w
  | regWriteReqChannel v x => exact decode_regWriteReqChannel v x
  | regWriteReqCrypt v x y => exact decode_regWriteReqCrypt v x y
  | regWriteReqTransmode v r f t k => exact decode_regWriteReqTransmode v r f t k
  -- frames from the device
  | cfgResp | infoResp | regRespSpeed | regRespOption | regRespChannel | regRespCrypt | regRespTransmode
  | msgReceived => exact decode_encode_item (.inl rfl) hw
  -- messages: a payload within its limit
  | msgTransparent payload => exact if_pos (of_decide_eq_true hw)
  | msgFixed h l c payload => exact if_pos (of_decide_eq_true hw)
  | msgBcast c payload =>
    change decodeBroadcast (Config.broadcastAddr :: Config.broadcastAddr :: c :: payload) = _
    rw [decodeBroadcast, if_pos ⟨rfl, rfl⟩, if_pos (of_decide_eq_true hw)]
  | msgRemoteCfg h l c q body => exact decode_msgRemoteCfg h l c q body
  -- pin pairs and wire codes
  | modeNormal | modeWorTx | modeWorRx | modeConfiguration | cmdWritePersistent | cmdRead | cmdWriteVolatile
  | cmdWrongFormat | cmdSpecialExtended => rfl

/-- Settles O15. -/
theorem decodeOfEncodeIsTheInstruction : Obligations.DecodeOfEncodeIsTheInstruction :=
  fun _ hw => decode_encode hw

/-! ## Encoding what was decoded -/

/-- The opcode map and the encoder hold the same opcodes (R86). -/
theorem opcodeTable_encode : ∀ row ∈ opcodeTable, encode row.2 = [row.1] := by decide

theorem encode_decodeOpcode (op : Byte) : encode (decodeOpcode op) = [op] := by
  rcases decodeOpcode_cases op with hm | ⟨he, -⟩
  · exact opcodeTable_encode _ hm
  · rw [he]; rfl

/-- Instruction `i` is met at port `p` as the bytes `bs`. -/
def Spells (p : Port) (bs : List Byte) (i : Instr) : Prop := i.port = p ∧ encode i = bs

theorem decodeHeader_spells {c a n : Byte} {i : Instr} (h : decodeHeader c a n = .ok i) : Spells .header [c, a, n] i := by
  unfold decodeHeader at h
  split_ifs at h
  cases h
  exact ⟨rfl, rfl⟩

theorem decodeCode_spells {b : Byte} {i : Instr} (h : decodeCode b = .ok i) : Spells .code [b] i := by
  unfold decodeCode at h
  split_ifs at h with h0 h1 h2 hf hcf <;> cases h
  all_goals
    subst b
    exact ⟨rfl, rfl⟩

theorem decodePins_spells {b : Byte} {i : Instr} (h : decodePins b = .ok i) : Spells .pins [b] i := by
  unfold decodePins at h
  split_ifs at h with h0 h1 h2 h3 <;> cases h
  all_goals
    subst b
    exact ⟨rfl, rfl⟩

/-! ### Requests (R93, R96, R99) -/

theorem decodeReadRequest_spells {c a n : Byte} {i : Instr} (h : decodeReadRequest c a n = .ok i) :
    Spells .request [c, a, n] i := by
  unfold decodeReadRequest at h
  split_ifs at h with hc
  all_goals
    cases h
    obtain rfl : c = codeRead := not_not.mp hc
    obtain ⟨rfl, rfl⟩ := ‹a = _ ∧ n = _›
    exact ⟨rfl, rfl⟩

theorem decodeWriteRequest1_spells {c a n x : Byte} {i : Instr} (h : decodeWriteRequest1 c a n x = .ok i) :
    Spells .request [c, a, n, x] i := by
  unfold decodeWriteRequest1 at h
  split at h
  · cases h
  · rename_i v hv
    obtain rfl := code_of_saveTypeOf hv
    split_ifs at h with hn hspeed hoption hmask hchannel htransmode hmask
    all_goals
      cases h
      obtain rfl : n = 0x01#8 := not_not.mp hn
      subst a
      refine ⟨rfl, ?_⟩
    · rw [encode, packSped_fields]; rfl
    · rw [encode, packOption_fields, hmask]; rfl
    · rfl
    · rw [encode, packTransmode_fields, hmask]; rfl

theorem decodeWriteRequest2_spells {c a n x y : Byte} {i : Instr} (h : decodeWriteRequest2 c a n x y = .ok i) :
    Spells .request [c, a, n, x, y] i := by
  unfold decodeWriteRequest2 at h
  split at h
  · cases h
  · rename_i v hv
    obtain rfl := code_of_saveTypeOf hv
    split_ifs at h with hwindow
    cases h
    obtain ⟨rfl, rfl⟩ := hwindow
    exact ⟨rfl, rfl⟩

theorem decodeFullWrite_spells {c a n : Byte} {b : BodyBytes} {i : Instr} (h : decodeFullWrite c a n b = .ok i) :
    Spells .request ([c, a, n] ++ b.toList) i := by
  unfold decodeFullWrite at h
  split at h
  · cases h
  · rename_i v hv
    obtain rfl := code_of_saveTypeOf hv
    split_ifs at h with hblock
    obtain ⟨rfl, rfl⟩ := hblock
    split at h <;> cases h
    rename_i body hbody
    obtain rfl := decodeWrittenBody_eq_ok.mp hbody
    exact ⟨rfl, rfl⟩

theorem decodeRequest_spells {bs : List Byte} {i : Instr} (h : decodeRequest bs = .ok i) : Spells .request bs i := by
  unfold decodeRequest at h
  split at h
  · exact decodeReadRequest_spells h
  · exact decodeWriteRequest1_spells h
  · exact decodeWriteRequest2_spells h
  · exact decodeFullWrite_spells h
  · cases h

/-! ### Responses (R104, R105) -/

theorem decodeWindowResponse_spells {w : Window} {bs : List Byte} {i : Instr} (h : decodeWindowResponse w bs = .ok i) :
    Spells (.respWindow w) bs i := by
  unfold decodeWindowResponse at h
  split at h
  case h_6 => cases h
  all_goals
    split_ifs at h with hc
    cases h
    subst hc
    exact ⟨rfl, rfl⟩

/-! ### Messages (R107 to R111) -/

theorem decodeFixed_spells {bs : List Byte} {i : Instr} (h : decodeFixed bs = .ok i) : Spells .fixedMsg bs i := by
  unfold decodeFixed at h
  split at h
  · split_ifs at h
    cases h
    exact ⟨rfl, rfl⟩
  · cases h

theorem decodeBroadcast_spells {bs : List Byte} {i : Instr} (h : decodeBroadcast bs = .ok i) : Spells .broadcast bs i := by
  unfold decodeBroadcast at h
  split at h
  · split_ifs at h with haddr
    obtain ⟨rfl, rfl⟩ := haddr
    cases h
    exact ⟨rfl, rfl⟩
  · cases h

theorem decodeRemote_spells {bs : List Byte} {i : Instr} (h : decodeRemote bs = .ok i) : Spells .remote bs i := by
  unfold decodeRemote at h
  split at h
  · split at h
    · cases h
    · rename_i q hq
      obtain rfl := code_of_progCmdOf hq
      split_ifs at h with hblock
      obtain ⟨rfl, rfl⟩ := hblock
      split at h <;> cases h
      rename_i body hbody
      have hbytes := congrArg BodyBytes.toList (decodeWrittenBody_eq_ok.mp hbody)
      exact ⟨rfl, congrArg (_ ++ ·) hbytes⟩
  · cases h

/-- A list of `n + 1` bytes is its first `n` and its last. -/
theorem take_append_getD {bs : List Byte} {n : Nat} (h : bs.length = n + 1) : bs.take n ++ [bs.getD n 0#8] = bs := by
  rw [List.getD_eq_getElem _ _ (by omega), List.take_concat_get', ← h, List.take_length]

theorem decodeReceived_spells {n : Nat} {rssi : Bool} {bs : List Byte} {i : Instr} (h : decodeReceived n rssi bs = .ok i) :
    Spells (.received n rssi) bs i := by
  unfold decodeReceived at h
  split_ifs at h with hn hrssi hl hl <;> cases h
  · subst hrssi
    exact ⟨by simp [Instr.port, hl], take_append_getD hl⟩
  · rw [Bool.not_eq_true] at hrssi
    subst hrssi hl
    exact ⟨rfl, List.append_nil bs⟩

/-! ### Every port -/

/-- Bytes as the encoder writes them at a port: the bits no field holds are 0 (R103). -/
def definedBits (p : Port) (bs : List Byte) : List Byte :=
  match p with
  | .option => bs.map (· &&& optionMask)
  | .transmode => bs.map (· &&& transmodeMask)
  | .body =>
    List.zipWith (· &&& ·) bs [0xFF#8, 0xFF#8, 0xFF#8, optionMask, 0xFF#8, transmodeMask, 0xFF#8, 0xFF#8]
  | _ => bs

/-- The body port keeps all bits but the reserved ones of OPTION and TRANSMODE (R94, R103). -/
theorem cfgBody_spells {bs : List Byte} {b : BodyBytes} (h : bodyOfList bs = some b) :
    Spells .body (definedBits .body bs) (.cfgBody (unpackBody b)) := by
  unfold bodyOfList at h
  split at h <;> cases h
  have hfull (x : Byte) : x &&& 0xFF#8 = x := BitVec.and_allOnes
  refine ⟨rfl, ?_⟩
  simp only [encode, packBody_unpackBody, BodyBytes.toList, definedBits, List.zipWith_cons_cons, List.zipWith_nil_left, hfull]

/-- What decodes at a port belongs to it, and its encoding is those bytes with reserved bits 0. -/
theorem decode_spells {p : Port} {bs : List Byte} {i : Instr} (h : decode p bs = .ok i) :
    Spells p (definedBits p bs) i := by
  unfold decode at h
  cases p with
  | cmd =>
    dsimp only at h
    split at h <;> cases h
    exact ⟨decodeOpcode_port _, encode_decodeOpcode _⟩
  | header =>
    dsimp only at h
    split at h
    · exact decodeHeader_spells h
    · cases h
  | sped =>
    dsimp only at h
    split at h <;> cases h
    exact ⟨rfl, congrArg (fun x => [x]) (packSped_fields _)⟩
  | option =>
    dsimp only at h
    split at h <;> cases h
    exact ⟨rfl, congrArg (fun x => [x]) (packOption_fields _)⟩
  | transmode =>
    dsimp only at h
    split at h <;> cases h
    exact ⟨rfl, congrArg (fun x => [x]) (packTransmode_fields _)⟩
  | body =>
    dsimp only at h
    split at h <;> cases h
    rename_i b hb
    exact cfgBody_spells hb
  | code =>
    dsimp only at h
    split at h
    · exact decodeCode_spells h
    · cases h
  | request => exact decodeRequest_spells h
  | respFull | respInfo =>
    dsimp only at h
    split at h
    · split_ifs at h with hc
      cases h
      subst hc
      exact ⟨rfl, rfl⟩
    · cases h
  | respWindow w => exact decodeWindowResponse_spells h
  | transparent =>
    dsimp only at h
    split_ifs at h
    cases h
    exact ⟨rfl, rfl⟩
  | fixedMsg => exact decodeFixed_spells h
  | broadcast => exact decodeBroadcast_spells h
  | remote => exact decodeRemote_spells h
  | received n rssi => exact decodeReceived_spells h
  | pins =>
    dsimp only at h
    split at h
    · exact decodePins_spells h
    · cases h

/-- Settles O16. -/
theorem decodedInstructionsAreWellFormed : Obligations.DecodedInstructionsAreWellFormed := by
  intro p bs i h
  obtain ⟨hport, hbytes⟩ := decode_spells h
  refine ⟨decode_wf h, hport, hbytes.trans ?_⟩
  cases p <;> rfl

end Sys2Proof.Machine
end

section
/-! PROOFS. The obligations of spec/30_encoding.md about literal bytes: the frames as R93 to R111 write them, the places of the
packed bits, words that decode, and the opcodes and the wire code that mean nothing. -/

namespace Sys2Proof.Machine

/-! ## The packed bytes as numbers (R100 to R102) -/

theorem packSped_toNat (b : BitVec 3) (p : BitVec 2) (a : BitVec 3) :
    (packSped b p a).toNat = b.toNat * 32 + p.toNat * 8 + a.toNat := by
  revert b p a; decide

theorem packOption_toNat (k : BitVec 2) (n : Bit) (w : BitVec 2) :
    (packOption k n w).toNat = k.toNat * 64 + n.toNat * 32 + w.toNat := by
  revert k n w; decide

theorem packTransmode_toNat (r f t : Bit) (k : BitVec 3) :
    (packTransmode r f t k).toNat = r.toNat * 128 + f.toNat * 64 + t.toNat * 16 + k.toNat := by
  revert r f t k; decide

/-- Settles O19. -/
theorem packedBytesHaveTheSpecsBitPlaces : Obligations.PackedBytesHaveTheSpecsBitPlaces :=
  ⟨packSped_toNat, packOption_toNat, packTransmode_toNat⟩

/-! ## Frames (R93 to R111) -/

/-- The three packed bytes are the fields side by side. -/
theorem packedBytes_eq_sideBySide (c : CfgBody) :
    packSped c.baud c.parity c.airrate = c.speedByte ∧ packOption c.subpkt c.rssiNoise c.power = c.optionByte ∧
    packTransmode c.rssiEn c.fixed c.lbt c.wor = c.transmodeByte :=
  ⟨packSped_eq_append _ _ _, packOption_eq_append _ _ _, packTransmode_eq_append _ _ _ _⟩

/-- The writes with a save type: its code, the address and length of what is written, and the packed bytes (R93, R99). -/
theorem encode_writes (v : SaveType) (c : CfgBody) (ch x y : Byte) :
    encode (.cfgWriteReq v c) = [v.code, 0x00#8, 0x08#8] ++ c.wire ∧
    encode (.regWriteReqSpeed v c.baud c.parity c.airrate) = [v.code, 0x02#8, 0x01#8, c.speedByte] ∧
    encode (.regWriteReqOption v c.subpkt c.rssiNoise c.power) = [v.code, 0x05#8, 0x01#8, c.optionByte] ∧
    encode (.regWriteReqChannel v ch) = [v.code, 0x04#8, 0x01#8, ch] ∧
    encode (.regWriteReqCrypt v x y) = [v.code, 0x06#8, 0x02#8, x, y] ∧
    encode (.regWriteReqTransmode v c.rssiEn c.fixed c.lbt c.wor) = [v.code, 0x03#8, 0x01#8, c.transmodeByte] := by
  obtain ⟨hsped, hoption, htransmode⟩ := packedBytes_eq_sideBySide c
  rw [← encodeBody_eq_wire, ← hsped, ← hoption, ← htransmode]
  exact ⟨rfl, rfl, rfl, rfl, rfl, rfl⟩

/-- A remote configuration message is its address, then the write request of its body under the program command (R110). -/
theorem encode_msgRemoteCfg (h l ch : Byte) (q : ProgCmd) (c : CfgBody) :
    encode (.msgRemoteCfg h l ch q c) = [h, l, ch, q.code, 0x00#8, 0x08#8] ++ c.wire := by
  rw [← encodeBody_eq_wire]
  rfl

theorem saveType_codes : ∀ row ∈ [(SaveType.persistent, 0xC0#8), (SaveType.volatile, 0xC2#8)], row.1.code = row.2 := by
  decide

theorem progCmd_codes : ∀ row ∈ [(ProgCmd.writePersistent, 0xC0#8), (ProgCmd.readConfiguration, 0xC1#8),
    (ProgCmd.writeVolatile, 0xC2#8)], row.1.code = row.2 := by
  decide

/-- Settles O17: the frames whose bytes are literal hold by the encoder's text, those that hold a body or a packed byte by
`encode_writes`. -/
theorem framesAreTheBytesTheSpecWrites : Obligations.FramesAreTheBytesTheSpecWrites := by
  intro c a n h l ch m v f x y bs payload
  refine ⟨rfl, rfl, encodeBody_eq_wire c, rfl, rfl, rfl, rfl, rfl, rfl, rfl, fun w k hw => ?_, rfl, rfl, rfl, rfl, rfl, rfl,
    rfl, rfl, fun q k hq => ?_, rfl, List.append_nil payload⟩
  · obtain rfl : w.code = k := saveType_codes _ hw
    exact encode_writes w c ch x y
  · obtain rfl : q.code = k := progCmd_codes _ hq
    exact encode_msgRemoteCfg h l ch q c

/-! ## Words (R86, R92, R95, R100 to R106, R182, R187) -/

/-- Settles O18: each word is decoded by evaluating the decoder on it. -/
theorem specWordsDecode : Obligations.SpecWordsDecode :=
  ⟨rfl, rfl, rfl, rfl, rfl, rfl, rfl, rfl, rfl, rfl, rfl, rfl, rfl, rfl, rfl, rfl, rfl, rfl, rfl, rfl, rfl, rfl, rfl, rfl, rfl,
    rfl, rfl, rfl, rfl, rfl⟩

/-! ## Codes without a meaning (R112, R113) -/

/-- The assigned opcodes lie in five ranges (R86). -/
theorem assignedOpcodes_ranges : ∀ op ∈ assignedOpcodes,
    (0x10 ≤ op.toNat ∧ op.toNat ≤ 0x14) ∨ (0x20 ≤ op.toNat ∧ op.toNat ≤ 0x21) ∨ (0x30 ≤ op.toNat ∧ op.toNat ≤ 0x33) ∨
    (0x40 ≤ op.toNat ∧ op.toNat ≤ 0x47) ∨ (0x50 ≤ op.toNat ∧ op.toNat ≤ 0x56) := by
  decide

/-- Settles O47: an opcode of the six ranges is in none of the five that hold the assigned ones. -/
theorem reservedOpcodesAreNotSupported : Obligations.ReservedOpcodesAreNotSupported := by
  intro op s hrange
  have unassigned : op ∉ assignedOpcodes := fun hm => by
    have := assignedOpcodes_ranges op hm
    omega
  exact ⟨decodeOpcode_reserved (by simpa [Instr.wf] using unassigned), rfl⟩

/-- Settles O52. -/
theorem specialExtendedCodeIsRefused : Obligations.SpecialExtendedCodeIsRefused := fun _ => rfl

end Sys2Proof.Machine
end

section
/-! PROOFS. A local configuration command in Configuration mode is one exchange (spec/44_config.md R181 to R183, R186, R187), and
its next state follows from how the exchange ends (spec/42_transport.md R149, R151, R201). -/

namespace Sys2Proof.Machine

/-! ## The status of a framed read (R149) -/

/-- A framed read succeeds only when it obtained all its bytes. -/
theorem length_of_headStatus {got : List Byte} {n : Nat} {h : Byte} {m : Status} (hs : headStatus got n h m = .success) :
    got.length = n := by
  by_contra hn
  have short : shortRead got n ≠ .success := by
    unfold shortRead
    rw [if_neg hn]
    split <;> decide
  exact short ((if_pos short).symm.trans hs)

/-- The model's order of checks and the statement's agree on a read of at least one byte. -/
theorem headStatus_eq_framedStatus {got : List Byte} {n : Nat} (hn : 0 < n) (hl : got.length ≤ n) (h : Byte) (m : Status) :
    headStatus got n h m = framedStatus got n h m := by
  unfold headStatus shortRead framedStatus
  rcases hl.eq_or_lt with heq | hlt
  · simp [heq, hn.ne']
  · simp only [hlt.ne, hlt, if_true, if_false]
    split <;> rfl

/-! ## The exchange (R151) -/

/-- What of a discard is observable: the timer is not (R70). -/
theorem rxClear_observed (p : Params) (l : Link) :
    (l.rxClear p).rxfifo = [] ∧ (l.rxClear p).hist = l.hist ++ [.rxClear] ∧ (l.rxClear p).m0 = l.m0 ∧
    (l.rxClear p).m1 = l.m1 ∧ (l.rxClear p).ticks = l.ticks ∧
    (∀ v, l.auxHolds v = true → (l.rxClear p).auxHolds v = true) ∧
    (l.noArrivals = true → (l.rxClear p).noArrivals = true) := by
  obtain ⟨hrx, hhist, hm0, hm1, hticks, -, haux, hcalm⟩ := rxClear_spec p l
  exact ⟨hrx, hhist, hm0, hm1, hticks, haux, hcalm⟩

/-- How an exchange ends: past the clear, its wait failed and nothing was read; or its wait succeeded and what was read
decides the status. -/
theorem exchange_outcome (p : Params) (req : List Byte) (n : Nat) (m : Status) (l : Link) (hP : 1 ≤ p.tPoll) :
    ∃ (l2 : Link) (vs : List Bool) (waited : Status),
      WaitOutcome p p.tRespTimeout p.tPoll (l.rxClear p) l2 (req.map .tx) vs waited ∧
      (waited ≠ .success → exchange p req n m l = (waited, [], l2)) ∧
      (waited = .success → ∃ got l3, ReadOutcome n p.tReadTimeout l2 l3 got ∧
        exchange p req n m l = (headStatus got n codeRead m, got, l3)) := by
  obtain ⟨vs, outcome⟩ := sendStruct_outcome p req (l.rxClear p) hP
  exact ⟨_, vs, _, outcome, exchange_timeout, fun hs =>
    ⟨_, _, readExactly_outcome _ _ _ _, (exchange_read hs).trans (receiveStruct_eq _ _ _ _ _)⟩⟩

/-! ## The command's next state -/

variable {i : Instr} {s : State} {req got : List Byte} {n : Nat} {m st : Status} {l : Link}

/-- An exchange that succeeded: the response is delivered and the command's fields are stored (R181, R183, R186). -/
theorem exec_exchange_succeeded (h : localRequest i s = some (req, n, m)) (hm : s.mode = .configuration)
    (he : exchange s.params req n m s.link = (.success, got, l)) (hl : got.length = n) :
    exec i s = .next { s with
      link := l, rbuf := s.rbuf.writeBytes 0 got, rlen := BitVec.ofNat 8 n
      cfgHdr := (localStores i s (fun k => got.getD k 0#8)).1
      cfg := (localStores i s (fun k => got.getD k 0#8)).2.1
      info := (localStores i s (fun k => got.getD k 0#8)).2.2
      status := .success, busy := 0#1, seq := .idle } := by
  rw [exec_localExchange h hm, he, if_pos rfl, localStore_eq (t := (s.withLink l).deliver got) h hl rfl rfl rfl, ← hl]
  rfl

/-- An exchange that failed: no field is stored, and `RBUF` is unspecified (R201). -/
theorem exec_exchange_failed (h : localRequest i s = some (req, n, m)) (hm : s.mode = .configuration)
    (he : exchange s.params req n m s.link = (st, got, l)) (hst : st ≠ .success) :
    exec i s = .next { s with
      link := l, rbuf := Memory.unspecified s.draws, draws := s.draws + 1, rlen := 0#8
      status := st, busy := 0#1, seq := .idle } := by
  rw [exec_localExchange h hm, he, if_neg hst]
  rfl

/-- Every response has a header at least (R104, R105). -/
theorem localRequest_length_pos (h : localRequest i s = some (req, n, m)) : 0 < n := by
  cases i with
  | getcfg | getinfo => cases h; decide
  | setcfg | readreg | writereg =>
    simp only [localRequest] at h
    split_ifs at h
    all_goals cases h; decide
  | _ => cases h

/-- Settles O43: the exchange ends in the wait, or in a read that fails, or in a read that succeeds. -/
theorem localConfigurationIsOneExchange : Obligations.LocalConfigurationIsOneExchange := by
  intro i s req n m h hm hP
  have cleared := rxClear_observed s.params s.link
  obtain ⟨l2, vs, waited, outcome, notRead, read⟩ := exchange_outcome s.params req n m s.link hP
  by_cases hw : waited = .success
  · obtain ⟨got, l3, readOutcome, he⟩ := read hw
    have hle : got.length ≤ n := readOutcome.1
    have status := headStatus_eq_framedStatus (localRequest_length_pos h) hle codeRead m
    by_cases hs : headStatus got n codeRead m = .success
    · have hl := length_of_headStatus hs
      have hbound : got.length ≤ Config.bufSize := by
        rw [hl]
        exact (localRequest_length_le h).trans (by decide)
      rw [hs] at he
      exact ⟨_, l2, _, vs, got, waited, exec_exchange_succeeded h hm he hl, cleared, outcome, fun hn => absurd hw hn,
        fun _ => ⟨readOutcome, hs.symm.trans status⟩, fun _ => ⟨rfl, Memory.read_writeBytes_zero _ _ hbound⟩,
        fun hn => absurd rfl hn⟩
    · exact ⟨_, l2, _, vs, got, waited, exec_exchange_failed h hm he hs, cleared, outcome, fun hn => absurd hw hn,
        fun _ => ⟨readOutcome, status⟩, fun hn => absurd hn hs, fun _ => rfl⟩
  · exact ⟨_, l2, _, vs, [], waited, exec_exchange_failed h hm (notRead hw) hw, cleared, outcome, fun _ => ⟨rfl, rfl, rfl⟩,
      fun hs => absurd hs hw, fun hs => absurd hs hw, fun _ => rfl⟩

end Sys2Proof.Machine
end

section
/-! PROOFS. The five codec commands (spec/40_codec.md section 2), one equation for each way a command can go, in the layouts the
statements write; and the codec's round trip (R131). -/

namespace Sys2Proof.Machine

/-! ## The round trip (R120 to R124, R127, R131) -/

theorem decodeBody_encodeBody (c old : CfgBody) : decodeBody (encodeBody c) old = c := unpackBody_packBody c

/-- Re-encoding a decoded block clears the reserved bits of OPTION and TRANSMODE only (R103). -/
theorem encodeBody_decodeBody (b0 b1 b2 b3 b4 b5 b6 b7 : Byte) (c : CfgBody) :
    encodeBody (decodeBody [b0, b1, b2, b3, b4, b5, b6, b7] c) =
      [b0, b1, b2, b3 &&& optionMask, b4, b5 &&& transmodeMask, b6, b7] :=
  congrArg BodyBytes.toList (packBody_unpackBody ⟨b0, b1, b2, b3, b4, b5, b6, b7⟩)

theorem windowPayload_unpackSped (x : Byte) (c : CfgBody) : windowPayload .speed (unpackSped x c) = [x] :=
  congrArg (fun b => [b]) (packSped_fields x)

theorem windowPayload_unpackOption (x : Byte) (c : CfgBody) :
    windowPayload .option (unpackOption x c) = [x &&& optionMask] :=
  congrArg (fun b => [b]) (packOption_fields x)

theorem windowPayload_unpackTransmode (x : Byte) (c : CfgBody) :
    windowPayload .transmode (unpackTransmode x c) = [x &&& transmodeMask] :=
  congrArg (fun b => [b]) (packTransmode_fields x)

/-- Storing a body's own window leaves the body as it was. -/
theorem windowStore_windowPayload (w : Window) (c : CfgBody) : windowStore w (windowPayload w c) c = c := by
  cases w with
  | speed => exact unpackSped_packSped c.baud c.parity c.airrate c
  | option => exact unpackOption_packOption c.subpkt c.rssiNoise c.power c
  | channel | crypt => rfl
  | transmode => exact unpackTransmode_packTransmode c.rssiEn c.fixed c.lbt c.wor c

/-- A window's payload is stored whole: it has no reserved bit set to lose. -/
theorem windowPayload_windowStore (w : Window) (c old : CfgBody) :
    windowPayload w (windowStore w (windowPayload w c) old) = windowPayload w c := by
  cases w with
  | speed => exact windowPayload_unpackSped _ old
  | option => exact (windowPayload_unpackOption _ old).trans (congrArg (fun b => [b]) (packOption_masked _ _ _))
  | channel | crypt => rfl
  | transmode =>
    exact (windowPayload_unpackTransmode _ old).trans (congrArg (fun b => [b]) (packTransmode_masked _ _ _ _))

/-- Settles O20: in the 11-byte form the header is three whole bytes, and the body follows it. -/
theorem codecRoundTripIsLossless : Obligations.CodecRoundTripIsLossless :=
  ⟨decodeBody_encodeBody, encodeBody_decodeBody,
    fun w c => ⟨windowStore_windowPayload w c, windowPayload_windowStore w c⟩,
    fun c x _ => ⟨windowPayload_unpackSped x c, windowPayload_unpackOption x c, rfl, rfl, windowPayload_unpackTransmode x c⟩,
    fun _ _ c cold => ⟨rfl, decodeBody_encodeBody c cold⟩,
    fun x y z b0 b1 b2 b3 b4 b5 b6 b7 _ c => congrArg ([x, y, z] ++ ·) (encodeBody_decodeBody b0 b1 b2 b3 b4 b5 b6 b7 c)⟩

/-! ## Windows by their code (R89, R98, R99) -/

section
variable {x : Byte} {w : Window}

theorem exists_windowOf (h1 : 1 ≤ x.toNat) (h5 : x.toNat ≤ 5) : ∃ w, windowOf x = some w := by
  rcases windowOf_cases x with rfl | rfl | rfl | rfl | rfl | ⟨-, n1, n2, n3, n4, n5⟩
  case inr.inr.inr.inr.inr =>
    simp only [ne_eq, BitVec.toNat_eq, BitVec.toNat_ofNat] at n1 n2 n3 n4 n5
    omega
  all_goals exact ⟨_, rfl⟩

theorem windowOf_eq_none (h : x.toNat = 0 ∨ 6 ≤ x.toNat) : windowOf x = none := by
  rcases windowOf_cases x with rfl | rfl | rfl | rfl | rfl | ⟨hn, -⟩
  case inr.inr.inr.inr.inr => exact hn
  all_goals exact absurd h (by decide)

/-- The window code of a window (R89). -/
def windowCode : Window → Byte
  | .speed => 1#8
  | .option => 2#8
  | .channel => 3#8
  | .crypt => 4#8
  | .transmode => 5#8

/-- A byte that names a window is the window's code. -/
theorem eq_code_of_windowOf (hw : windowOf x = some w) : x = windowCode w := by
  rcases windowOf_cases x with rfl | rfl | rfl | rfl | rfl | ⟨hn, -⟩
  case inr.inr.inr.inr.inr => cases hn.symm.trans hw
  all_goals cases hw; rfl

/-- A window's length byte is the payload length of its code (R98). -/
theorem lenByte_toNat (hw : windowOf x = some w) : w.lenByte.toNat = windowCount x.toNat := by
  obtain rfl := eq_code_of_windowOf hw
  cases w <;> rfl

theorem window_length (hw : windowOf x = some w) (c : CfgBody) : (c.window x.toNat).length = windowCount x.toNat := by
  obtain rfl := eq_code_of_windowOf hw
  cases w <;> rfl

/-- The payload a window encodes is its fields side by side (R99, R127). -/
theorem windowPayload_eq_window (hw : windowOf x = some w) (c : CfgBody) : windowPayload w c = c.window x.toNat := by
  obtain ⟨hsped, hoption, htransmode⟩ := packedBytes_eq_sideBySide c
  obtain rfl := eq_code_of_windowOf hw
  cases w with
  | speed => exact congrArg (fun b => [b]) hsped
  | option => exact congrArg (fun b => [b]) hoption
  | channel | crypt => rfl
  | transmode => exact congrArg (fun b => [b]) htransmode

/-- A window stored from the start of a buffer takes the values of the buffer's bytes (R127). -/
theorem windowStore_readBytes (hw : windowOf x = some w) (m : Memory) (c : CfgBody) :
    windowStore w (m.readBytes 0 w.len) c = c.withWindow x.toNat m.read := by
  rw [windowStore_eq hw (Memory.readBytes_length m 0 w.len)]
  obtain rfl := eq_code_of_windowOf hw
  cases w <;> rfl

end

/-- A body decoded from a buffer takes the values of the buffer's bytes from its place on (R124). -/
theorem decodeBody_readBytes (m : Memory) (off : Nat) (c : CfgBody) :
    decodeBody (m.readBytes off 8) c = CfgBody.ofWire (fun k => m.read (off + k)) :=
  decodeBody_eq (Memory.readBytes_length m off 8) c

/-! ## The commands, case by case (R125 to R130) -/

section
variable {s : State} {w : Window}

/-- The bytes ENCCFG encodes: the body, after the header when the flag asks for it (R125). -/
def State.cfgBytes (s : State) : List Byte :=
  if s.arg0.toNat % 2 = 1 then [s.cfgHdr.command, s.cfgHdr.startAddr, s.cfgHdr.length] ++ s.cfg.wire else s.cfg.wire

theorem State.cfgBytes_length (s : State) : s.cfgBytes.length = if s.arg0.toNat % 2 = 1 then 11 else 8 :=
  apply_ite List.length _ _ _

theorem exec_enccfg (s : State) : exec .enccfg s = raise .success (s.load s.cfgBytes) := by
  change execEnccfg s = _
  simp only [execEnccfg, State.cfgBytes, State.headerFlag_iff, encodeBody_eq_wire]
  split <;> rfl

theorem exec_deccfg_header (h : s.arg0.toNat % 2 = 1) : exec .deccfg s =
    if s.rlen.toNat = 11 then raise .success { s with
      cfgHdr := ⟨s.rbuf.read 0, s.rbuf.read 1, s.rbuf.read 2⟩, cfg := CfgBody.ofWire (fun k => s.rbuf.read (3 + k)) }
    else raise .dataSizeMismatch s := by
  rw [← decodeBody_readBytes s.rbuf 3 s.cfg]
  exact (if_pos (s.headerFlag_iff.mpr h)).trans (if_congr BitVec.toNat_eq rfl rfl)

theorem exec_deccfg_body (h : s.arg0.toNat % 2 ≠ 1) : exec .deccfg s =
    if s.rlen.toNat = 8 then raise .success { s with cfg := CfgBody.ofWire s.rbuf.read }
    else raise .dataSizeMismatch s := by
  have hbody := decodeBody_readBytes s.rbuf 0 s.cfg
  simp only [Nat.zero_add] at hbody
  rw [← hbody]
  exact (if_neg (mt s.headerFlag_iff.mp h)).trans (if_congr BitVec.toNat_eq rfl rfl)

theorem exec_encreg_window (hw : windowOf s.arg0 = some w) :
    exec .encreg s = raise .success (s.load (s.cfg.window s.arg0.toNat)) := by
  change execEncreg s = _
  simp only [execEncreg, hw, windowPayload_eq_window hw]

theorem exec_encreg_noWindow (hw : windowOf s.arg0 = none) : exec .encreg s = raise .invalidParameter s := by
  change execEncreg s = _
  simp only [execEncreg, hw]

theorem exec_decreg_window (hw : windowOf s.arg0 = some w) : exec .decreg s =
    if s.rlen.toNat = windowCount s.arg0.toNat then
      raise .success { s with cfg := s.cfg.withWindow s.arg0.toNat s.rbuf.read }
    else raise .dataSizeMismatch s := by
  change execDecreg s = _
  simp only [execDecreg, hw, windowStore_readBytes hw, BitVec.toNat_eq, lenByte_toNat hw]

theorem exec_decreg_noWindow (hw : windowOf s.arg0 = none) : exec .decreg s = raise .invalidParameter s := by
  change execDecreg s = _
  simp only [execDecreg, hw]

theorem exec_decinfo (s : State) : exec .decinfo s =
    if s.rlen.toNat = 6 then raise .success { s with
      info := ⟨⟨s.rbuf.read 0, s.rbuf.read 1, s.rbuf.read 2⟩, s.rbuf.read 3, s.rbuf.read 4, s.rbuf.read 5⟩ }
    else raise .dataSizeMismatch s :=
  if_congr BitVec.toNat_eq rfl rfl

end

/-! ## The obligations -/

/-- What both encoders deliver: the bytes in `TBUF` from index 0, their number in `DLEN`, and nothing else. -/
theorem raise_load_outcome (s : State) {bs : List Byte} (h : bs.length ≤ Config.bufSize) :
    ∃ t, raise .success (s.load bs) = .next t ∧
      t = { s with tbuf := t.tbuf, dlen := BitVec.ofNat 16 bs.length, status := .success, busy := 0#1, seq := .idle } ∧
      ∀ a, t.tbuf.read a = bs.getD a (s.tbuf.read a) :=
  ⟨_, rfl, rfl, Memory.read_writeBytes_zero s.tbuf bs h⟩

/-- Settles O21. -/
theorem enccfgEncodesTheFields : Obligations.EnccfgEncodesTheFields := by
  intro s
  have hlength := s.cfgBytes_length
  have hbound : s.cfgBytes.length ≤ Config.bufSize := by
    rw [hlength]
    split <;> decide
  obtain ⟨t, ht, hstate, hbytes⟩ := raise_load_outcome s hbound
  rw [hlength, apply_ite (BitVec.ofNat 16)] at hstate
  exact ⟨t, (exec_enccfg s).trans ht, hstate, hbytes⟩

/-- Settles O22. -/
theorem deccfgDecodesTheBuffer : Obligations.DeccfgDecodesTheBuffer := by
  refine fun s => ⟨fun hf hl => ?_, fun hf hl => (exec_deccfg_header hf).trans (if_pos hl), fun hl => ?_⟩
  · exact (exec_deccfg_body (by omega)).trans (if_pos hl)
  · by_cases hf : s.arg0.toNat % 2 = 1
    · rw [if_pos hf] at hl
      exact (exec_deccfg_header hf).trans (if_neg hl)
    · rw [if_neg hf] at hl
      exact (exec_deccfg_body hf).trans (if_neg hl)

/-- Settles O23. -/
theorem encregEncodesOneWindow : Obligations.EncregEncodesOneWindow := by
  refine fun s => ⟨fun h1 h5 => ?_, fun h => exec_encreg_noWindow (windowOf_eq_none h)⟩
  obtain ⟨w, hw⟩ := exists_windowOf h1 h5
  have hlength := window_length hw s.cfg
  have hbound : (s.cfg.window s.arg0.toNat).length ≤ Config.bufSize := by
    rw [hlength, windowCount]
    split <;> decide
  obtain ⟨t, ht, hstate, hbytes⟩ := raise_load_outcome s hbound
  rw [hlength] at hstate
  exact ⟨t, (exec_encreg_window hw).trans ht, hstate, hlength, hbytes⟩

/-- Settles O24. -/
theorem decregDecodesOneWindow : Obligations.DecregDecodesOneWindow := by
  refine fun s => ⟨fun h1 h5 => ?_, fun h => exec_decreg_noWindow (windowOf_eq_none h)⟩
  obtain ⟨w, hw⟩ := exists_windowOf h1 h5
  exact ⟨fun hl => (exec_decreg_window hw).trans (if_pos hl), fun hl => (exec_decreg_window hw).trans (if_neg hl)⟩

/-- Settles O25. -/
theorem decinfoDecodesTheIdentity : Obligations.DecinfoDecodesTheIdentity :=
  fun s => ⟨fun hl => (exec_decinfo s).trans (if_pos hl), fun hl => (exec_decinfo s).trans (if_neg hl)⟩

/-! ## The link (R119) -/

/-- Command `i` at `s` leaves the link alone, and answers the same whatever the link is. -/
def LinkFree (i : Instr) (s : State) : Prop :=
  ∀ l : Link, ∃ t, exec i s = .next t ∧ t.link = s.link ∧ exec i { s with link := l } = .next { t with link := l }

theorem enccfg_linkFree (s : State) : LinkFree .enccfg s :=
  fun l => ⟨_, exec_enccfg s, rfl, exec_enccfg { s with link := l }⟩

theorem deccfg_linkFree (s : State) : LinkFree .deccfg s := by
  intro l
  obtain ⟨body, header, mismatch⟩ := deccfgDecodesTheBuffer s
  obtain ⟨body', header', mismatch'⟩ := deccfgDecodesTheBuffer { s with link := l }
  by_cases hl : s.rlen.toNat = if s.arg0.toNat % 2 = 1 then 11 else 8
  · rcases Nat.mod_two_eq_zero_or_one s.arg0.toNat with hf | hf
    · rw [hf] at hl
      exact ⟨_, body hf hl, rfl, body' hf hl⟩
    · rw [hf] at hl
      exact ⟨_, header hf hl, rfl, header' hf hl⟩
  · exact ⟨_, mismatch hl, rfl, mismatch' hl⟩

theorem encreg_linkFree (s : State) : LinkFree .encreg s := by
  intro l
  cases hw : windowOf s.arg0 with
  | none => exact ⟨_, exec_encreg_noWindow hw, rfl, exec_encreg_noWindow (s := { s with link := l }) hw⟩
  | some w => exact ⟨_, exec_encreg_window hw, rfl, exec_encreg_window (s := { s with link := l }) hw⟩

theorem decreg_linkFree (s : State) : LinkFree .decreg s := by
  intro l
  cases hw : windowOf s.arg0 with
  | none => exact ⟨_, exec_decreg_noWindow hw, rfl, exec_decreg_noWindow (s := { s with link := l }) hw⟩
  | some w =>
    have decoded := exec_decreg_window hw
    have decoded' := exec_decreg_window (s := { s with link := l }) hw
    by_cases hl : s.rlen.toNat = windowCount s.arg0.toNat
    · exact ⟨_, decoded.trans (if_pos hl), rfl, decoded'.trans (if_pos hl)⟩
    · exact ⟨_, decoded.trans (if_neg hl), rfl, decoded'.trans (if_neg hl)⟩

theorem decinfo_linkFree (s : State) : LinkFree .decinfo s := by
  intro l
  obtain ⟨identity, mismatch⟩ := decinfoDecodesTheIdentity s
  obtain ⟨identity', mismatch'⟩ := decinfoDecodesTheIdentity { s with link := l }
  by_cases hl : s.rlen.toNat = 6
  · exact ⟨_, identity hl, rfl, identity' hl⟩
  · exact ⟨_, mismatch hl, rfl, mismatch' hl⟩

/-- Settles O26. -/
theorem codecCommandsNeverTouchTheLink : Obligations.CodecCommandsNeverTouchTheLink := by
  intro i s l hi
  simp only [List.mem_cons, List.not_mem_nil, or_false] at hi
  rcases hi with rfl | rfl | rfl | rfl | rfl
  · exact enccfg_linkFree s l
  · exact deccfg_linkFree s l
  · exact encreg_linkFree s l
  · exact decreg_linkFree s l
  · exact decinfo_linkFree s l

end Sys2Proof.Machine
end

section
/-! PROOFS. The Mode Controller (spec/41_mode.md): the transition table of SETMODE, the read of the recorded mode, that nothing
but SETMODE changes the mode or its pins, and what a device that is ready makes of every command that waits. -/

namespace Sys2Proof.Machine

/-! ## Mode codes and their pins (R88, R106) -/

section
variable {t : Byte}

theorem exists_requestableMode (h : t.toNat ≤ 3) : ∃ m, requestableMode t = some m := by
  unfold requestableMode
  split_ifs with h0 h1 h2 h3
  case neg =>
    simp only [BitVec.toNat_eq, BitVec.toNat_ofNat] at h0 h1 h2 h3
    omega
  all_goals exact ⟨_, rfl⟩

/-- A byte that requests a mode is at most 3 (R136). -/
theorem requestableMode_eq_none (h : 4 ≤ t.toNat) : requestableMode t = none := by
  unfold requestableMode
  split_ifs with h0 h1 h2 h3
  case neg => rfl
  all_goals
    subst t
    exact absurd h (by decide)

theorem requestableMode_three (h : t.toNat = 3) : requestableMode t = some .configuration := by
  have code : t = 3#8 := BitVec.eq_of_toNat_eq h
  rw [code]
  rfl

theorem pinM0Of_eq (t : Byte) : pinM0Of t = BitVec.ofNat 1 t.toNat := by
  rw [pinM0Of, extractLsb'_eq_ofNat_div, pow_zero, Nat.div_one]

theorem pinM1Of_eq (t : Byte) : pinM1Of t = BitVec.ofNat 1 (t.toNat / 2) := by
  rw [pinM1Of, extractLsb'_eq_ofNat_div, pow_one]

theorem pinM0Of_toNat (t : Byte) : (pinM0Of t).toNat = t.toNat % 2 := by
  rw [pinM0Of_eq, BitVec.toNat_ofNat, pow_one]

theorem pinM1Of_toNat (h : t.toNat ≤ 3) : (pinM1Of t).toNat = t.toNat / 2 := by
  rw [pinM1Of_eq, BitVec.toNat_ofNat, pow_one]
  omega

end

/-! ## The transition table (R136, R139) -/

section
variable {s : State} {t : Byte} {m : Mode}

theorem setModeTo_illegal (ht : requestableMode t = none) : setModeTo t s = raise .invalidParameter s := by
  simp only [setModeTo, ht]

/-- A request that passes both checks settles past its pin writes, and how that ends decides whether the mode is recorded
(R136, R137). The link past the pin writes is named, so that `setPins_spec` says what AUX level holds on it. -/
theorem setModeTo_settles (ht : requestableMode t = some m) (hb : t.toNat = 3 → s.linkBaud = 9600)
    (hP : 1 ≤ s.params.tPoll) : ∃ (l : Link) (vs : List Bool) (st : Status),
      WaitOutcome s.params (if s.params.auxWired then s.params.tSettleTimeout else s.params.tSettleDelay) s.params.tPoll
        (s.link.setPins s.params (pinM0Of t) (pinM1Of t)) l [] vs st ∧
      setModeTo t s = .next { s with
        link := l, mode := if st = .success then m else s.mode, status := st, busy := 0#1, seq := .idle } := by
  have speed : ¬ (m = .configuration ∧ s.linkBaud ≠ Config.cfgLinkBaud) := by
    rintro ⟨rfl, hne⟩
    exact hne (hb (requestableMode_code ht))
  obtain ⟨vs, outcome⟩ := waitComplete_outcome s.params _ s.params.tPoll
    (s.link.setPins s.params (pinM0Of t) (pinM1Of t)) hP
  refine ⟨_, vs, _, outcome, ?_⟩
  simp only [setModeTo, ht]
  rw [if_neg speed, settle_eq, State.recordMode_eq]
  rfl

end

/-- Settles O27: the code is checked, then the link speed; past both, the pins are driven and the settling decides. -/
theorem setmodeFollowsTheTransitionTable : Obligations.SetmodeFollowsTheTransitionTable := by
  refine fun s hP => ⟨fun h4 => setModeTo_illegal (requestableMode_eq_none h4),
    fun h3 hb => setModeTo_wrongBaud (requestableMode_three h3) hb, fun hle hb => ?_⟩
  obtain ⟨m, hm⟩ := exists_requestableMode hle
  obtain ⟨l, vs, st, outcome, he⟩ := setModeTo_settles hm hb hP
  obtain ⟨hm0, hm1, hhist, hticks, -, hrx, -, haux⟩ :=
    setPins_spec s.params (pinM0Of s.arg0) (pinM1Of s.arg0) s.link
  refine ⟨m, _, l, vs, st, (requestableMode_code hm).symm, hm0.trans (pinM0Of_eq _), hm1.trans (pinM1Of_eq _), ?_, hticks,
    hrx, haux, outcome, he⟩
  rw [hhist, hm0, hm1]

/-- Settles O28: the extension of the mode's code keeps its number. -/
theorem getmodeReturnsTheRecordedMode : Obligations.GetmodeReturnsTheRecordedMode := by
  intro s
  rw [BitVec.ofNat_toNat]
  rfl

/-! ## Nothing else changes the mode or its pins (R140) -/

/-- From `s` to `t` the recorded mode and both mode pins stay. -/
structure ModeKept (s t : State) : Prop where
  mode : t.mode = s.mode
  m0 : t.link.m0 = s.link.m0
  m1 : t.link.m1 = s.link.m1

section
variable {s t u : State}

theorem ModeKept.trans (f : ModeKept s t) (g : ModeKept t u) : ModeKept s u :=
  ⟨g.mode.trans f.mode, g.m0.trans f.m0, g.m1.trans f.m1⟩

/-- The schedule is no part of the mode. -/
theorem withSched_modeKept (s : State) (rest : List Move) : ModeKept s (s.withSched rest) := ⟨rfl, rfl, rfl⟩

/-- The device's point is not a pin write. -/
theorem point_modeKept (s : State) : ModeKept s (s.withLink (s.link.point s.params)) :=
  ⟨rfl, point_m0 _ _, point_m1 _ _⟩

theorem writeReg_modeKept (s : State) (r v : Nat) : ModeKept s (s.writeReg r v) := by
  rcases writeReg_cases s r v with h | ⟨n, -, h⟩ | ⟨n, -, h⟩ | ⟨_, _, _, _, _, _, _, h⟩
  all_goals
    rw [h]
    exact ⟨rfl, rfl, rfl⟩

/-- The host reads both, and writes neither (R26, R50). -/
theorem hostAccess_modeKept {a : HostAct} (h : hostAccess a s = .next t) : ModeKept s t := by
  by_cases ha : a.loc.present = true
  · cases a with
    | read l =>
      cases l with
      | reg r => cases h; exact ⟨rfl, rfl, rfl⟩
      | tbuf j | rbuf j => cases (if_pos (of_decide_eq_true ha)).symm.trans h; exact ⟨rfl, rfl, rfl⟩
    | write l v =>
      cases l with
      | reg r => cases h; exact writeReg_modeKept s r v
      | tbuf j | rbuf j => cases (if_pos (of_decide_eq_true ha)).symm.trans h; exact ⟨rfl, rfl, rfl⟩
  · rw [hostAccess_absent s ha] at h
    cases h

theorem hostDuring_modeKept {a : HostAct} (h : hostDuring a s = .next t) : ModeKept s t := by
  unfold hostDuring at h
  split at h <;> cases h
  exact ⟨rfl, rfl, rfl⟩

/-- An item that answers a next state is a frame whose bytes arrive (R71). -/
theorem runItem_next_arrives {p : Port} {bs : List Byte} (h : runItem p bs s = .next t) :
    ∃ frame, arriveAll frame s = .next t := by
  unfold runItem at h
  split at h
  · rename_i i _
    split_ifs at h with hi
    rcases (isItem_iff i).mp hi with hd | rfl
    · exact ⟨_, (exec_fromDevice s hd).symm.trans h⟩
    · cases h
  · cases h

/-- The device drives neither mode pin (R43). -/
theorem acts_pins (p : Params) (as : List DevAct) (l : Link) : (l.acts p as).m0 = l.m0 ∧ (l.acts p as).m1 = l.m1 := by
  rw [(acts_spec p as l).same]
  exact ⟨rfl, rfl⟩

theorem arriveAll_modeKept {bs : List Byte} (h : arriveAll bs s = .next t) : ModeKept s t := by
  cases h
  rw [foldl_arrive_eq_acts]
  obtain ⟨hm0, hm1⟩ := acts_pins s.params (bs.map .arrive) s.link
  exact ⟨rfl, hm0, hm1⟩

/-- Only opcode 0x20 starts SETMODE (R86). -/
theorem decodeOpcode_setmode {op : Byte} (h : decodeOpcode op = .setmode) : op = 0x20#8 := by
  have unique : ∀ row ∈ opcodeTable, row.2 = .setmode → row.1 = 0x20#8 := by decide
  rcases decodeOpcode_cases op with hm | ⟨he, -⟩
  · exact unique _ hm h
  · cases he.symm.trans h

theorem stepRun_modeKept (hseq : s.seq = .run) (hcmd : s.cmd ≠ 0x20#8) (h : step s = .next t) : ModeKept s t := by
  rcases undisturbed_or_hostNow s with hu | ⟨a, rest, hs⟩
  · rw [step_command hseq hu] at h
    obtain ⟨-, -, frame, -⟩ := exec_next (decodeOpcode_port s.cmd) h
    have other : decodeOpcode s.cmd ∉ commandsWriting 3 :=
      fun hi => hcmd (decodeOpcode_setmode (List.mem_singleton.mp hi))
    obtain ⟨hmode, hm0, hm1⟩ := frame.mode other
    exact ⟨hmode, hm0, hm1⟩
  · rw [step_run hseq, stepRun_hostNow hs] at h
    exact (withSched_modeKept s rest).trans (hostDuring_modeKept h)

theorem stepIdle_modeKept (h : stepIdle s = .next t) : ModeKept s t := by
  have access {a : HostAct} {rest : List Move} (hs : s.sched = .host a :: rest ∨ s.sched = .hostNow a :: rest) :
      ModeKept s t := by
    rw [stepIdle_host hs] at h
    exact (withSched_modeKept s rest).trans ((point_modeKept (s.withSched rest)).trans (hostAccess_modeKept h))
  cases hs : s.sched with
  | nil =>
    rw [stepIdle_nil hs] at h
    cases h
    exact point_modeKept s
  | cons m rest =>
    cases m with
    | host a => exact access (.inl hs)
    | hostNow a => exact access (.inr hs)
    | linkBaud n =>
      rw [stepIdle_linkBaud hs] at h
      cases h
      exact ⟨rfl, rfl, rfl⟩
    | wire p bs =>
      rw [stepIdle_wire hs] at h
      obtain ⟨frame, arrives⟩ := runItem_next_arrives h
      exact (withSched_modeKept s rest).trans (arriveAll_modeKept arrives)

end

/-- Settles O29: a command by its frame, whose `mode` clause names SETMODE alone; every other move touches neither. -/
theorem onlySetmodeChangesModeAndPins : Obligations.OnlySetmodeChangesModeAndPins := by
  intro s t h hcmd
  have kept : ModeKept s t := by
    cases hseq : s.seq with
    | run => exact stepRun_modeKept hseq (hcmd hseq) h
    | idle => exact stepIdle_modeKept (step_idle hseq ▸ h)
  exact ⟨kept.mode, kept.m0, kept.m1⟩

/-! ## Ready devices (R146, R239, R243) -/

/-- What a wait with AUX unwired, or ready throughout, leaves: one ready sample and no time when wired, no sample and the whole
sleep when not. -/
theorem WaitOutcome.ready_link {p : Params} {T P : Nat} {l l' : Link} {before : List Obs} {vs : List Bool} {st : Status}
    (h : WaitOutcome p T P l l' before vs st) (hr : p.auxWired = true → l.auxHolds true = true) :
    l'.hist = l.hist ++ before ++ (if p.auxWired then [.auxSample true] else []) ∧
    l'.ticks = l.ticks + (if p.auxWired then 0 else T) := by
  obtain ⟨-, hvs⟩ := h.ready hr
  obtain ⟨hhist, -, -, -, -, -, unwired, wired⟩ := h
  cases hw : p.auxWired with
  | false =>
    obtain ⟨hnil, -, hticks⟩ := unwired hw
    rw [hnil] at hhist
    exact ⟨hhist, hticks⟩
  | true =>
    obtain ⟨-, -, -, hticks, -⟩ := wired hw
    rw [hw, if_pos rfl] at hvs
    rw [hvs] at hhist hticks
    exact ⟨hhist, by simpa using hticks⟩

variable {s : State}

/-- WAITCOMPLETE with a polling interval is one completion wait (R146, R154). -/
theorem exec_waitcomplete_outcome (hp : 1 ≤ s.argp) : ∃ (l : Link) (vs : List Bool) (st : Status),
    WaitOutcome s.params s.argt s.argp s.link l [] vs st ∧
    exec .waitcomplete s = .next { s with link := l, status := st, busy := 0#1, seq := .idle } := by
  obtain ⟨vs, outcome⟩ := waitComplete_outcome s.params s.argt s.argp s.link hp
  exact ⟨_, vs, _, outcome, if_neg (Nat.ne_of_gt hp)⟩

/-- A request that passes both checks, the device being ready: both pins are driven and the mode is recorded. -/
theorem setModeTo_ready {t : Byte} {m : Mode} (ht : requestableMode t = some m) (hb : t.toNat = 3 → s.linkBaud = 9600)
    (hP : 1 ≤ s.params.tPoll) (hr : s.params.auxWired = true → s.link.auxHolds true = true) : ∃ l : Link,
      l.m0 = pinM0Of t ∧ l.m1 = pinM1Of t ∧
      l.hist = s.link.hist ++ [.pinM0 l.m0, .pinM1 l.m1] ++ (if s.params.auxWired then [.auxSample true] else []) ∧
      l.ticks = s.link.ticks + (if s.params.auxWired then 0 else s.params.tSettleDelay) ∧
      setModeTo t s = .next { s with link := l, mode := m, status := .success, busy := 0#1, seq := .idle } := by
  obtain ⟨l, vs, st, outcome, he⟩ := setModeTo_settles ht hb hP
  obtain ⟨driven0, driven1, drivenHist, drivenTicks, -, -, -, haux⟩ :=
    setPins_spec s.params (pinM0Of t) (pinM1Of t) s.link
  have ready := fun hw => haux true (hr hw)
  obtain ⟨rfl, -⟩ := outcome.ready ready
  obtain ⟨hhist, hticks⟩ := outcome.ready_link ready
  obtain ⟨-, -, kept0, kept1, -⟩ := outcome
  have hm0 : l.m0 = pinM0Of t := kept0.trans driven0
  have hm1 : l.m1 = pinM1Of t := kept1.trans driven1
  refine ⟨l, hm0, hm1, ?_, ?_, he⟩
  · rw [hhist, drivenHist, hm0, hm1, List.append_nil]
  · rw [hticks, drivenTicks]
    cases s.params.auxWired <;> rfl

/-- Settles O40: each of the commands is one wait after its pin writes or its frame, and the wait succeeds. -/
theorem readyDevicesLetWaitingCommandsSucceed : Obligations.ReadyDevicesLetWaitingCommandsSucceed := by
  refine fun s hP hr => ⟨fun hle hb => ?_, fun hp => ?_, fun i limit frame hi hfits => ?_⟩
  · obtain ⟨m, hm⟩ := exists_requestableMode hle
    obtain ⟨l, hm0, hm1, hhist, hticks, he⟩ := setModeTo_ready hm hb hP hr
    exact ⟨l, m, (requestableMode_code hm).symm, hhist, hm0 ▸ pinM0Of_toNat s.arg0, hm1 ▸ pinM1Of_toNat hle, hticks, he⟩
  · obtain ⟨l, vs, st, outcome, he⟩ := exec_waitcomplete_outcome hp
    obtain ⟨rfl, -⟩ := outcome.ready hr
    obtain ⟨hhist, hticks⟩ := outcome.ready_link hr
    rw [List.append_nil] at hhist
    exact ⟨l, hhist, hticks, he⟩
  · obtain ⟨-, sends⟩ := sendsTransmitOneWholeFrameThenWait i s limit frame hi hP
    obtain ⟨l, vs, st, outcome, he⟩ := sends hfits
    obtain ⟨rfl, -⟩ := outcome.ready hr
    obtain ⟨hhist, hticks⟩ := outcome.ready_link hr
    exact ⟨l, hhist, hticks, he⟩

end Sys2Proof.Machine
end

section
/-! PROOFS. The completion wait and the receives as commands (spec/42_transport.md R147, R153, R154; spec/43_messaging.md R168,
R169, R172, R174): one lemma for the way each goes past its operand checks, and what bytes that are already buffered make of
it. -/

namespace Sys2Proof.Machine

/-! ## Statuses of a read that is whole (R145, R149) -/

section
variable {got : List Byte} {n : Nat}

theorem shortRead_whole (hl : got.length = n) : shortRead got n = .success := if_pos hl

theorem readStatus_whole (hl : got.length = n) : readStatus got n = .success := by
  rw [readStatus, shortRead_whole hl, ite_self]

theorem headStatus_whole {h : Byte} (hl : got.length = n) (hh : got.head? = some h) (m : Status) :
    headStatus got n h m = .success := by
  simp only [headStatus, shortRead_whole hl, hh, ne_eq, not_true_eq_false, if_true, if_false]

end

/-! ## Bytes already buffered (R147, R172, R174) -/

/-- From `l` to `l'` no time passed, and what is buffered is `rest` and then later arrivals. -/
structure LeavesAtOnce (l l' : Link) (rest : List Byte) : Prop where
  ticks : l'.ticks = l.ticks
  rx : ∃ extra, l'.rxfifo = rest ++ extra

section
variable {p : Params} {n T : Nat} {l l' : Link} {got bs rest : List Byte}

/-- What takes the oldest bytes, in order, and at once where enough are buffered, takes exactly those asked for: the two
clauses that `ReadOutcome` and `DrainOutcome` share. -/
theorem takes_buffered (hrx : l.rxfifo = bs ++ rest) (hn : bs.length = n)
    (order : ∃ extra, got ++ l'.rxfifo = l.rxfifo ++ extra ∧ (l.noArrivals = true → extra = []))
    (buffered : n ≤ l.rxfifo.length → got = l.rxfifo.take n ∧ l'.ticks = l.ticks) :
    got = bs ∧ LeavesAtOnce l l' rest := by
  subst hn
  obtain ⟨extra, hx, -⟩ := order
  rw [hrx] at hx buffered
  obtain ⟨hgot, ticks⟩ := buffered (List.length_append ▸ Nat.le_add_right _ _)
  rw [List.take_left] at hgot
  subst hgot
  exact ⟨rfl, ticks, extra, List.append_cancel_left (hx.trans (List.append_assoc _ _ _))⟩

theorem ReadOutcome.buffered (h : ReadOutcome n T l l' got) (hrx : l.rxfifo = bs ++ rest) (hn : bs.length = n) :
    got = bs ∧ LeavesAtOnce l l' rest := by
  obtain ⟨-, -, -, -, order, buffered, -⟩ := h
  exact takes_buffered hrx hn order buffered

theorem DrainOutcome.buffered (h : DrainOutcome p n T l l' got) (hrx : l.rxfifo = bs ++ rest) (hn : bs.length = n) :
    got = bs ∧ LeavesAtOnce l l' rest := by
  obtain ⟨-, -, -, -, order, buffered, -⟩ := h
  exact takes_buffered hrx hn order buffered

/-- A read of one byte takes the head of the FIFO. -/
theorem readExactly_head {b : Byte} (p : Params) (T : Nat) (hrx : l.rxfifo = b :: rest) :
    ∃ l1, readExactly p 1 T l = ([b], l1) ∧ LeavesAtOnce l l1 rest := by
  obtain ⟨l1, he, flow, rx⟩ := readExactly_buffered p T l [b] rest hrx
  exact ⟨l1, he, Nat.le_antisymm flow.ticks flow.ticksLow, rx⟩

/-- The loop of RECVUNTIL reads byte by byte up to the delimiter, which it consumes and does not store (R174). -/
theorem untilLoop_buffered {d : Byte} {room : Nat} (hrx : l.rxfifo = bs ++ d :: rest) (hd : d ∉ bs)
    (hroom : bs.length < room) (got : List Byte) :
    ∃ l1, untilLoop p d room got l = (.success, got ++ bs, l1) ∧ LeavesAtOnce l l1 rest := by
  induction bs generalizing room got l rest with
  | nil =>
    cases room with
    | zero => exact absurd hroom (Nat.not_lt_zero _)
    | succ room =>
      obtain ⟨l1, he, leaves⟩ := readExactly_head p p.tReadTimeout hrx
      refine ⟨l1, ?_, leaves⟩
      simp only [untilLoop, he, if_true, List.append_nil]
  | cons b bs ih =>
    cases room with
    | zero => exact absurd hroom (Nat.not_lt_zero _)
    | succ room =>
      obtain ⟨hb, hbs⟩ := not_or.mp (mt List.mem_cons.mpr hd)
      obtain ⟨l1, he, ticks, extra, hx⟩ := readExactly_head p p.tReadTimeout hrx
      have next : l1.rxfifo = bs ++ d :: (rest ++ extra) := hx.trans (List.append_assoc bs (d :: rest) extra)
      obtain ⟨l2, h2, ticks2, extra2, hx2⟩ := ih next hbs (Nat.lt_of_succ_lt_succ hroom) (got ++ [b])
      refine ⟨l2, ?_, ticks2.trans ticks, extra ++ extra2, hx2.trans (List.append_assoc _ _ _)⟩
      simp only [untilLoop, he, if_neg (Ne.symm hb), h2, List.append_assoc, List.singleton_append]

end

/-! ## The receives past their operand checks -/

/-- `RLEN` of a delivery that is as long as its size operand. -/
theorem ofNat_length_eq {x : Byte} {bs : List Byte} (h : x.toNat = bs.length) : BitVec.ofNat 8 bs.length = x := by
  rw [← h, BitVec.ofNat_toNat, BitVec.setWidth_eq]

theorem State.deliver_eq (s : State) {x : Byte} {bs : List Byte} (h : x.toNat = bs.length) :
    s.deliver bs = { s with rbuf := s.rbuf.writeBytes 0 bs, rlen := x } := by
  rw [State.deliver, ofNat_length_eq h]

/-- The last byte delivered is the RSSI byte (R169, R172). -/
theorem State.receivedRssi_concat (s : State) (bs : List Byte) (r : Byte) :
    s.receivedRssi .success (bs ++ [r]) = (s.deliver bs).setRssi r := by
  rw [State.receivedRssi_success, List.dropLast_concat, List.getLastD_concat]

section
variable {s : State}

theorem not_sizeTooLarge {x : Byte} (h : x.toNat ≤ 200) : ¬ sizeTooLarge x = true :=
  fun hbig => Nat.not_lt.mpr h ((sizeTooLarge_iff x).mp hbig)

theorem size_ne_zero {x : Byte} (h : 1 ≤ x.toNat) : x ≠ 0#8 :=
  fun h0 => Nat.ne_of_gt h (congrArg BitVec.toNat h0)

theorem exec_recvstruct_empty (h : s.arg0.toNat = 0) : exec .recvstruct s = raise .invalidParameter s :=
  if_pos (BitVec.eq_of_toNat_eq h)

theorem exec_recvstruct_tooLarge (h : 200 < s.arg0.toNat) : exec .recvstruct s = raise .bufferTooSmall s :=
  (if_neg (size_ne_zero (Nat.one_le_of_lt h))).trans (if_pos ((sizeTooLarge_iff _).mpr h))

/-- RECVSTRUCT of a legal size is one read, whose length and head decide the status (R149, R153). -/
theorem exec_recvstruct_reads (h1 : 1 ≤ s.arg0.toNat) (h200 : s.arg0.toNat ≤ 200) : ∃ (l : Link) (got : List Byte),
    ReadOutcome s.arg0.toNat s.params.tReadTimeout s.link l got ∧
    exec .recvstruct s = raise (headStatus got s.arg0.toNat s.arg1 .headNotRecognized)
      ((s.withLink l).received (headStatus got s.arg0.toNat s.arg1 .headNotRecognized) got) := by
  refine ⟨_, _, readExactly_outcome s.params s.arg0.toNat s.params.tReadTimeout s.link, ?_⟩
  change execRecvstruct s = _
  rw [execRecvstruct, if_neg (size_ne_zero h1), if_neg (not_sizeTooLarge h200), receiveStruct_eq]

/-- RECVMSG of a legal size is one read (R168). -/
theorem exec_recvmsg_reads (h200 : s.arg0.toNat ≤ 200) : ∃ (l : Link) (got : List Byte),
    ReadOutcome s.arg0.toNat s.params.tReadTimeout s.link l got ∧
    exec .recvmsg s = raise (readStatus got s.arg0.toNat)
      ((s.clearRssi.withLink l).received (readStatus got s.arg0.toNat) got) :=
  ⟨_, _, readExactly_outcome _ _ _ _, if_neg (not_sizeTooLarge h200)⟩

/-- RECVMSGRSSI of a legal size is one read of a byte more (R169). -/
theorem exec_recvmsgrssi_reads (h200 : s.arg0.toNat ≤ 200) : ∃ (l : Link) (got : List Byte),
    ReadOutcome (s.arg0.toNat + 1) s.params.tReadTimeout s.link l got ∧
    exec .recvmsgrssi s = raise (shortRead got (s.arg0.toNat + 1))
      ((s.clearRssi.withLink l).receivedRssi (shortRead got (s.arg0.toNat + 1)) got) :=
  ⟨_, _, readExactly_outcome _ _ _ _, if_neg (not_sizeTooLarge h200)⟩

/-- RECVCOMPLETE of a legal size is one drain, of a byte more when the RSSI flag asks for it (R172). -/
theorem exec_recvcomplete_drains (h200 : s.arg0.toNat ≤ 200) : ∃ (l : Link) (got : List Byte),
    DrainOutcome s.params (s.arg0.toNat + s.arg1.toNat % 2) s.params.tQuiesce s.link l got ∧
    exec .recvcomplete s =
      if got.length = 0 ∧ 0 < s.arg0.toNat + s.arg1.toNat % 2 then
        raise .noResponseFromDevice (s.clearRssi.withLink l).failReceive
      else if s.arg1.toNat % 2 = 1 ∧ 1 ≤ got.length then
        raise .success ((s.clearRssi.withLink l).receivedRssi .success got)
      else raise .success ((s.clearRssi.withLink l).deliver got) := by
  obtain ⟨got, hgot, outcome⟩ := completeLoop_outcome s.params (s.arg0.toNat + s.arg1.toNat % 2) [] s.link
  rw [List.nil_append] at hgot
  subst hgot
  refine ⟨_, _, outcome, ?_⟩
  change execRecvcomplete s = _
  simp only [execRecvcomplete, if_neg (not_sizeTooLarge h200), s.rssiFlag_toNat, s.rssiFlag_iff,
    State.receivedRssi_success]

end

/-! ## The obligations -/

/-- Settles O30. -/
theorem waitcompleteFollowsTheSchedule : Obligations.WaitcompleteFollowsTheSchedule :=
  fun _ => ⟨fun h0 => if_pos h0, exec_waitcomplete_outcome⟩

/-- Settles O33: the read's status decides between a delivery and a failed receive. -/
theorem recvstructReadsAFramedReply : Obligations.RecvstructReadsAFramedReply := by
  refine fun s => ⟨exec_recvstruct_empty, exec_recvstruct_tooLarge, fun h1 h200 => ?_⟩
  obtain ⟨l, got, outcome, he⟩ := exec_recvstruct_reads h1 h200
  have hle : got.length ≤ s.arg0.toNat := outcome.1
  have status := headStatus_eq_framedStatus h1 hle s.arg1 .headNotRecognized
  by_cases hs : headStatus got s.arg0.toNat s.arg1 .headNotRecognized = .success
  · have hl := length_of_headStatus hs
    rw [hs, State.received_success, State.deliver_eq _ hl.symm] at he
    exact ⟨_, got, he, outcome, hs.symm.trans status,
      fun _ => ⟨rfl, Memory.read_writeBytes_zero _ _ (hl.trans_le h200)⟩, fun hn => absurd rfl hn⟩
  · rw [State.received_failed hs] at he
    exact ⟨_, got, he, outcome, status, fun hn => absurd hn hs, fun _ => rfl⟩

section
variable {s : State} {bs rest : List Byte} {r : Byte}

/-- RECVMSGRSSI of a payload and an RSSI byte that are buffered (R169). -/
theorem exec_recvmsgrssi_buffered (hrx : s.link.rxfifo = bs ++ r :: rest) (hl : bs.length ≤ 200)
    (hn : s.arg0.toNat = bs.length) : ∃ l, LeavesAtOnce s.link l rest ∧
      exec .recvmsgrssi s = raise .success (((s.clearRssi.withLink l).deliver bs).setRssi r) := by
  have whole : (bs ++ [r]).length = s.arg0.toNat + 1 := by rw [hn, List.length_append, List.length_singleton]
  obtain ⟨l, got, outcome, he⟩ := exec_recvmsgrssi_reads (hn.trans_le hl)
  obtain ⟨rfl, leaves⟩ := outcome.buffered (bs := bs ++ [r]) (hrx.trans (List.append_cons _ _ _)) whole
  rw [shortRead_whole whole, State.receivedRssi_concat] at he
  exact ⟨l, leaves, he⟩

/-- RECVCOMPLETE with the RSSI flag, of a payload and an RSSI byte that are buffered (R172). -/
theorem exec_recvcomplete_buffered (hrx : s.link.rxfifo = bs ++ r :: rest) (hl : bs.length ≤ 200)
    (hn : s.arg0.toNat = bs.length) (hf : s.arg1.toNat % 2 = 1) : ∃ l, LeavesAtOnce s.link l rest ∧
      exec .recvcomplete s = raise .success (((s.clearRssi.withLink l).deliver bs).setRssi r) := by
  have whole : (bs ++ [r]).length = s.arg0.toNat + s.arg1.toNat % 2 := by
    rw [hn, hf, List.length_append, List.length_singleton]
  have nonempty : 1 ≤ (bs ++ [r]).length := by rw [List.length_append]; exact Nat.le_add_left _ _
  obtain ⟨l, got, outcome, he⟩ := exec_recvcomplete_drains (hn.trans_le hl)
  obtain ⟨rfl, leaves⟩ := outcome.buffered (bs := bs ++ [r]) (hrx.trans (List.append_cons _ _ _)) whole
  rw [if_neg fun hnone => Nat.ne_of_gt nonempty hnone.1, if_pos ⟨hf, nonempty⟩, State.receivedRssi_concat] at he
  exact ⟨l, leaves, he⟩

/-- What a delivery of payload and RSSI byte leaves, whichever command made it. -/
theorem deliveredRssi_outcome {i : Instr} (hl : bs.length ≤ 200) (hn : s.arg0.toNat = bs.length)
    (h : ∃ l, LeavesAtOnce s.link l rest ∧
      exec i s = raise .success (((s.clearRssi.withLink l).deliver bs).setRssi r)) :
    ∃ t, exec i s = .next t ∧ t.status = .success ∧ t.rlen = s.arg0 ∧ t.rssi = r ∧ t.rssiValid = 1#1 ∧
      (∀ a, t.rbuf.read a = bs.getD a (s.rbuf.read a)) ∧ t.link.ticks = s.link.ticks ∧
      ∃ extra, t.link.rxfifo = rest ++ extra := by
  obtain ⟨l, ⟨ticks, rx⟩, he⟩ := h
  exact ⟨_, he, rfl, ofNat_length_eq hn, rfl, rfl, Memory.read_writeBytes_zero _ _ hl, ticks, rx⟩

end

/-- Settles O41: each receive takes exactly the bytes that are buffered for it, so its read is whole and is delivered. -/
theorem bufferedReceivesSucceedAtOnce : Obligations.BufferedReceivesSucceedAtOnce := by
  refine fun s bs rest hmax => ⟨fun hrx hl hn hhead => ?_, fun hrx hl hn => ?_,
    fun r hrx hl hn => deliveredRssi_outcome hl hn (exec_recvmsgrssi_buffered hrx hl hn),
    fun r hrx hl hn hf => deliveredRssi_outcome hl hn (exec_recvcomplete_buffered hrx hl hn hf),
    fun hrx hd hroom => ?_⟩
  · have hpos : 1 ≤ bs.length := List.length_pos_of_mem (List.mem_of_mem_head? hhead)
    obtain ⟨l, got, outcome, he⟩ := exec_recvstruct_reads (hpos.trans_eq hn.symm) (hn.trans_le hl)
    obtain ⟨rfl, ticks, rx⟩ := outcome.buffered hrx hn.symm
    rw [headStatus_whole hn.symm hhead, State.received_success] at he
    exact ⟨_, he, rfl, ofNat_length_eq hn, Memory.read_writeBytes_zero _ _ hl, ticks, rx⟩
  · obtain ⟨l, got, outcome, he⟩ := exec_recvmsg_reads (hn.trans_le hl)
    obtain ⟨rfl, ticks, rx⟩ := outcome.buffered hrx hn.symm
    rw [readStatus_whole hn.symm, State.received_success] at he
    exact ⟨_, he, rfl, ofNat_length_eq hn, rfl, Memory.read_writeBytes_zero _ _ hl, ticks, rx⟩
  · obtain ⟨l, he, ticks, rx⟩ := untilLoop_buffered (p := s.params) hrx hd hroom []
    have hl : bs.length ≤ 200 := hroom.le.trans hmax
    have next : exec .recvuntil s = raise .success ((s.clearRssi.withLink l).deliver bs) := by
      change execRecvuntil s = _
      rw [execRecvuntil, he]
      rfl
    have hrlen : (BitVec.ofNat 8 bs.length).toNat = bs.length := by
      rw [BitVec.toNat_ofNat]
      exact Nat.mod_eq_of_lt (hl.trans_lt (by decide))
    exact ⟨_, next, rfl, hrlen, rfl, Memory.read_writeBytes_zero _ _ hl, ticks, rx⟩

end Sys2Proof.Machine
end

section
/-! PROOFS. The Messaging Layer (spec/43_messaging.md): what each receive delivers and what a short one leaves (R168, R169, R172,
R174), the count of AVAILABLE (R175), and that no messaging command reads `MODE` (R176). -/

namespace Sys2Proof.Machine

/-! ## Statuses of a short read (R145, R168) -/

section
variable {got : List Byte} {n : Nat}

theorem shortRead_short (h : got.length < n) :
    shortRead got n = if got = [] then .noResponseFromDevice else .dataSizeMismatch := by
  rw [shortRead, if_neg h.ne]
  exact if_congr List.length_eq_zero_iff rfl rfl

theorem shortRead_short_failed (h : got.length < n) : shortRead got n ≠ .success := by
  rw [shortRead_short h]
  split <;> decide

theorem readStatus_of_pos (h : 0 < n) (got : List Byte) : readStatus got n = shortRead got n := if_neg h.ne'

end

/-! ## Deliveries (R35, R169) -/

/-- What RECVMSGRSSI and RECVCOMPLETE deliver, by place: the last byte to `RSSI`, those before it to `RBUF` (R169, R172). -/
theorem State.receivedRssi_eq (s : State) (got : List Byte) :
    s.receivedRssi .success got =
      { s with rbuf := s.rbuf.writeBytes 0 (got.take (got.length - 1)), rlen := BitVec.ofNat 8 (got.length - 1),
               rssi := got.getD (got.length - 1) 0#8, rssiValid := 1#1 } := by
  rw [State.receivedRssi_success, State.deliver, State.setRssi, List.length_dropLast, List.dropLast_eq_take,
    List.getLastD_eq_getLast?, List.getLast?_eq_getElem?, List.getD_eq_getElem?_getD]

/-! ## The receives -/

/-- The size check the three receives of a given size begin with (R167). -/
theorem sizeCheck_refuses {x : Byte} {refusal receive : Answer} (h : 200 < x.toNat) :
    (if sizeTooLarge x then refusal else receive) = refusal := if_pos ((sizeTooLarge_iff x).mpr h)

/-- RECVUNTIL is one run of its loop, whose bytes are delivered however it ends (R174, R201). -/
theorem exec_recvuntil_reads (s : State) : ∃ (l : Link) (got tail : List Byte) (st : Status),
    UntilOutcome s.params s.arg0 s.params.nUntilMax s.params.tReadTimeout s.link l got tail st ∧
    exec .recvuntil s = raise st ((s.clearRssi.withLink l).deliver got) := by
  obtain ⟨got, tail, hgot, outcome⟩ := untilLoop_outcome s.params s.arg0 s.params.nUntilMax [] s.link
  rw [List.nil_append] at hgot
  subst hgot
  exact ⟨_, _, tail, _, outcome, rfl⟩

/-- What a delimited receive stores is within its bound (R174). -/
theorem UntilOutcome.length_le {p : Params} {d : Byte} {N Q : Nat} {l l' : Link} {got tail : List Byte} {st : Status}
    (h : UntilOutcome p d N Q l l' got tail st) : got.length ≤ N := by
  obtain ⟨-, -, -, -, -, ending, -⟩ := h
  rcases ending with ⟨-, -, delimiter⟩ | ⟨-, -, bound⟩ | ⟨-, -, timeout, -⟩
  · exact delimiter.le
  · exact bound.le
  · exact timeout.le

/-- Settles O34: the read is whole and is delivered, or is short and fails the receive. -/
theorem recvmsgReadsExactlyItsSize : Obligations.RecvmsgReadsExactlyItsSize := by
  refine fun s => ⟨sizeCheck_refuses, fun h200 => ?_⟩
  obtain ⟨l, got, outcome, he⟩ := exec_recvmsg_reads h200
  rcases outcome.1.eq_or_lt with whole | short
  · rw [readStatus_whole whole, State.received_success, State.deliver_eq _ whole.symm] at he
    exact ⟨_, got, he, outcome,
      fun _ => ⟨rfl, Memory.read_writeBytes_zero _ _ (whole.trans_le h200)⟩, fun hlt => absurd whole hlt.ne⟩
  · rw [readStatus_of_pos (Nat.zero_lt_of_lt short), State.received_failed (shortRead_short_failed short),
      shortRead_short short] at he
    exact ⟨_, got, he, outcome, fun heq => absurd heq short.ne, fun _ => rfl⟩

/-- Settles O35: as RECVMSG of a byte more, whose last byte is the RSSI byte. -/
theorem recvmsgrssiTakesTheLastByteAsRssi : Obligations.RecvmsgrssiTakesTheLastByteAsRssi := by
  refine fun s => ⟨sizeCheck_refuses, fun h200 => ?_⟩
  obtain ⟨l, got, outcome, he⟩ := exec_recvmsgrssi_reads h200
  rcases outcome.1.eq_or_lt with whole | short
  · have payload : got.length - 1 = s.arg0.toNat := by rw [whole, Nat.add_sub_cancel]
    have fits : (got.take s.arg0.toNat).length ≤ 200 := (List.length_take_le _ _).trans h200
    rw [shortRead_whole whole, State.receivedRssi_eq, payload, BitVec.ofNat_toNat, BitVec.setWidth_eq] at he
    exact ⟨_, got, he, outcome,
      fun _ => ⟨rfl, Memory.read_writeBytes_zero _ _ fits⟩, fun hlt => absurd whole hlt.ne⟩
  · rw [State.receivedRssi_failed (shortRead_short_failed short), shortRead_short short] at he
    exact ⟨_, got, he, outcome, fun heq => absurd heq short.ne, fun _ => rfl⟩

/-- Settles O36: after the drain nothing obtained, an RSSI byte at the end, or payload only. -/
theorem recvcompleteDrainsUntilQuiet : Obligations.RecvcompleteDrainsUntilQuiet := by
  refine fun s => ⟨sizeCheck_refuses, fun h200 => ?_⟩
  obtain ⟨l, got, outcome, he⟩ := exec_recvcomplete_drains h200
  have hle : got.length ≤ s.arg0.toNat + s.arg1.toNat % 2 := outcome.1
  by_cases nothing : got.length = 0 ∧ 0 < s.arg0.toNat + s.arg1.toNat % 2
  · rw [if_pos nothing] at he
    obtain ⟨empty, wanted⟩ := nothing
    have nil : got = [] := List.length_eq_zero_iff.mp empty
    refine ⟨_, got, he, outcome, fun _ _ => rfl, fun hgot => absurd nil hgot, fun h even => ?_⟩
    rcases h with hgot | zero
    · exact absurd nil hgot
    · omega
  · rw [if_neg nothing] at he
    by_cases last : s.arg1.toNat % 2 = 1 ∧ 1 ≤ got.length
    · rw [if_pos last, State.receivedRssi_eq] at he
      obtain ⟨flag, nonempty⟩ := last
      have fits : (got.take (got.length - 1)).length ≤ 200 := (List.length_take_le _ _).trans (by omega)
      exact ⟨_, got, he, outcome, fun nil => absurd nil (List.ne_nil_of_length_pos nonempty),
        fun _ _ => ⟨rfl, Memory.read_writeBytes_zero _ _ fits⟩, fun _ even => by omega⟩
    · rw [if_neg last] at he
      have fits : got.length ≤ 200 := by omega
      exact ⟨_, got, he, outcome, fun nil wanted => absurd ⟨List.length_eq_zero_iff.mpr nil, wanted⟩ nothing,
        fun hgot flag => absurd ⟨flag, List.length_pos_iff.mpr hgot⟩ last,
        fun _ _ => ⟨rfl, Memory.read_writeBytes_zero _ _ fits⟩⟩

/-- Settles O37: the loop's outcome is the command's, and what it stored is delivered. -/
theorem recvuntilStopsAtTheDelimiter : Obligations.RecvuntilStopsAtTheDelimiter := by
  intro s hmax
  obtain ⟨l, got, tail, st, outcome, he⟩ := exec_recvuntil_reads s
  have fits : got.length ≤ 200 := outcome.length_le.trans hmax
  have hrlen : (BitVec.ofNat 8 got.length).toNat = got.length := by
    rw [BitVec.toNat_ofNat]
    exact Nat.mod_eq_of_lt (fits.trans_lt (by decide))
  exact ⟨_, got, tail, he, outcome, rfl, hrlen, Memory.read_writeBytes_zero _ _ fits⟩

/-! ## AVAILABLE (R175) -/

/-- Settles O38: the only thing that happens to the link is the point of the sample. -/
theorem availableCountsAndConsumesNothing : Obligations.AvailableCountsAndConsumesNothing := by
  intro s
  have sampled := point_flow s.params s.link
  refine ⟨s.link.point s.params, sampled.rx, ?_, sampled.m0, sampled.m1, ?_, rfl⟩
  · rw [sampled.hist, List.append_nil]
  · exact Nat.le_antisymm sampled.ticks sampled.ticksLow

/-! ## The mode (R176) -/

/-- The answers `a` and `a'` are next states, equal but that the second's `MODE` is `m`. -/
def SameButMode (m : Mode) (a a' : Answer) : Prop := ∃ t, a = .next t ∧ a' = .next { t with mode := m }

section
variable {s t t' : State} {m : Mode}

theorem SameButMode.raise (st : Status) (h : t' = { t with mode := m }) :
    SameButMode m (raise st t) (raise st t') := ⟨_, rfl, by rw [h]; rfl⟩

theorem SameButMode.ite {c : Prop} [Decidable c] {a a' b b' : Answer} (ha : SameButMode m a a')
    (hb : SameButMode m b b') : SameButMode m (if c then a else b) (if c then a' else b') := by
  split
  · exact ha
  · exact hb

variable (s m)

theorem received_sameButMode (st : Status) (bs : List Byte) :
    SameButMode m (raise st (s.received st bs)) (raise st (State.received st bs { s with mode := m })) :=
  .raise st (by unfold State.received; split <;> rfl)

theorem receivedRssi_sameButMode (st : Status) (bs : List Byte) :
    SameButMode m (raise st (s.receivedRssi st bs)) (raise st (State.receivedRssi st bs { s with mode := m })) :=
  .raise st (by unfold State.receivedRssi; split <;> rfl)

theorem sendFrame_sameButMode (bs : List Byte) :
    SameButMode m (sendFrame bs s) (sendFrame bs { s with mode := m }) := .raise _ rfl

/-- A send takes its limit and its frame from registers other than `MODE`. -/
theorem send_sameButMode {i : Instr} {limit : Nat} {frame : List Byte} (h : sendTable i s = some (limit, frame))
    (h' : sendTable i { s with mode := m } = some (limit, frame)) :
    SameButMode m (exec i s) (exec i { s with mode := m }) := by
  rw [exec_send h, exec_send h']
  exact .ite (.raise _ rfl) (sendFrame_sameButMode s m frame)

theorem recvmsg_sameButMode : SameButMode m (exec .recvmsg s) (exec .recvmsg { s with mode := m }) :=
  .ite (.raise _ rfl) (received_sameButMode (s.clearRssi.withLink _) m _ _)

theorem recvmsgrssi_sameButMode : SameButMode m (exec .recvmsgrssi s) (exec .recvmsgrssi { s with mode := m }) :=
  .ite (.raise _ rfl) (receivedRssi_sameButMode (s.clearRssi.withLink _) m _ _)

theorem recvcomplete_sameButMode : SameButMode m (exec .recvcomplete s) (exec .recvcomplete { s with mode := m }) :=
  .ite (.raise _ rfl) (.ite (.raise _ rfl) (.ite (.raise _ rfl) (.raise _ rfl)))

theorem recvuntil_sameButMode : SameButMode m (exec .recvuntil s) (exec .recvuntil { s with mode := m }) :=
  .raise _ rfl

theorem available_sameButMode : SameButMode m (exec .available s) (exec .available { s with mode := m }) :=
  .raise _ rfl

end

/-- Settles O39: command by command, the checks, the link's part and the delivery read other registers only. -/
theorem messagingNeverReadsMode : Obligations.MessagingNeverReadsMode := by
  intro i s m hi
  simp only [List.mem_cons, List.not_mem_nil, or_false] at hi
  rcases hi with rfl | rfl | rfl | rfl | rfl | rfl | rfl | rfl
  · exact send_sameButMode s m rfl rfl
  · exact send_sameButMode s m rfl rfl
  · exact send_sameButMode s m rfl rfl
  · exact recvmsg_sameButMode s m
  · exact recvmsgrssi_sameButMode s m
  · exact recvcomplete_sameButMode s m
  · exact recvuntil_sameButMode s m
  · exact available_sameButMode s m

end Sys2Proof.Machine
end

section
/-! PROOFS. The two configuration commands with no exchange (spec/44_config.md): RESETMOD, which is not implemented (R184), and
SENDCFGMSG, which under a program command is the remote configuration message of its operands (R110, R185). -/

namespace Sys2Proof.Machine

/-! ## RESETMOD (R184) -/

/-- Settles O45. -/
theorem resetmodIsNotImplemented : Obligations.ResetmodIsNotImplemented := fun _ => rfl

/-! ## Program commands (R90) -/

/-- A byte is one of the three program commands and names one, or it is none of them and names none. -/
theorem progCmdOf_cases (b : Byte) :
    (b = 0xC0#8 ∨ b = 0xC1#8 ∨ b = 0xC2#8) ∧ (∃ q, progCmdOf b = some q) ∨
    ¬ (b = 0xC0#8 ∨ b = 0xC1#8 ∨ b = 0xC2#8) ∧ progCmdOf b = none := by
  by_cases h : b = 0xC0#8 ∨ b = 0xC1#8 ∨ b = 0xC2#8
  · refine .inl ⟨h, ?_⟩
    rcases h with rfl | rfl | rfl <;> exact ⟨_, rfl⟩
  · obtain ⟨h0, h1, h2⟩ := by simpa only [not_or] using h
    exact .inr ⟨h, (if_neg h0).trans ((if_neg h1).trans (if_neg h2))⟩

/-! ## SENDCFGMSG (R185) -/

/-- A transmission that is not waited for: the bytes on the link, no sample, no time and nothing consumed (R66). -/
theorem raise_txWrite_outcome (s : State) (bs : List Byte) : ∃ l : Link,
    l.hist = s.link.hist ++ bs.map .tx ∧ (∃ extra, l.rxfifo = s.link.rxfifo ++ extra) ∧
    l.m0 = s.link.m0 ∧ l.m1 = s.link.m1 ∧ l.ticks = s.link.ticks ∧
    raise .success (s.withLink (s.link.txWrite s.params bs)) =
      .next { s with link := l, status := .success, busy := 0#1, seq := .idle } := by
  have f := txWrite_flow s.params bs s.link
  obtain ⟨extra, hrx, -⟩ := f.rx
  rw [taken_map_tx, List.nil_append] at hrx
  exact ⟨_, f.hist, ⟨extra, hrx⟩, f.m0, f.m1, Nat.le_antisymm f.ticks f.ticksLow, rfl⟩

variable {s : State}

/-- Under a program command SENDCFGMSG is the remote configuration message of its operands (R110). -/
theorem exec_sendcfgmsg_of_progCmd {q : ProgCmd} (hq : progCmdOf s.arg3 = some q) :
    exec .sendcfgmsg s = exec (.msgRemoteCfg s.arg0 s.arg1 s.arg2 q s.cfg) s := by
  simp only [exec, execSendcfgmsg, hq]
  rfl

/-- Without a program command in `ARG3` it is refused before anything is transmitted. -/
theorem exec_sendcfgmsg_of_none (hq : progCmdOf s.arg3 = none) :
    exec .sendcfgmsg s = raise .invalidParameter s := by
  simp only [exec, execSendcfgmsg, hq]

/-- Settles O46: the message of the operands is written and not waited for, or `ARG3` is refused. -/
theorem sendcfgmsgTransmitsFourteenBytes : Obligations.SendcfgmsgTransmitsFourteenBytes := by
  intro s
  rcases progCmdOf_cases s.arg3 with ⟨hc, q, hq⟩ | ⟨hc, hq⟩
  · refine ⟨fun _ => ?_, fun hn => absurd hc hn⟩
    rw [exec_sendcfgmsg_of_progCmd hq, exec_msgRemoteCfg, encode_msgRemoteCfg, code_of_progCmdOf hq]
    exact raise_txWrite_outcome s _
  · exact ⟨fun h => absurd h hc, fun _ => exec_sendcfgmsg_of_none hq⟩

end Sys2Proof.Machine
end

section
/-! PROOFS. The statuses each command can raise (spec/60_exceptions.md R198, R202): what the waits and the reads answer, and for
each command its row of `statusTable`. -/

namespace Sys2Proof.Machine

/-! ## Statuses of the waits and the reads (R145, R146, R149, R151, R168, R174) -/

/-- What `ShortRead` can answer (R145). -/
def readStatuses : List Status := [.success, .noResponseFromDevice, .dataSizeMismatch]

/-- What a completion wait can answer (R146), and the loop of RECVUNTIL (R174). -/
def waitStatuses : List Status := [.success, .timeout]

theorem shortRead_mem (got : List Byte) (n : Nat) : shortRead got n ∈ readStatuses := by
  unfold shortRead
  split_ifs <;> decide

theorem readStatus_mem (got : List Byte) (n : Nat) : readStatus got n ∈ readStatuses := by
  unfold readStatus
  split_ifs
  · decide
  · exact shortRead_mem got n

/-- A framed read answers as `ShortRead` does, or that the head is not the expected one (R149). -/
theorem headStatus_mem (got : List Byte) (n : Nat) (h : Byte) (m : Status) : headStatus got n h m ∈ m :: readStatuses := by
  unfold headStatus
  split_ifs
  · exact List.mem_cons_of_mem _ (shortRead_mem got n)
  · exact List.mem_cons_of_mem _ (by decide)
  · exact List.mem_cons_self

theorem waitComplete_mem (p : Params) (T P : Nat) (l : Link) : (waitComplete p T P l).1 ∈ waitStatuses := by
  rcases waitComplete_status p T P l with h | h <;> rw [h] <;> decide

theorem untilLoop_mem (p : Params) (d : Byte) (room : Nat) (l : Link) :
    (untilLoop p d room [] l).1 ∈ waitStatuses := by
  obtain ⟨_, _, -, -, -, -, hst, -⟩ := untilLoop_spec p d room [] l
  rcases hst with h | h <;> rw [h] <;> decide

/-- An exchange ends in the Timeout of its wait, or as the framed read of its response (R151). -/
theorem exchange_mem (p : Params) (req : List Byte) (n : Nat) (m : Status) (l : Link) :
    (exchange p req n m l).1 ∈ .timeout :: m :: readStatuses := by
  obtain ⟨_, got, _, st, he, -, -, hst⟩ := exchange_spec p req n m l
  rw [he]
  rcases hst with ⟨rfl, -⟩ | rfl
  · exact List.mem_cons_self
  · exact List.mem_cons_of_mem _ (headStatus_mem got n codeRead m)

/-! ## Listed completions -/

/-- Instruction `i` run at `s` completes with a status of its row in `statusTable`. -/
def CompletesListed (i : Instr) (s : State) : Prop :=
  ∃ (st : Status) (t : State), exec i s = raise st t ∧ st ∈ statusTable i

section
variable {i : Instr} {s : State}

/-- Two ways to complete, both of them listed. -/
theorem CompletesListed.of_ite {c : Prop} [Decidable c] {st st' : Status} {t t' : State}
    (he : exec i s = if c then raise st t else raise st' t') (h : st ∈ statusTable i) (h' : st' ∈ statusTable i) :
    CompletesListed i s := by
  split at he
  · exact ⟨st, t, he, h⟩
  · exact ⟨st', t', he, h'⟩

end

variable (s : State)

/-! ## Codec and mode commands -/

theorem deccfg_completesListed : CompletesListed .deccfg s := by
  by_cases header : s.arg0.toNat % 2 = 1
  · exact .of_ite (exec_deccfg_header header) (by decide) (by decide)
  · exact .of_ite (exec_deccfg_body header) (by decide) (by decide)

theorem encreg_completesListed : CompletesListed .encreg s := by
  cases hw : windowOf s.arg0 with
  | none => exact ⟨_, _, exec_encreg_noWindow hw, by decide⟩
  | some w => exact ⟨_, _, exec_encreg_window hw, by decide⟩

theorem decreg_completesListed : CompletesListed .decreg s := by
  cases hw : windowOf s.arg0 with
  | none => exact ⟨_, _, exec_decreg_noWindow hw, by decide⟩
  | some w => exact .of_ite (exec_decreg_window hw) (by decide) (by decide)

/-- A request of a mode is refused for the link speed, or ends as its settling does (R136). -/
theorem setModeTo_eq {x : Byte} {m : Mode} (hx : requestableMode x = some m) : ∃ t : State,
    setModeTo x s =
      if m = .configuration ∧ s.linkBaud ≠ Config.cfgLinkBaud then raise .wrongUartConfig s
      else raise (settle s.params (s.link.setPins s.params (pinM0Of x) (pinM1Of x))).1 t := by
  simp only [setModeTo, hx]
  exact ⟨_, rfl⟩

theorem setmode_completesListed : CompletesListed .setmode s := by
  cases hx : requestableMode s.arg0 with
  | none => exact ⟨_, _, setModeTo_illegal hx, by decide⟩
  | some m =>
    obtain ⟨t, he⟩ := setModeTo_eq s hx
    rw [settle_eq] at he
    exact .of_ite he (by decide) ((by decide : waitStatuses ⊆ statusTable .setmode) (waitComplete_mem ..))

/-! ## Sends and waits -/

section
variable {i : Instr} {s : State} {limit : Nat} {frame : List Byte}

/-- A send may raise what its wait can, and PacketTooBig (R162). -/
theorem sendTable_statuses (h : sendTable i s = some (limit, frame)) :
    .packetTooBig :: waitStatuses ⊆ statusTable i := by
  cases i with
  | sendstruct | sendmsg | sendfixed | sendbcast => decide
  | _ => cases h

theorem send_completesListed (h : sendTable i s = some (limit, frame)) : CompletesListed i s := by
  have listed := sendTable_statuses h
  exact .of_ite (exec_send h) (listed List.mem_cons_self) (listed (List.mem_cons_of_mem _ (waitComplete_mem ..)))

end

theorem sendcfgmsg_completesListed : CompletesListed .sendcfgmsg s := by
  cases hq : progCmdOf s.arg3 with
  | none => exact ⟨_, _, exec_sendcfgmsg_of_none hq, by decide⟩
  | some q => exact ⟨_, _, (exec_sendcfgmsg_of_progCmd hq).trans (exec_msgRemoteCfg ..), by decide⟩

theorem waitcomplete_completesListed : CompletesListed .waitcomplete s :=
  .of_ite rfl (by decide)
    ((by decide : waitStatuses ⊆ statusTable .waitcomplete) (waitComplete_mem s.params s.argt s.argp s.link))

/-! ## Receives -/

theorem recvstruct_completesListed : CompletesListed .recvstruct s := by
  rcases Nat.eq_zero_or_pos s.arg0.toNat with empty | nonempty
  · exact ⟨_, _, exec_recvstruct_empty empty, by decide⟩
  · rcases Nat.lt_or_ge 200 s.arg0.toNat with large | fits
    · exact ⟨_, _, exec_recvstruct_tooLarge large, by decide⟩
    · obtain ⟨l, got, -, he⟩ := exec_recvstruct_reads nonempty fits
      exact ⟨_, _, he, (by decide : .headNotRecognized :: readStatuses ⊆ statusTable .recvstruct) (headStatus_mem ..)⟩

theorem recvmsg_completesListed : CompletesListed .recvmsg s := by
  rcases Nat.lt_or_ge 200 s.arg0.toNat with large | fits
  · exact ⟨_, _, sizeCheck_refuses large, by decide⟩
  · obtain ⟨l, got, -, he⟩ := exec_recvmsg_reads fits
    exact ⟨_, _, he, (by decide : readStatuses ⊆ statusTable .recvmsg) (readStatus_mem ..)⟩

theorem recvmsgrssi_completesListed : CompletesListed .recvmsgrssi s := by
  rcases Nat.lt_or_ge 200 s.arg0.toNat with large | fits
  · exact ⟨_, _, sizeCheck_refuses large, by decide⟩
  · obtain ⟨l, got, -, he⟩ := exec_recvmsgrssi_reads fits
    exact ⟨_, _, he, (by decide : readStatuses ⊆ statusTable .recvmsgrssi) (shortRead_mem ..)⟩

theorem recvcomplete_completesListed : CompletesListed .recvcomplete s := by
  rcases Nat.lt_or_ge 200 s.arg0.toNat with large | fits
  · exact ⟨_, _, sizeCheck_refuses large, by decide⟩
  · obtain ⟨l, got, -, he⟩ := exec_recvcomplete_drains fits
    split_ifs at he
    all_goals exact ⟨_, _, he, by decide⟩

theorem recvuntil_completesListed : CompletesListed .recvuntil s :=
  ⟨_, _, rfl, untilLoop_mem s.params s.arg0 s.params.nUntilMax s.link⟩

/-! ## Local configuration commands -/

section
variable {i : Instr} {s : State} {req : List Byte} {n : Nat} {m : Status}

/-- A command whose row of `localRequest` names `m` for a mismatch may raise what the exchange can, and NotInitialized. -/
theorem localRequest_statuses (h : localRequest i s = some (req, n, m)) :
    .notInitialized :: .timeout :: m :: readStatuses ⊆ statusTable i := by
  cases i with
  | getcfg | getinfo => cases h; decide
  | setcfg | readreg | writereg =>
    simp only [localRequest] at h
    split_ifs at h
    all_goals cases h; decide
  | _ => cases h

/-- GETCFG and GETINFO have no operand that could be illegal; the other three list InvalidParameter. -/
theorem invalidParameter_mem_of_localRequest (hi : i ∈ [Instr.getcfg, .setcfg, .getinfo, .readreg, .writereg])
    (h : localRequest i s = none) : .invalidParameter ∈ statusTable i := by
  simp only [List.mem_cons, List.not_mem_nil, or_false] at hi
  rcases hi with rfl | rfl | rfl | rfl | rfl
  case inl | inr.inr.inl => cases h
  all_goals decide

/-- The mode precondition and the exchange, as two ways to complete (R180). -/
theorem localExchange_eq (store : List Byte → State → State) : ∃ t : State,
    localExchange req n m store s =
      if s.mode ≠ .configuration then raise .notInitialized s else raise (exchange s.params req n m s.link).1 t :=
  ⟨_, rfl⟩

theorem local_completesListed (hi : i ∈ [Instr.getcfg, .setcfg, .getinfo, .readreg, .writereg]) (s : State) :
    CompletesListed i s := by
  rcases localCommand_of_mem hi s with ⟨hr, he⟩ | ⟨req, n, m, hr, he⟩
  · exact ⟨_, _, he, invalidParameter_mem_of_localRequest hi hr⟩
  · have listed := localRequest_statuses hr
    obtain ⟨t, hx⟩ := localExchange_eq (s := s) (req := req) (n := n) (m := m) (localStore i s)
    exact .of_ite (he.trans hx) (listed List.mem_cons_self)
      (listed (List.mem_cons_of_mem _ (exchange_mem s.params req n m s.link)))

end

/-! ## The dispatch -/

/-- Whatever a write of `CMD` starts completes with a status listed for it. -/
theorem exec_completesListed {i : Instr} (h : i.port = .cmd) : CompletesListed i s := by
  cases i with
  | enccfg => exact ⟨_, _, exec_enccfg s, by decide⟩
  | deccfg => exact deccfg_completesListed s
  | encreg => exact encreg_completesListed s
  | decreg => exact decreg_completesListed s
  | decinfo => exact .of_ite (exec_decinfo s) (by decide) (by decide)
  | setmode => exact setmode_completesListed s
  | sendstruct | sendmsg | sendfixed | sendbcast => exact send_completesListed rfl
  | recvstruct => exact recvstruct_completesListed s
  | waitcomplete => exact waitcomplete_completesListed s
  | recvmsg => exact recvmsg_completesListed s
  | recvmsgrssi => exact recvmsgrssi_completesListed s
  | recvcomplete => exact recvcomplete_completesListed s
  | recvuntil => exact recvuntil_completesListed s
  | getmode | drain | available => exact ⟨.success, _, rfl, by decide⟩
  | getcfg | setcfg | getinfo | readreg | writereg => exact local_completesListed (by decide) s
  | resetmod => exact ⟨.notImplemented, _, rfl, by decide⟩
  | sendcfgmsg => exact sendcfgmsg_completesListed s
  | reserved op => exact ⟨.notSupported, _, rfl, List.mem_cons_self⟩
  | _ => cases h

section
variable {i : Instr} {s t : State}

theorem exec_next_listed (hi : i.port = .cmd) (h : exec i s = .next t) : t.status ∈ statusTable i := by
  obtain ⟨st, u, ha, listed⟩ := exec_completesListed s hi
  cases ha.symm.trans h
  exact listed

theorem exec_next_raised (hi : i.port = .cmd) (h : exec i s = .next t) : t.status.raised = true := by
  obtain ⟨st, u, ha, raised, -⟩ := exec_completes s hi
  cases ha.symm.trans h
  exact raised

end

/-- Neither a status R202 gives no cause nor the reset value is raised. -/
theorem Status.raised_ne {st : Status} (h : st.raised = true) :
    st ≠ .unknown ∧ st ≠ .hardwareError ∧ st ≠ .none := by
  refine ⟨?_, ?_, ?_⟩
  all_goals
    rintro rfl
    cases h

/-- Settles O54. -/
theorem eachCommandRaisesOnlyItsStatuses : Obligations.EachCommandRaisesOnlyItsStatuses := fun _ _ _ hi h =>
  ⟨exec_next_listed (isCommand_port hi) h, Status.raised_ne (exec_next_raised (isCommand_port hi) h)⟩

end Sys2Proof.Machine
end

section
/-! PROOFS. The time a command takes (spec/70_reset_and_hazards.md R249): what each wait, read and exchange may sleep, and
for each command its row of `tickBound`. -/

namespace Sys2Proof.Machine

/-! ## Waits, reads and exchanges (R146 to R149, R151, R172, R174) -/

section
variable {p : Params} {l l' : Link} {got tail : List Byte} {n Q : Nat}

theorem ReadOutcome.ticks_le (h : ReadOutcome n Q l l' got) : l'.ticks ≤ l.ticks + Q := by
  obtain ⟨-, -, -, -, -, -, -, -, high⟩ := h
  exact high

theorem DrainOutcome.ticks_le (h : DrainOutcome p n Q l l' got) : l'.ticks ≤ l.ticks + n * Q := by
  obtain ⟨-, -, -, -, -, -, -, -, -, -, high⟩ := h
  exact high

theorem UntilOutcome.ticks_le {d : Byte} {st : Status} (h : UntilOutcome p d n Q l l' got tail st) :
    l'.ticks ≤ l.ticks + n * Q := by
  obtain ⟨-, -, -, -, -, -, -, -, -, high⟩ := h
  exact high

end

theorem waitComplete_ticks_le (p : Params) (T P : Nat) (l : Link) : (waitComplete p T P l).2.ticks ≤ l.ticks + T := by
  obtain ⟨_, f⟩ := waitComplete_flow p T P l
  exact f.ticks

theorem sendStruct_ticks_le (p : Params) (bs : List Byte) (l : Link) :
    (sendStruct p bs l).2.ticks ≤ l.ticks + p.tRespTimeout := by
  obtain ⟨_, f, -⟩ := sendStruct_spec p bs l
  exact f.ticks

/-- The clear that begins an exchange takes no time; the wait and the read that follow have a timeout each. -/
theorem exchange_ticks_le (p : Params) (req : List Byte) (n : Nat) (m : Status) (l : Link) :
    (exchange p req n m l).2.2.ticks ≤ l.ticks + (p.tRespTimeout + p.tReadTimeout) := by
  obtain ⟨-, -, -, -, cleared, -⟩ := rxClear_spec p l
  obtain ⟨_, _, l1, _, he, f, -⟩ := exchange_spec p req n m l
  rw [he, ← cleared]
  exact f.ticks

/-! ## Commands within their bound -/

/-- Command `i` at `s` has a next state, at most `tickBound i s` ticks later. -/
def WithinBound (i : Instr) (s : State) : Prop :=
  ∃ t, exec i s = .next t ∧ t.link.ticks ≤ s.link.ticks + tickBound i s

section
variable {i : Instr} {s t : State} {st : Status}

/-- A completion on a link that is at most the bound later. -/
theorem WithinBound.raise {l : Link} (he : exec i s = raise st t) (hl : t.link = l)
    (h : l.ticks ≤ s.link.ticks + tickBound i s) : WithinBound i s :=
  ⟨_, he, (congrArg Link.ticks hl).trans_le h⟩

/-- A command in which no time passes is within every bound. -/
theorem WithinBound.timeless (he : exec i s = .next t) (h : t.link.ticks = s.link.ticks) : WithinBound i s :=
  ⟨t, he, h.trans_le (Nat.le_add_right _ _)⟩

theorem WithinBound.unchanged (he : exec i s = Machine.raise st s) : WithinBound i s := .timeless he rfl

end

variable (s : State)

/-! ## Codec and mode commands -/

theorem codec_withinBound {i : Instr} (hi : i ∈ [Instr.enccfg, .deccfg, .encreg, .decreg, .decinfo]) :
    WithinBound i s := by
  obtain ⟨t, he, hl, -⟩ := codecCommandsNeverTouchTheLink i s s.link hi
  exact .timeless he (congrArg Link.ticks hl)

/-- The pin writes take no time, so a mode request takes that of its settling (R74, R136). -/
theorem settle_setPins_ticks_le (p : Params) (v0 v1 : Bit) (l : Link) :
    (settle p (l.setPins p v0 v1)).2.ticks ≤
      l.ticks + (if p.auxWired then p.tSettleTimeout else p.tSettleDelay) := by
  obtain ⟨-, -, -, driven, -⟩ := setPins_spec p v0 v1 l
  rw [settle_eq, ← driven]
  exact waitComplete_ticks_le p _ _ _

/-- The link of a request that passes both checks is that of its settling: the recorded mode is no part of it (R136). -/
theorem setModeTo_settling_link {s : State} {x : Byte} {m : Mode} (hx : requestableMode x = some m)
    (hb : ¬ (m = .configuration ∧ s.linkBaud ≠ Config.cfgLinkBaud)) : ∃ t : State,
      setModeTo x s = raise (settle s.params (s.link.setPins s.params (pinM0Of x) (pinM1Of x))).1 t ∧
      t.link = (settle s.params (s.link.setPins s.params (pinM0Of x) (pinM1Of x))).2 := by
  simp only [setModeTo, hx, if_neg hb, State.recordMode_eq]
  exact ⟨_, rfl, rfl⟩

theorem setmode_withinBound : WithinBound .setmode s := by
  cases hx : requestableMode s.arg0 with
  | none => exact .unchanged (setModeTo_illegal hx)
  | some m =>
    by_cases hb : m = .configuration ∧ s.linkBaud ≠ Config.cfgLinkBaud
    · obtain ⟨rfl, speed⟩ := hb
      exact .timeless (setModeTo_wrongBaud hx speed) rfl
    · obtain ⟨t, he, hl⟩ := setModeTo_settling_link hx hb
      exact .raise he hl (settle_setPins_ticks_le s.params _ _ s.link)

/-! ## Sends and waits -/

theorem tickBound_of_sendTable {i : Instr} {s : State} {row : Nat × List Byte} (h : sendTable i s = some row) :
    tickBound i s = s.params.tRespTimeout := by
  cases i with
  | sendstruct | sendmsg | sendfixed | sendbcast => rfl
  | _ => cases h

theorem send_withinBound {i : Instr} {s : State} {limit : Nat} {frame : List Byte}
    (h : sendTable i s = some (limit, frame)) : WithinBound i s := by
  have he := exec_send h
  split_ifs at he
  · exact .unchanged he
  · have bound := sendStruct_ticks_le s.params frame s.link
    rw [← tickBound_of_sendTable h] at bound
    exact .raise he rfl bound

theorem sendcfgmsg_withinBound : WithinBound .sendcfgmsg s := by
  cases hq : progCmdOf s.arg3 with
  | none => exact .unchanged (exec_sendcfgmsg_of_none hq)
  | some q =>
    exact .raise ((exec_sendcfgmsg_of_progCmd hq).trans (exec_msgRemoteCfg ..)) rfl (txWrite_flow _ _ s.link).ticks

theorem waitcomplete_withinBound : WithinBound .waitcomplete s := by
  by_cases h0 : s.argp = 0
  · exact .unchanged (if_pos h0)
  · exact .raise (if_neg h0) rfl (waitComplete_ticks_le s.params s.argt s.argp s.link)

theorem drain_withinBound : WithinBound .drain s := by
  obtain ⟨_, -, -, -, -, hticks, he⟩ := drainEmptiesTheFifo s
  exact .timeless he hticks

theorem available_withinBound : WithinBound .available s :=
  .timeless rfl (point_ticks s.params s.link)

/-! ## Receives -/

theorem recvstruct_withinBound : WithinBound .recvstruct s := by
  rcases Nat.eq_zero_or_pos s.arg0.toNat with empty | nonempty
  · exact .unchanged (exec_recvstruct_empty empty)
  · rcases Nat.lt_or_ge 200 s.arg0.toNat with large | fits
    · exact .unchanged (exec_recvstruct_tooLarge large)
    · obtain ⟨l, got, outcome, he⟩ := exec_recvstruct_reads nonempty fits
      exact .raise he (State.received_link ..) outcome.ticks_le

theorem recvmsg_withinBound : WithinBound .recvmsg s := by
  rcases Nat.lt_or_ge 200 s.arg0.toNat with large | fits
  · exact .unchanged (sizeCheck_refuses large)
  · obtain ⟨l, got, outcome, he⟩ := exec_recvmsg_reads fits
    exact .raise he (State.received_link ..) outcome.ticks_le

theorem recvmsgrssi_withinBound : WithinBound .recvmsgrssi s := by
  rcases Nat.lt_or_ge 200 s.arg0.toNat with large | fits
  · exact .unchanged (sizeCheck_refuses large)
  · obtain ⟨l, got, outcome, he⟩ := exec_recvmsgrssi_reads fits
    exact .raise he (State.receivedRssi_link ..) outcome.ticks_le

theorem recvcomplete_withinBound : WithinBound .recvcomplete s := by
  rcases Nat.lt_or_ge 200 s.arg0.toNat with large | fits
  · exact .unchanged (sizeCheck_refuses large)
  · obtain ⟨l, got, outcome, he⟩ := exec_recvcomplete_drains fits
    split_ifs at he
    · exact .raise he rfl outcome.ticks_le
    · exact .raise he (State.receivedRssi_link ..) outcome.ticks_le
    · exact .raise he rfl outcome.ticks_le

theorem recvuntil_withinBound : WithinBound .recvuntil s := by
  obtain ⟨l, got, tail, st, outcome, he⟩ := exec_recvuntil_reads s
  exact .raise he rfl outcome.ticks_le

/-! ## Local configuration commands -/

theorem localStore_link (i : Instr) (s : State) (resp : List Byte) (t : State) :
    (localStore i s resp t).link = t.link := by
  cases i with
  | readreg =>
    change ((windowOf s.arg0).elim (fun _ t => t) storeWindow resp t).link = t.link
    cases windowOf s.arg0 <;> rfl
  | _ => rfl

theorem tickBound_of_localRequest {i : Instr} {s : State} {row : List Byte × Nat × Status}
    (h : localRequest i s = some row) : tickBound i s = s.params.tRespTimeout + s.params.tReadTimeout := by
  cases i with
  | getcfg | setcfg | getinfo | readreg | writereg => rfl
  | _ => cases h

theorem local_withinBound {i : Instr} (hi : i ∈ [Instr.getcfg, .setcfg, .getinfo, .readreg, .writereg]) :
    WithinBound i s := by
  rcases localCommand_of_mem hi s with ⟨-, he⟩ | ⟨req, n, m, hr, he⟩
  · exact .unchanged he
  · by_cases hm : s.mode = .configuration
    · have bound := exchange_ticks_le s.params req n m s.link
      rw [← tickBound_of_localRequest hr] at bound
      refine .raise (exec_localExchange hr hm) ?_ bound
      split
      · exact localStore_link ..
      · rfl
    · exact .unchanged (he.trans (localExchange_refused hm))

/-! ## The dispatch -/

/-- Whatever a write of `CMD` starts keeps to its row of R249. -/
theorem exec_withinBound {i : Instr} (h : i.port = .cmd) : WithinBound i s := by
  cases i with
  | enccfg | deccfg | encreg | decreg | decinfo => exact codec_withinBound s (by decide)
  | setmode => exact setmode_withinBound s
  | getmode => exact .timeless rfl rfl
  | sendstruct | sendmsg | sendfixed | sendbcast => exact send_withinBound rfl
  | recvstruct => exact recvstruct_withinBound s
  | waitcomplete => exact waitcomplete_withinBound s
  | drain => exact drain_withinBound s
  | recvmsg => exact recvmsg_withinBound s
  | recvmsgrssi => exact recvmsgrssi_withinBound s
  | recvcomplete => exact recvcomplete_withinBound s
  | recvuntil => exact recvuntil_withinBound s
  | available => exact available_withinBound s
  | getcfg | setcfg | getinfo | readreg | writereg => exact local_withinBound s (by decide)
  | sendcfgmsg => exact sendcfgmsg_withinBound s
  | resetmod | reserved => exact .unchanged rfl
  | _ => cases h

section
variable {i : Instr} {s t : State}

theorem exec_next_ticks_ge (hi : i.port = .cmd) (h : exec i s = .next t) : s.link.ticks ≤ t.link.ticks := by
  obtain ⟨_, _, ha, -, effect⟩ := exec_completes s hi
  cases ha.symm.trans h
  exact effect.link.ticks

theorem exec_next_ticks_le (hi : i.port = .cmd) (h : exec i s = .next t) :
    t.link.ticks ≤ s.link.ticks + tickBound i s := by
  obtain ⟨_, ha, bound⟩ := exec_withinBound s hi
  cases ha.symm.trans h
  exact bound

end

/-- Settles O56: the link of a refused command is the one it started with (O53), so no time passed on it. -/
theorem ticksAreBoundedByTheSpecsTable : Obligations.TicksAreBoundedByTheSpecsTable := by
  intro i s t hi h
  refine ⟨exec_next_ticks_ge (isCommand_port hi) h, exec_next_ticks_le (isCommand_port hi) h, fun hr => ?_⟩
  rw [refusalsTouchNothingButStatus i s t hi h hr]

end Sys2Proof.Machine
end
